-- ==== Sys2Proof/Word.lean ====
section
/-! DEFINITION. The value types of the unit: words, 256-bit magnitudes, I256 pairs and the ordering. -/

namespace Sys2Proof

/-- One 64-bit word: a limb, or a word of the host register window (00_scope.md R6, 20_memory.md R62). -/
abbrev Word64 := BitVec 64

/-- A 256-bit unsigned value: a U register, or the magnitude of an I256 (00_scope.md R8). -/
abbrev U256 := BitVec 256

/-- A 64-bit two's-complement word, the tick type (10_state.md R33, 00_scope.md R8). -/
abbrev I64 := BitVec 64

/-- A byte of a byte-addressed host bus (20_memory.md R64). -/
abbrev Byte := BitVec 8

/-- A word address of the host register window, `0x00` to `0xFF` (20_memory.md R61). -/
abbrev WordAddr := BitVec 8

/-- Index of an S register, `s0` to `s7` (10_state.md R31). -/
abbrev SIdx := Fin 8

/-- Index of a U register, `u0` to `u3` (10_state.md R32). -/
abbrev UIdx := Fin 4

/-- Index of a T register, `t0` to `t3` (10_state.md R33). -/
abbrev TIdx := Fin 4

/-- An I256 value: a sign flag and an unsigned magnitude, any of the 257-bit patterns
(00_scope.md R8, 10_state.md R31, R38). -/
structure I256 where
  neg : Bool
  mag : U256
  deriving DecidableEq, Repr

/-- The ordering type of CMP and ACMP (00_scope.md R8, 10_state.md R34). -/
inductive Order where
  | less
  | equal
  | greater
  deriving DecidableEq, Repr

end Sys2Proof
end

