-- ==== Sys2Proof/Config.lean ====
section
/-! DEFINITION. What an implementation fixes: the unit's identifier and the OPEN parameters of 00_scope.md R5. -/

namespace Sys2Proof

/-- The identifier string of the unit (00_scope.md R1). -/
def Config.unitId : String := "MU-I256AU-v7"

/-- The two settings of `SQRTP_WIDE_TICK` (46_sqrt_price.md R206). -/
inductive WideTick where
  | ignore
  | fault
  deriving DecidableEq, Repr

/-- `HOST_BYTE_ORDER`, the order of the bytes of a window word on a byte-addressed host bus
(20_memory.md R64, 00_scope.md R5). DESIGN CHOICE (log 17): the spec leaves the parameter OPEN and lists
no values; that it is one of these two orders, and no mixed one, is the model's. -/
inductive ByteOrder where
  | little
  | big
  deriving DecidableEq, Repr

/-- The OPEN parameters of the unit and of its place on a platform (00_scope.md R5). They are fixed
in the unit (70_reset_and_hazards.md R282); `LATENCY` is left out, since a model keeps no time
(R284, log 10). Nothing here bounds the constants: `ConstantsInRange` of Safety.lean says the
bounds of 46_sqrt_price.md R200 and 47_log_price.md R220. -/
structure Params where
  /-- `SQRT_BASE_ODD`, Q128 (46_sqrt_price.md R200). -/
  sqrtBaseOdd : U256
  /-- `MAGIC_1` to `MAGIC_19`, Q128; `MAGIC_k` stands at index `k - 1` (46_sqrt_price.md R200). -/
  magic : Vector U256 19
  /-- `LOG_ERR_LO` (47_log_price.md R220). -/
  logErrLo : U256
  /-- `LOG_ERR_HI` (47_log_price.md R220). -/
  logErrHi : U256
  /-- `SQRTP_WIDE_TICK` (46_sqrt_price.md R206). -/
  wideTick : WideTick
  /-- `HOST_BYTE_ORDER` (20_memory.md R64). -/
  byteOrder : ByteOrder
  /-- `WINDOW_BASE`, the byte address at which the platform places word `0x00` (20_memory.md R61). -/
  windowBase : Nat
  deriving DecidableEq, Repr

end Sys2Proof
end

