-- ==== Sys2Proof/Syntax.lean ====
section
/-! DEFINITION. The commands of the unit, one constructor per row of the opcode table, and the raw
fields of a command word. -/

namespace Sys2Proof

/-- The 15 commands of 30_encoding.md R85. Operands are written destination first, then sources
(R89); each index has the type of its own register file, so every term is in range (R82). -/
inductive Instr where
  | cmp (a b : SIdx)
  | acmp (a b : SIdx)
  | add (d a b : SIdx)
  | sub (d a b : SIdx)
  | mul (d a b : SIdx)
  | shr (d a : SIdx) (shift : BitVec 8)
  | or (d a b : SIdx)
  | compl (d a : SIdx)
  | zero (d : SIdx)
  | fromu (d : SIdx) (a : UIdx)
  | fromun (d : SIdx) (a : UIdx)
  | fromu128 (d : SIdx) (a : UIdx) (isNegative : Bool)
  | asi64 (d : TIdx) (a : SIdx)
  | sqrtp (d : UIdx) (a : TIdx)
  | logsp (d : TIdx) (a : UIdx)
  deriving DecidableEq, Repr

/-- The fields of the 64-bit word written to CMD (30_encoding.md R80, R81), `high` being its bits
63:32. -/
structure CmdFields where
  high : BitVec 32
  rsv : BitVec 4
  imm8 : BitVec 8
  rs2 : BitVec 4
  rs1 : BitVec 4
  rd : BitVec 4
  op : BitVec 8
  deriving DecidableEq, Repr

end Sys2Proof
end

