-- ==== Sys2Proof/WellFormed.lean ====
section
/-! DEFINITION. Which fields make a legal command word: the format table of 30_encoding.md R84 and the
list of illegal cases of R86. The decoder of Decode.lean is written separately, from R82 to R85. -/

namespace Sys2Proof

/-- What a format asks of a register index field (30_encoding.md R82, R84). -/
inductive IndexUse where
  | mustBeZero
  | sFile
  | uFile
  | tFile
  deriving DecidableEq, Repr

/-- What a format asks of IMM8 (30_encoding.md R83, R84). -/
inductive ImmUse where
  | mustBeZero
  | shiftAmount
  | signFlag
  deriving DecidableEq, Repr

/-- A row of the format table (30_encoding.md R84). -/
structure Format where
  rd : IndexUse
  rs1 : IndexUse
  rs2 : IndexUse
  imm : ImmUse
  deriving DecidableEq, Repr

/-- Whether an index field meets its use: an S index has bit 3 clear, a U or T index bits 3 and 2
clear, an unused field is 0 (30_encoding.md R82). -/
def IndexUse.admits : IndexUse → BitVec 4 → Bool
  | .mustBeZero, f => f == 0#4
  | .sFile, f => decide (f.toNat < 8)
  | .uFile, f => decide (f.toNat < 4)
  | .tFile, f => decide (f.toNat < 4)

/-- Whether IMM8 meets its use (30_encoding.md R83). -/
def ImmUse.admits : ImmUse → BitVec 8 → Bool
  | .mustBeZero, f => f == 0#8
  | .shiftAmount, _ => true
  | .signFlag, f => decide (f.toNat < 2)

/-- The format of an opcode, none where the opcode map has no row (30_encoding.md R84, R85). -/
def formatOf (op : BitVec 8) : Option Format :=
  match op.toNat with
  | 0x01 | 0x02 => some ⟨.mustBeZero, .sFile, .sFile, .mustBeZero⟩
  | 0x03 | 0x04 | 0x05 | 0x07 => some ⟨.sFile, .sFile, .sFile, .mustBeZero⟩
  | 0x06 => some ⟨.sFile, .sFile, .mustBeZero, .shiftAmount⟩
  | 0x08 => some ⟨.sFile, .sFile, .mustBeZero, .mustBeZero⟩
  | 0x09 => some ⟨.sFile, .mustBeZero, .mustBeZero, .mustBeZero⟩
  | 0x0A | 0x0B => some ⟨.sFile, .uFile, .mustBeZero, .mustBeZero⟩
  | 0x0C => some ⟨.sFile, .uFile, .mustBeZero, .signFlag⟩
  | 0x0D => some ⟨.tFile, .sFile, .mustBeZero, .mustBeZero⟩
  | 0x0E => some ⟨.uFile, .tFile, .mustBeZero, .mustBeZero⟩
  | 0x0F => some ⟨.tFile, .uFile, .mustBeZero, .mustBeZero⟩
  | _ => none

/-- A command word is legal when none of the cases of 30_encoding.md R86 holds. -/
def CmdFields.wellFormed (f : CmdFields) : Bool :=
  match formatOf f.op with
  | none => false
  | some fmt =>
    f.high == 0#32 && f.rsv == 0#4 && fmt.rd.admits f.rd && fmt.rs1.admits f.rs1
      && fmt.rs2.admits f.rs2 && fmt.imm.admits f.imm8

end Sys2Proof
end

