-- ==== Sys2Proof/Decode.lean ====
section
/-! DEFINITION. The decoder of a word written to CMD (30_encoding.md R80 to R87), total and rejecting
by name; then the encoder, from the same field table, and the opcode map as match and mask. -/

namespace Sys2Proof

/-- Why a command word is illegal, one name per case of 30_encoding.md R86. All of them raise the one
error IllegalCommand, so which name is given is not observable (log 11). -/
inductive Illegal where
  /-- bits 63:32 of the word are not 0 -/
  | highBits
  /-- OP selects no row of the opcode map -/
  | opcode
  /-- RSV is not 0 -/
  | reserved
  /-- a field its format requires to be 0 is not 0 -/
  | unusedField
  /-- a register index is outside its file -/
  | registerIndex
  /-- FROMU128 with IMM8 bits 7:1 not 0 -/
  | signImmediate
  deriving DecidableEq, Repr

/-- The fields of a word written to CMD (30_encoding.md R80, R81). -/
def fieldsOf (w : Word64) : CmdFields where
  high := w.extractLsb' 32 32
  rsv := w.extractLsb' 28 4
  imm8 := w.extractLsb' 20 8
  rs2 := w.extractLsb' 16 4
  rs1 := w.extractLsb' 12 4
  rd := w.extractLsb' 8 4
  op := w.extractLsb' 0 8

/-- An S register index: bit 3 must be 0 (30_encoding.md R82). -/
def sIndex (f : BitVec 4) : Except Illegal SIdx :=
  if h : f.toNat < 8 then .ok ⟨f.toNat, h⟩ else .error .registerIndex

/-- A U or T register index: bits 3 and 2 must be 0 (30_encoding.md R82). -/
def utIndex (f : BitVec 4) : Except Illegal (Fin 4) :=
  if h : f.toNat < 4 then .ok ⟨f.toNat, h⟩ else .error .registerIndex

/-- A field the format does not use must be 0 (30_encoding.md R82). -/
def unused {n : Nat} (f : BitVec n) : Except Illegal Unit :=
  if f.toNat = 0 then .ok () else .error .unusedField

/-- FROMU128's sign flag, IMM8 bit 0, with bits 7:1 required to be 0 (30_encoding.md R83). -/
def signFlag (f : BitVec 8) : Except Illegal Bool :=
  if f.toNat = 0 then .ok false else if f.toNat = 1 then .ok true else .error .signImmediate

/-- Decoding of the fields, opcode by opcode (30_encoding.md R84, R85). -/
def decodeFields (f : CmdFields) : Except Illegal Instr :=
  if f.high.toNat ≠ 0 then .error .highBits
  else if f.rsv.toNat ≠ 0 then .error .reserved
  else
    match f.op.toNat with
    | 0x01 => do unused f.rd; unused f.imm8; return .cmp (← sIndex f.rs1) (← sIndex f.rs2)
    | 0x02 => do unused f.rd; unused f.imm8; return .acmp (← sIndex f.rs1) (← sIndex f.rs2)
    | 0x03 => do unused f.imm8; return .add (← sIndex f.rd) (← sIndex f.rs1) (← sIndex f.rs2)
    | 0x04 => do unused f.imm8; return .sub (← sIndex f.rd) (← sIndex f.rs1) (← sIndex f.rs2)
    | 0x05 => do unused f.imm8; return .mul (← sIndex f.rd) (← sIndex f.rs1) (← sIndex f.rs2)
    | 0x06 => do unused f.rs2; return .shr (← sIndex f.rd) (← sIndex f.rs1) f.imm8
    | 0x07 => do unused f.imm8; return .or (← sIndex f.rd) (← sIndex f.rs1) (← sIndex f.rs2)
    | 0x08 => do unused f.rs2; unused f.imm8; return .compl (← sIndex f.rd) (← sIndex f.rs1)
    | 0x09 => do unused f.rs1; unused f.rs2; unused f.imm8; return .zero (← sIndex f.rd)
    | 0x0A => do unused f.rs2; unused f.imm8; return .fromu (← sIndex f.rd) (← utIndex f.rs1)
    | 0x0B => do unused f.rs2; unused f.imm8; return .fromun (← sIndex f.rd) (← utIndex f.rs1)
    | 0x0C => do
      unused f.rs2; return .fromu128 (← sIndex f.rd) (← utIndex f.rs1) (← signFlag f.imm8)
    | 0x0D => do unused f.rs2; unused f.imm8; return .asi64 (← utIndex f.rd) (← sIndex f.rs1)
    | 0x0E => do unused f.rs2; unused f.imm8; return .sqrtp (← utIndex f.rd) (← utIndex f.rs1)
    | 0x0F => do unused f.rs2; unused f.imm8; return .logsp (← utIndex f.rd) (← utIndex f.rs1)
    | _ => .error .opcode

/-- The decoder: total on any 64-bit word written to CMD (30_encoding.md R80 to R87). -/
def decode (w : Word64) : Except Illegal Instr := decodeFields (fieldsOf w)

/-- The word whose fields are `f` (30_encoding.md R80, R81). -/
def CmdFields.pack (f : CmdFields) : Word64 :=
  f.high ++ (f.rsv ++ (f.imm8 ++ (f.rs2 ++ (f.rs1 ++ (f.rd ++ f.op)))))

/-- The 4-bit index field of a register. -/
def indexField {n : Nat} (k : Fin n) : BitVec 4 := BitVec.ofNat 4 k.val

/-- The fields of a command; a field its format does not use is 0 (30_encoding.md R84, R89). -/
def Instr.fields : Instr → CmdFields
  | .cmp a b => ⟨0, 0, 0, indexField b, indexField a, 0, 0x01⟩
  | .acmp a b => ⟨0, 0, 0, indexField b, indexField a, 0, 0x02⟩
  | .add d a b => ⟨0, 0, 0, indexField b, indexField a, indexField d, 0x03⟩
  | .sub d a b => ⟨0, 0, 0, indexField b, indexField a, indexField d, 0x04⟩
  | .mul d a b => ⟨0, 0, 0, indexField b, indexField a, indexField d, 0x05⟩
  | .shr d a n => ⟨0, 0, n, 0, indexField a, indexField d, 0x06⟩
  | .or d a b => ⟨0, 0, 0, indexField b, indexField a, indexField d, 0x07⟩
  | .compl d a => ⟨0, 0, 0, 0, indexField a, indexField d, 0x08⟩
  | .zero d => ⟨0, 0, 0, 0, 0, indexField d, 0x09⟩
  | .fromu d a => ⟨0, 0, 0, 0, indexField a, indexField d, 0x0A⟩
  | .fromun d a => ⟨0, 0, 0, 0, indexField a, indexField d, 0x0B⟩
  | .fromu128 d a n => ⟨0, 0, if n then 1 else 0, 0, indexField a, indexField d, 0x0C⟩
  | .asi64 d a => ⟨0, 0, 0, 0, indexField a, indexField d, 0x0D⟩
  | .sqrtp d a => ⟨0, 0, 0, 0, indexField a, indexField d, 0x0E⟩
  | .logsp d a => ⟨0, 0, 0, 0, indexField a, indexField d, 0x0F⟩

/-- The word of a command (30_encoding.md R80, R81). -/
def encode (i : Instr) : Word64 := i.fields.pack

/-- A row of the opcode map as match and mask over bits 31:0 (30_encoding.md R85). -/
structure OpcodeRow where
  mnemonic : String
  matchBits : BitVec 32
  mask : BitVec 32
  deriving DecidableEq, Repr

/-- The opcode map (30_encoding.md R85). -/
def opcodeTable : List OpcodeRow :=
  [⟨"CMP", 0x00000001, 0xFFF88FFF⟩, ⟨"ACMP", 0x00000002, 0xFFF88FFF⟩,
   ⟨"ADD", 0x00000003, 0xFFF888FF⟩, ⟨"SUB", 0x00000004, 0xFFF888FF⟩,
   ⟨"MUL", 0x00000005, 0xFFF888FF⟩, ⟨"SHR", 0x00000006, 0xF00F88FF⟩,
   ⟨"OR", 0x00000007, 0xFFF888FF⟩, ⟨"COMPL", 0x00000008, 0xFFFF88FF⟩] ++
  [⟨"ZERO", 0x00000009, 0xFFFFF8FF⟩, ⟨"FROMU", 0x0000000A, 0xFFFFC8FF⟩,
   ⟨"FROMUN", 0x0000000B, 0xFFFFC8FF⟩, ⟨"FROMU128", 0x0000000C, 0xFFEFC8FF⟩,
   ⟨"ASI64", 0x0000000D, 0xFFFF8CFF⟩, ⟨"SQRTP", 0x0000000E, 0xFFFFCCFF⟩,
   ⟨"LOGSP", 0x0000000F, 0xFFFFCCFF⟩]

/-- A word selects a row when `w[31:0] & mask = match` and `w[63:32] = 0` (30_encoding.md R85). -/
def OpcodeRow.selects (r : OpcodeRow) (w : Word64) : Bool :=
  (w.extractLsb' 0 32 &&& r.mask) == r.matchBits && w.extractLsb' 32 32 == 0#32

/-- The mnemonic of a command (30_encoding.md R85). -/
def Instr.mnemonic : Instr → String
  | .cmp .. => "CMP"
  | .acmp .. => "ACMP"
  | .add .. => "ADD"
  | .sub .. => "SUB"
  | .mul .. => "MUL"
  | .shr .. => "SHR"
  | .or .. => "OR"
  | .compl .. => "COMPL"
  | .zero .. => "ZERO"
  | .fromu .. => "FROMU"
  | .fromun .. => "FROMUN"
  | .fromu128 .. => "FROMU128"
  | .asi64 .. => "ASI64"
  | .sqrtp .. => "SQRTP"
  | .logsp .. => "LOGSP"

/-- The decoder's answer on an instruction given as a number, `nbits` bits wide, every bit above them
0; a command is one 32-bit word, so bit k of the number is bit k of the word (30_encoding.md R80). -/
def decodeTableWord (nbits w : Nat) : Option Instr :=
  match decode (BitVec.ofNat 64 (w % 2 ^ nbits)) with
  | .ok i => some i
  | .error _ => none

end Sys2Proof
end

