-- ==== Sys2Proof/Machine/Operands.lean ====
section
/-! DEFINITION. The operand values: limbs (00_scope.md R6, 40_datapath.md R113), I256 values and their
invariant (00_scope.md R8, 10_state.md R37), normalisation (40_datapath.md R112). -/

namespace Sys2Proof.Machine

/-- Limb `j` of a 256-bit value (00_scope.md R6). -/
def limb (m : U256) (j : Nat) : Word64 := m.extractLsb' (64 * j) 64

/-- The four limbs, least significant first (00_scope.md R6). -/
def toLimbs (m : U256) : List Word64 := [limb m 0, limb m 1, limb m 2, limb m 3]

/-- The value of a list of limbs, least significant first (00_scope.md R6). -/
def limbsValue : List Word64 → Nat
  | [] => 0
  | l :: ls => l.toNat + 2 ^ 64 * limbsValue ls

/-- The 256-bit value with the given limbs, least significant first (00_scope.md R6). -/
def ofLimbs (ls : List Word64) : U256 := BitVec.ofNat 256 (limbsValue ls)

/-- `m` with limb `j` replaced (`put` of 40_datapath.md R113). -/
def setLimb (m : U256) (j : Fin 4) (w : Word64) : U256 := ofLimbs ((toLimbs m).set j w)


/-- The integer value of an I256, valid or not: `val` (00_scope.md R8). -/
def valOf (a : I256) : Int := if a.neg then -(a.mag.toNat : Int) else (a.mag.toNat : Int)

/-- The canonical I256 of an integer `z` with `|z| < 2^256`: `I(z)` (00_scope.md R8). -/
def canonical (z : Int) : I256 := ⟨decide (z < 0), BitVec.ofNat 256 z.natAbs⟩

/-- `negate`, notation of the spec and no command (00_scope.md R8). -/
def negate (a : I256) : I256 := canonical (-valOf a)

/-- A valid I256 meets both parts of the invariant: bit 255 is 0, and zero is not negative
(10_state.md R37). -/
abbrev Valid (a : I256) : Prop := a.mag.toNat < 2 ^ 255 ∧ (a.mag = 0#256 → a.neg = false)

/-- Normalisation: no negative zero (40_datapath.md R112). -/
def norm (a : I256) : I256 := if a.mag = 0#256 then ⟨false, 0#256⟩ else a

end Sys2Proof.Machine
end

