-- ==== Sys2Proof/Machine/Reference.lean ====
section
/-! DEFINITION. The constants of the tick conversions: the two the spec fixes and the reference values
of the OPEN ones. -/

namespace Sys2Proof.Machine

/-- `SQRT_BASE_EVEN`, 1.0 in Q128 (46_sqrt_price.md R200). -/
def sqrtBaseEven : U256 := 0x100000000000000000000000000000000

/-- `LOG_SCALE` (47_log_price.md R220). -/
def logScale : Nat := 255738958999603826347141

/-- `MAGIC_1` to `MAGIC_10`, reference values (46_sqrt_price.md R201). -/
def referenceMagicLow : List U256 :=
  [0xfff97272373d413259a46990580e213a,
   0xfff2e50f5f656932ef12357cf3c7fdcc,
   0xffe5caca7e10e4e61c3624eaa0941cd0,
   0xffcb9843d60f6159c9db58835c926644,
   0xff973b41fa98c081472e6896dfb254c0,
   0xff2ea16466c96a3843ec78b326b52861,
   0xfe5dee046a99a2a811c461f1969c3053,
   0xfcbe86c7900a88aedcffc83b479aa3a4,
   0xf987a7253ac413176f2b074cf7815e54,
   0xf3392b0822b70005940c7a398e4b70f3]

/-- `MAGIC_11` to `MAGIC_19`, reference values (46_sqrt_price.md R201). -/
def referenceMagicHigh : List U256 :=
  [0xe7159475a2c29b7443b29c7fa6e889d9,
   0xd097f3bdfd2022b8845ad8f792aa5825,
   0xa9f746462d870fdf8a65dc1f90e061e5,
   0x70d869a156d2a1b890bb3df62baf32f7,
   0x31be135f97d08fd981231505542fcfa6,
   0x9aa508b5b7a84e1c677de54f3e99bc9,
   0x5d6af8dedb81196699c329225ee604,
   0x2216e584f5fa1ea926041bedfe98,
   0x48a170391f7dc42444e8fa2]

/-- The reference values of the OPEN constants (46_sqrt_price.md R201, 47_log_price.md R220), the
default of `SQRTP_WIDE_TICK` (R206), and the model's own choices of `HOST_BYTE_ORDER` and
`WINDOW_BASE`. PRESUMED (log 6): the reference values are general knowledge, not the source's.
DESIGN CHOICE (log 7): little-endian and base 0. -/
def referenceParams : Params where
  sqrtBaseOdd := 0xfffcb933bd6fad37aa2d162d1a594001
  magic := ⟨(referenceMagicLow ++ referenceMagicHigh).toArray, rfl⟩
  logErrLo := 3402992956809132418596140100660247210
  logErrHi := 291339464771989622907027621153398088495
  wideTick := .ignore
  byteOrder := .little
  windowBase := 0

end Sys2Proof.Machine
end

