-- ==== Sys2Proof/Machine/State.lean ====
section
/-! DEFINITION. The state of the unit and of its host interface, as plain data, and the state after reset. -/

namespace Sys2Proof.Machine

/-- The errors of 60_exceptions.md R250. `limbIndexOutOfRange` is in the table and is never raised
(40_datapath.md R113). -/
inductive AuError where
  | limbIndexOutOfRange
  | conversionOverflow
  | additionOverflow
  | subtractionOverflow
  | multiplicationOverflow
  | castOverflow
  | substrateFault
  | illegalCommand
  deriving DecidableEq, Repr

/-- The STATUS register's fields (10_state.md R35); its bits 63:6 are reserved and read as 0. -/
structure Status where
  code : BitVec 4
  fault : Bool
  busy : Bool
  deriving DecidableEq, Repr

/-- Written-ness, tracked per window word (20_memory.md R66). -/
structure Written where
  sMag : Vector (Vector Bool 4) 8
  sNeg : Vector Bool 8
  uLimb : Vector (Vector Bool 4) 4
  tWord : Vector Bool 4
  ord : Bool
  deriving DecidableEq, Repr

/-- What the host can do to the unit (20_memory.md R72): drive reset, read a window word, write a
window word (a write to CMD issues a command); and the same two accesses through a platform's
byte-addressed bridge (R63, R64). -/
inductive HostAction where
  | reset
  | read (a : WordAddr)
  | write (a : WordAddr) (w : Word64)
  | busRead (byteAddr len : Nat)
  | busWrite (byteAddr : Nat) (bytes : List Byte)
  deriving DecidableEq, Repr

/-- What the host gets back from a read (20_memory.md R72): the word, or its bytes where the read came
through a byte-addressed bridge. -/
inductive Reply where
  | word (w : Word64)
  | bytes (bs : List Byte)
  deriving DecidableEq, Repr

/-- Where the model stops because the spec gives it no value to compute with (60_exceptions.md R259).
`step` raises neither: `checkedStep` of Guard.lean does. -/
inductive Fault where
  /-- Raised by `checkedStep` where a command reads, as a source, a register that is not written
  (10_state.md R43). Safe: the run stops. -/
  | unwrittenSource
  /-- Raised by `checkedStep` where the host reads a word that is not written (20_memory.md R66).
  Safe: the run stops. -/
  | unwrittenWord
  deriving DecidableEq, Repr

/-- Where the model gives no meaning. -/
inductive Refusal where
  /-- Raised by `exec` for an instruction without a meaning; no arm is left that does. Safe. -/
  | notModelled (mnemonic : String)
  /-- Raised by `step` for a byte-addressed access of the window that is not one whole aligned 64-bit
  word (20_memory.md R63, 60_exceptions.md R259). Safe. -/
  | partialWordAccess
  /-- Raised by `step` for a byte-addressed access outside the window, which is not an access of the
  unit (20_memory.md R61). Safe. -/
  | outsideWindow
  deriving DecidableEq, Repr

/-- The state of the unit (10_state.md R31 to R35, 20_memory.md R66) and, in the last three fields, the
model's own: the host actions not yet taken (log 3), the words the host got back (log 5), and the
OPEN parameters, which no step changes (log 6). -/
structure State where
  /-- The S file (10_state.md R31). -/
  sregs : Vector I256 8
  /-- The U file (10_state.md R32). -/
  uregs : Vector U256 4
  /-- The T file (10_state.md R33). -/
  tregs : Vector I64 4
  /-- The ORD register (10_state.md R34). -/
  ord : Order
  /-- The STATUS register (10_state.md R35). -/
  status : Status
  /-- Written-ness of every register word (20_memory.md R66). -/
  written : Written
  /-- The host's script, next action first (70_reset_and_hazards.md R285). -/
  script : List HostAction
  /-- What the host's reads gave back, oldest first (20_memory.md R72). -/
  replies : List Reply
  /-- The parameters of the unit and its platform (00_scope.md R5). -/
  params : Params
  deriving DecidableEq, Repr

/-- Every word unwritten (10_state.md R44). -/
def Written.none : Written where
  sMag := Vector.replicate 8 (Vector.replicate 4 false)
  sNeg := Vector.replicate 8 false
  uLimb := Vector.replicate 4 (Vector.replicate 4 false)
  tWord := Vector.replicate 4 false
  ord := false

/-- The machine right after reset (10_state.md R44, 70_reset_and_hazards.md R280): STATUS 0, every word
unwritten, nothing for the host to do. DESIGN CHOICE (log 1): the register contents, which R44 leaves
unspecified, are zero, and ORD is LESS, whose code is 0. -/
def State.reset : State where
  sregs := Vector.replicate 8 ⟨false, 0⟩
  uregs := Vector.replicate 4 0
  tregs := Vector.replicate 4 0
  ord := .less
  status := ⟨0, false, false⟩
  written := Written.none
  script := []
  replies := []
  params := referenceParams

end Sys2Proof.Machine
end

