-- ==== Sys2Proof/Machine/Flags.lean ====
section
/-! DEFINITION. ORD and STATUS: the orders the compares compute (40_datapath.md R116, 41_compare.md),
and the window words the two registers show (10_state.md R34, R35). -/

namespace Sys2Proof.Machine

/-- The codes of ORD (10_state.md R34). -/
def orderCode : Order → BitVec 2
  | .less => 0
  | .equal => 1
  | .greater => 2

/-- `reverse` of 41_compare.md R130. -/
def reverseOrder : Order → Order
  | .less => .greater
  | .equal => .equal
  | .greater => .less

/-- Limb arrays compared from the first listed limb on; the first that differs decides
(40_datapath.md R116). -/
def lexOrder : List Word64 → List Word64 → Order
  | x :: xs, y :: ys =>
    if x.toNat < y.toNat then .less else if x.toNat > y.toNat then .greater else lexOrder xs ys
  | _, _ => .equal

/-- `ucmp`: the magnitude order, from the most significant limb down (40_datapath.md R116). -/
def ucmp (x y : U256) : Order := lexOrder (toLimbs x).reverse (toLimbs y).reverse

/-- The code of an error in STATUS.CODE (60_exceptions.md R250). -/
def errorCode : AuError → BitVec 4
  | .limbIndexOutOfRange => 1
  | .conversionOverflow => 2
  | .additionOverflow => 3
  | .subtractionOverflow => 4
  | .multiplicationOverflow => 5
  | .castOverflow => 6
  | .substrateFault => 7
  | .illegalCommand => 8

/-- The 64-bit word STATUS shows: CODE at 3:0, FAULT at 4, BUSY at 5, the rest 0 (10_state.md R35). -/
def statusWord (st : Status) : Word64 :=
  0#58 ++ (BitVec.ofBool st.busy ++ (BitVec.ofBool st.fault ++ st.code))

/-- The 64-bit word ORD shows: its code at 1:0, the rest 0 (10_state.md R34). -/
def orderWord (o : Order) : Word64 := 0#62 ++ orderCode o

end Sys2Proof.Machine
end

