-- ==== Sys2Proof/Machine/Ops.lean ====
section
/-! DEFINITION. The named operations over the state: reading and writing registers, marking words
written, taking an error and reset, and the ends a command can have. -/

namespace Sys2Proof.Machine

/-- What executing a command, or a step, answers. -/
abbrev Result := Host.Outcome State Fault Refusal

/-- All four limb words of a register written (20_memory.md R66). -/
def allWritten : Vector Bool 4 := Vector.replicate 4 true

/-- `S[k]` (10_state.md R31). -/
def State.readS (s : State) (k : SIdx) : I256 := s.sregs[k]

/-- `U[k]` (10_state.md R32). -/
def State.readU (s : State) (k : UIdx) : U256 := s.uregs[k]

/-- `T[k]` (10_state.md R33). -/
def State.readT (s : State) (k : TIdx) : I64 := s.tregs[k]

/-- A command writes `S[k]`; its five words become written (20_memory.md R66). -/
def State.writeS (s : State) (k : SIdx) (v : I256) : State :=
  { s with
    sregs := s.sregs.set k v
    written := { s.written with
      sMag := s.written.sMag.set k allWritten, sNeg := s.written.sNeg.set k true } }

/-- A command writes `U[k]`; its four words become written (20_memory.md R66). -/
def State.writeU (s : State) (k : UIdx) (v : U256) : State :=
  { s with
    uregs := s.uregs.set k v
    written := { s.written with uLimb := s.written.uLimb.set k allWritten } }

/-- A command writes `T[k]`; its word becomes written (20_memory.md R66). -/
def State.writeT (s : State) (k : TIdx) (v : I64) : State :=
  { s with
    tregs := s.tregs.set k v
    written := { s.written with tWord := s.written.tWord.set k true } }

/-- A command writes ORD, which becomes written (10_state.md R34, 20_memory.md R66). -/
def State.writeOrd (s : State) (o : Order) : State :=
  { s with ord := o, written := { s.written with ord := true } }

/-- The error action, the whole of trap entry: CODE, FAULT and BUSY, nothing else
(60_exceptions.md R252, R256). -/
def State.raise (s : State) (e : AuError) : State :=
  { s with status := { code := errorCode e, fault := true, busy := false } }

/-- Reset, the only way out of FAULTED (70_reset_and_hazards.md R280, 60_exceptions.md R257): STATUS
cleared and every word unwritten. DESIGN CHOICE (log 1): the contents, which R280 leaves undefined,
become those of `State.reset`. The host's side and the parameters stay. -/
def State.resetUnit (s : State) : State :=
  { State.reset with script := s.script, replies := s.replies, params := s.params }

/-- BUSY is 1 while a command executes (10_state.md R35). -/
def State.beginCommand (s : State) : State := { s with status := { s.status with busy := true } }

/-- BUSY is 0 once the command has ended (10_state.md R35). -/
def State.endCommand (s : State) : State := { s with status := { s.status with busy := false } }

/-- The host gets an answer back (20_memory.md R72). -/
def State.reply (s : State) (r : Reply) : State := { s with replies := s.replies ++ [r] }

/-- The host's script once an action has been taken from it. -/
def State.withScript (s : State) (acts : List HostAction) : State := { s with script := acts }

/-- Changes the state of an outcome that goes on. -/
def mapNext (f : State → State) : Result → Result
  | .next s => .next (f s)
  | .fault r => .fault r
  | .refused r => .refused r

/-- The end of a command whose destination is `S[d]`: the result is written, or the error is raised and
nothing is written (40_datapath.md R110, 60_exceptions.md R252). -/
def finishS (d : SIdx) (r : Except AuError I256) (s : State) : Result :=
  match r with
  | .ok v => .next (s.writeS d v)
  | .error e => .next (s.raise e)

/-- The end of a command whose destination is `U[d]` (40_datapath.md R110). -/
def finishU (d : UIdx) (r : Except AuError U256) (s : State) : Result :=
  match r with
  | .ok v => .next (s.writeU d v)
  | .error e => .next (s.raise e)

/-- The end of a command whose destination is `T[d]` (40_datapath.md R110). -/
def finishT (d : TIdx) (r : Except AuError I64) (s : State) : Result :=
  match r with
  | .ok v => .next (s.writeT d v)
  | .error e => .next (s.raise e)

end Sys2Proof.Machine
end

