-- ==== Sys2Proof/Machine/Window.lean ====
section
/-! DEFINITION. The host register window: its map, and the plain reads and writes of its words
(20_memory.md R61, R65, R66). Writes to CMD are in Cycle.lean. -/

namespace Sys2Proof.Machine

/-- What a word address of the window names (20_memory.md R61). -/
inductive WindowWord where
  | sMag (i : SIdx) (j : Fin 4)
  | sNeg (i : SIdx)
  | uLimb (i : UIdx) (j : Fin 4)
  | tWord (i : TIdx)
  | cmd
  | status
  | ord
  | reserved
  deriving DecidableEq, Repr

/-- The map of the window (20_memory.md R61). -/
def windowWord (a : WordAddr) : WindowWord :=
  let n := a.toNat
  if n < 0x40 then
    if n % 8 < 4 then .sMag (Fin.ofNat 8 (n / 8)) (Fin.ofNat 4 (n % 8))
    else if n % 8 = 4 then .sNeg (Fin.ofNat 8 (n / 8))
    else .reserved
  else if n < 0x50 then .uLimb (Fin.ofNat 4 ((n - 0x40) / 4)) (Fin.ofNat 4 (n % 4))
  else if n < 0x54 then .tWord (Fin.ofNat 4 (n - 0x50))
  else if n = 0x60 then .cmd
  else if n = 0x61 then .status
  else if n = 0x62 then .ord
  else .reserved

/-- The address of CMD (20_memory.md R61). -/
def cmdAddr : WordAddr := 0x60

/-- The address of STATUS (20_memory.md R61). -/
def statusAddr : WordAddr := 0x61

/-- The address of ORD (20_memory.md R61). -/
def ordAddr : WordAddr := 0x62

/-- The address of `S[i].MAG.Lj` (20_memory.md R61). -/
def sMagAddr (i : SIdx) (j : Fin 4) : WordAddr := BitVec.ofNat 8 (8 * i.val + j.val)

/-- The address of `S[i].NEG` (20_memory.md R61). -/
def sNegAddr (i : SIdx) : WordAddr := BitVec.ofNat 8 (8 * i.val + 4)

/-- The address of `U[i].Lj` (20_memory.md R61). -/
def uLimbAddr (i : UIdx) (j : Fin 4) : WordAddr := BitVec.ofNat 8 (0x40 + 4 * i.val + j.val)

/-- The address of `T[i]` (20_memory.md R61). -/
def tWordAddr (i : TIdx) : WordAddr := BitVec.ofNat 8 (0x50 + i.val)

/-- The word a host read returns: CMD and reserved addresses give 0, a NEG word its bit 0
(20_memory.md R61, R65, 10_state.md R36). -/
def State.readWord (s : State) : WindowWord → Word64
  | .sMag i j => limb (s.readS i).mag j.val
  | .sNeg i => (BitVec.ofBool (s.readS i).neg).setWidth 64
  | .uLimb i j => limb (s.readU i) j.val
  | .tWord i => s.readT i
  | .cmd => 0
  | .status => statusWord s.status
  | .ord => orderWord s.ord
  | .reserved => 0

/-- A host read of a window address (20_memory.md R62, R65). -/
def State.readWindow (s : State) (a : WordAddr) : Word64 := s.readWord (windowWord a)

/-- Stores a word the host writes and marks it written: STATUS, ORD and reserved words ignore the write,
a NEG word keeps bit 0 (20_memory.md R65, R66). CMD stores nothing (10_state.md R36). -/
def State.storeWord (s : State) (x : WindowWord) (w : Word64) : State :=
  match x with
  | .sMag i j =>
    { s with
      sregs := s.sregs.set i { s.readS i with mag := setLimb (s.readS i).mag j w }
      written := { s.written with sMag := s.written.sMag.set i (s.written.sMag[i].set j true) } }
  | .sNeg i =>
    { s with
      sregs := s.sregs.set i { s.readS i with neg := w.getLsbD 0 }
      written := { s.written with sNeg := s.written.sNeg.set i true } }
  | .uLimb i j =>
    { s with
      uregs := s.uregs.set i (setLimb (s.readU i) j w)
      written := { s.written with
        uLimb := s.written.uLimb.set i (s.written.uLimb[i].set j true) } }
  | .tWord i =>
    { s with
      tregs := s.tregs.set i w
      written := { s.written with tWord := s.written.tWord.set i true } }
  | .cmd => s
  | .status => s
  | .ord => s
  | .reserved => s

/-- Whether a window word is written. Words that hold no register are always readable
(20_memory.md R65, R66). -/
def State.wordWritten (s : State) : WindowWord → Bool
  | .sMag i j => s.written.sMag[i][j]
  | .sNeg i => s.written.sNeg[i]
  | .uLimb i j => s.written.uLimb[i][j]
  | .tWord i => s.written.tWord[i]
  | .cmd => true
  | .status => true
  | .ord => s.written.ord
  | .reserved => true

/-- `s_i` is written: all five of its words are (20_memory.md R66). -/
def State.writtenS (s : State) (i : SIdx) : Bool :=
  decide (∀ j : Fin 4, s.written.sMag[i][j] = true) && s.written.sNeg[i]

/-- `u_i` is written: all four of its words are (20_memory.md R66). -/
def State.writtenU (s : State) (i : UIdx) : Bool :=
  decide (∀ j : Fin 4, s.written.uLimb[i][j] = true)

/-- `t_i` is written (20_memory.md R66). -/
def State.writtenT (s : State) (i : TIdx) : Bool := s.written.tWord[i]

end Sys2Proof.Machine
end

