-- ==== Sys2Proof/Machine/Bridge.lean ====
section
/-! DEFINITION. A platform's byte-addressed view of the window (20_memory.md R61, R63, R64), for whole
aligned 64-bit words only. DEDUCED (log 8): word `a` stands at byte `WINDOW_BASE + 8 * a`. -/

namespace Sys2Proof.Machine

/-- The value of bytes, least significant first. -/
def bytesValue : List Byte → Nat
  | [] => 0
  | b :: bs => b.toNat + 2 ^ 8 * bytesValue bs

/-- The bytes of a word, least significant first (20_memory.md R64). -/
def wordBytes (w : Word64) : List Byte :=
  [0, 1, 2, 3, 4, 5, 6, 7].map (fun k => w.extractLsb' (8 * k) 8)

/-- Bytes as the bus carries them, lowest address first, against least significant first
(20_memory.md R64). -/
def busOrder (o : ByteOrder) (bs : List Byte) : List Byte :=
  match o with
  | .little => bs
  | .big => bs.reverse

/-- The word that eight bytes of the bus make (20_memory.md R64). -/
def busToWord (o : ByteOrder) (bs : List Byte) : Word64 := BitVec.ofNat 64 (bytesValue (busOrder o bs))

/-- The bytes of a word as the bus carries them (20_memory.md R64). -/
def wordToBus (o : ByteOrder) (w : Word64) : List Byte := busOrder o (wordBytes w)

/-- The window word a byte-addressed access names, or why it is refused: only one whole aligned 64-bit
word has a meaning (20_memory.md R61, R63). -/
def bridgeAddr (p : Params) (byteAddr len : Nat) : Except Refusal WordAddr :=
  if byteAddr < p.windowBase ∨ p.windowBase + 8 * 256 ≤ byteAddr then .error .outsideWindow
  else if (byteAddr - p.windowBase) % 8 ≠ 0 ∨ len ≠ 8 then .error .partialWordAccess
  else .ok (BitVec.ofNat 8 ((byteAddr - p.windowBase) / 8))

end Sys2Proof.Machine
end

