-- ==== Sys2Proof/Machine/Magnitude.lean ====
section
/-! DEFINITION. The magnitude primitives and the double-width accumulator, limb by limb as the spec
writes them (40_datapath.md R114 to R119). Laws/Magnitude.lean proves what each of them computes. -/

namespace Sys2Proof.Machine

/-- `get` of the limb container, over 4 or 8 limbs: an index outside them is LimbIndexOutOfRange
(40_datapath.md R113). The primitives below form constant indices only, so no command raises it. -/
def getLimb (ls : List Word64) (index : Nat) : Except AuError Word64 :=
  match ls[index]? with
  | some w => .ok w
  | none => .error .limbIndexOutOfRange

/-- `put` of the limb container (40_datapath.md R113). -/
def putLimb (ls : List Word64) (index : Nat) (w : Word64) : Except AuError (List Word64) :=
  if index < ls.length then .ok (ls.set index w) else .error .limbIndexOutOfRange

/-- Limb-wise addition with carry propagation: the limbs and the carry out (40_datapath.md R114). -/
def addCarry : List Word64 → List Word64 → Nat → List Word64 × Nat
  | x :: xs, y :: ys, c =>
    let t := x.toNat + y.toNat + c
    let rest := addCarry xs ys (t >>> 64)
    (BitVec.ofNat 64 t :: rest.1, rest.2)
  | _, _, c => ([], c)

/-- `add_without_sign` (40_datapath.md R114). -/
def addWithoutSign (x y : U256) : Except AuError U256 :=
  let sum := addCarry (toLimbs x) (toLimbs y) 0
  let r := ofLimbs sum.1
  if sum.2 ≠ 0 then .error .additionOverflow
  else if r.getLsbD 255 then .error .additionOverflow
  else .ok r

/-- Limb-wise subtraction with borrow propagation: the limbs and the borrow out (40_datapath.md R115). -/
def subBorrow : List Word64 → List Word64 → Nat → List Word64 × Nat
  | x :: xs, y :: ys, b =>
    if x.toNat < y.toNat + b then
      let rest := subBorrow xs ys 1
      (BitVec.ofNat 64 (x.toNat + 2 ^ 64 - y.toNat - b) :: rest.1, rest.2)
    else
      let rest := subBorrow xs ys 0
      (BitVec.ofNat 64 (x.toNat - y.toNat - b) :: rest.1, rest.2)
  | _, _, b => ([], b)

/-- `sub_without_sign` (40_datapath.md R115). -/
def subWithoutSign (x y : U256) : Except AuError U256 :=
  let diff := subBorrow (toLimbs x) (toLimbs y) 0
  let r := ofLimbs diff.1
  if diff.2 ≠ 0 then .error .subtractionOverflow
  else if r.getLsbD 255 then .error .subtractionOverflow
  else .ok r

/-- Bitwise NOT of each limb, then a carry propagated from the lowest; the carry out of the last limb
is dropped (40_datapath.md R117). -/
def complementLimbs : List Word64 → Nat → List Word64
  | [], _ => []
  | l :: ls, c =>
    let t := (~~~l).toNat + c
    BitVec.ofNat 64 t :: complementLimbs ls (t >>> 64)

/-- `tc`: the two's-complement conversion, which keeps the sign flag (40_datapath.md R117). -/
def tc (a : I256) : I256 :=
  if a.neg then ⟨true, ofLimbs (complementLimbs (toLimbs a.mag) 1)⟩ else ⟨false, a.mag⟩

/-- Adds `v` into limb `k` of an accumulator, the carry going into each next higher limb
(40_datapath.md R119). -/
def addAt : List Word64 → Nat → Nat → List Word64
  | [], _, _ => []
  | l :: ls, 0, v =>
    let t := l.toNat + v
    BitVec.ofNat 64 t :: addAt ls 0 (t >>> 64)
  | l :: ls, k + 1, v => l :: addAt ls k v

/-- The pairs of limb indices of the schoolbook product, in the spec's order (40_datapath.md R119). -/
def limbPairs : List (Nat × Nat) :=
  [(0, 0), (0, 1), (0, 2), (0, 3), (1, 0), (1, 1), (1, 2), (1, 3)] ++
  [(2, 0), (2, 1), (2, 2), (2, 3), (3, 0), (3, 1), (3, 2), (3, 3)]

/-- One step of the schoolbook product: the low word of the limb product into limb `i + j` and its high
word into limb `i + j + 1` (40_datapath.md R119). -/
def accumulatePair (x y : U256) (acc : List Word64) (ij : Nat × Nat) : List Word64 :=
  let p := (limb x ij.1).toNat * (limb y ij.2).toNat
  addAt (addAt acc (ij.1 + ij.2) (p % 2 ^ 64)) (ij.1 + ij.2 + 1) (p >>> 64)

/-- `dmul`: the eight limbs of the product in DI256 (40_datapath.md R119, 10_state.md R41). -/
def dmul (x y : U256) : List Word64 :=
  limbPairs.foldl (accumulatePair x y) (List.replicate 8 0)

/-- `narrow`: DI256 back to 256 bits (40_datapath.md R118). -/
def narrow (p : List Word64) : Except AuError U256 :=
  if (p.drop 4).any (· ≠ 0) then .error .multiplicationOverflow
  else if (p.getD 3 0).getLsbD 63 then .error .multiplicationOverflow
  else .ok (ofLimbs (p.take 4))

end Sys2Proof.Machine
end

