-- ==== Sys2Proof/Machine/AddSub.lean ====
section
/-! DEFINITION. The add and subtract commands (42_add_sub.md): sign dispatch onto the two magnitude
primitives. -/

namespace Sys2Proof.Machine

/-- A magnitude with its sign, normalised, or the error of the primitive that formed it
(40_datapath.md R112). -/
def withSign (neg : Bool) (m : Except AuError U256) : Except AuError I256 :=
  m.map (fun v => norm ⟨neg, v⟩)

/-- ADD's value (42_add_sub.md R140). -/
def addValue (a b : I256) : Except AuError I256 :=
  if a.neg = b.neg then withSign a.neg (addWithoutSign a.mag b.mag)
  else if ucmp a.mag b.mag ≠ .less then withSign a.neg (subWithoutSign a.mag b.mag)
  else withSign b.neg (subWithoutSign b.mag a.mag)

/-- SUB's value (42_add_sub.md R141). -/
def subValue (a b : I256) : Except AuError I256 :=
  if a.neg ≠ b.neg then withSign a.neg (addWithoutSign a.mag b.mag)
  else if ucmp a.mag b.mag ≠ .less then withSign a.neg (subWithoutSign a.mag b.mag)
  else withSign (!a.neg) (subWithoutSign b.mag a.mag)

/-- ADD (42_add_sub.md R140). -/
def execAdd (d a b : SIdx) (s : State) : Result :=
  finishS d (addValue (s.readS a) (s.readS b)) s

/-- SUB (42_add_sub.md R141). -/
def execSub (d a b : SIdx) (s : State) : Result :=
  finishS d (subValue (s.readS a) (s.readS b)) s

end Sys2Proof.Machine
end

