-- ==== Sys2Proof/Machine/Compare.lean ====
section
/-! DEFINITION. The compare commands (41_compare.md). -/

namespace Sys2Proof.Machine

/-- CMP's order: differing signs decide alone, two negatives compare by reversed magnitude
(41_compare.md R130, 90_conflicts.md C2). -/
def signedOrder (a b : I256) : Order :=
  if a.neg ≠ b.neg then (if a.neg then .less else .greater)
  else if a.neg then reverseOrder (ucmp a.mag b.mag)
  else ucmp a.mag b.mag

/-- ACMP's order: the signs are ignored (41_compare.md R131). -/
def magnitudeOrder (a b : I256) : Order := ucmp a.mag b.mag

/-- CMP (41_compare.md R130). -/
def execCmp (a b : SIdx) (s : State) : Result :=
  .next (s.writeOrd (signedOrder (s.readS a) (s.readS b)))

/-- ACMP (41_compare.md R131). -/
def execAcmp (a b : SIdx) (s : State) : Result :=
  .next (s.writeOrd (magnitudeOrder (s.readS a) (s.readS b)))

end Sys2Proof.Machine
end

