-- ==== Sys2Proof/Machine/Substrate.lean ====
section
/-! DEFINITION. The U256 and I64 substrates the conversions rely on (40_datapath.md R120, R121). -/

namespace Sys2Proof.Machine

/-- An exact integer as a U256; outside `[0, 2^256 - 1]` it is SubstrateFault (40_datapath.md R120). -/
def toU256 (z : Int) : Except AuError U256 :=
  if 0 ≤ z ∧ z < 2 ^ 256 then .ok (BitVec.ofNat 256 z.toNat) else .error .substrateFault

/-- `uadd` (40_datapath.md R120). -/
def uadd (a b : U256) : Except AuError U256 := toU256 (a.toNat + b.toNat)

/-- `usub` (40_datapath.md R120). -/
def usub (a b : U256) : Except AuError U256 := toU256 (a.toNat - b.toNat)

/-- `umul` (40_datapath.md R120). -/
def umul (a b : U256) : Except AuError U256 := toU256 (a.toNat * b.toNat)

/-- `udiv`: the quotient rounded down; a zero divisor is SubstrateFault (40_datapath.md R120). -/
def udiv (a b : U256) : Except AuError U256 :=
  if b.toNat = 0 then .error .substrateFault else .ok (BitVec.ofNat 256 (a.toNat / b.toNat))

/-- `ushr`, for shifts of 0 to 255 (40_datapath.md R120). -/
def ushr (a : U256) (n : Nat) : U256 := BitVec.ofNat 256 (a.toNat >>> n)

/-- `ushl`, for shifts of 0 to 255: bits past bit 255 are lost (40_datapath.md R120). -/
def ushl (a : U256) (n : Nat) : U256 := BitVec.ofNat 256 (a.toNat <<< n)

/-- `uxor` (40_datapath.md R120; no rule uses it). -/
def uxor (a b : U256) : U256 := a ^^^ b

/-- `max()`, the all-ones value (40_datapath.md R120). -/
def maxU256 : U256 := BitVec.ofNat 256 (2 ^ 256 - 1)

/-- `from_u64`, a zero extension (40_datapath.md R120). -/
def fromU64 (w : Word64) : U256 := w.setWidth 256

/-- `from_u128`, a zero extension (40_datapath.md R120). -/
def fromU128 (w : BitVec 128) : U256 := w.setWidth 256

/-- `ival`: the integer value of an I64 (00_scope.md R8). -/
def ival (t : I64) : Int := t.toInt

/-- The I64 of an integer; one outside `[-2^63, 2^63 - 1]` raises the error the calling command names
(40_datapath.md R121). -/
def toI64 (e : AuError) (z : Int) : Except AuError I64 :=
  if -2 ^ 63 ≤ z ∧ z ≤ 2 ^ 63 - 1 then .ok (BitVec.ofInt 64 z) else .error e

/-- `abs` (40_datapath.md R121). -/
def absI64 (e : AuError) (t : I64) : Except AuError I64 := toI64 e (ival t).natAbs

/-- `from(u64)` (40_datapath.md R121). -/
def i64From (e : AuError) (v : Word64) : Except AuError I64 := toI64 e v.toNat

/-- `neg_from(u64)` (40_datapath.md R121). -/
def i64NegFrom (e : AuError) (v : Word64) : Except AuError I64 := toI64 e (-(v.toNat : Int))

/-- `is_neg` (40_datapath.md R121). -/
def isNegI64 (t : I64) : Bool := decide (ival t < 0)

/-- `as_u64` of a non-negative I64; a negative one raises the error the caller names
(40_datapath.md R121). -/
def asU64 (e : AuError) (t : I64) : Except AuError Word64 := if isNegI64 t then .error e else .ok t

/-- `compare`, the signed order (40_datapath.md R121). -/
def compareI64 (a b : I64) : Order :=
  if ival a < ival b then .less else if ival a > ival b then .greater else .equal

end Sys2Proof.Machine
end

