-- ==== Sys2Proof/Machine/Convert.lean ====
section
/-! DEFINITION. The constructor and narrowing commands (45_convert.md). -/

namespace Sys2Proof.Machine

/-- FROMU's value (45_convert.md R181). -/
def fromUValue (u : U256) : Except AuError I256 :=
  if u.getLsbD 255 then .error .conversionOverflow else .ok (norm ⟨false, u⟩)

/-- FROMU128's value (45_convert.md R183). -/
def fromU128Value (u : U256) (isNegative : Bool) : Except AuError I256 :=
  if u.extractLsb' 128 128 ≠ 0#128 then .error .conversionOverflow
  else .ok (norm ⟨isNegative, fromU128 (u.extractLsb' 0 128)⟩)

/-- ASI64's value: limbs 1 to 3 must be zero, then the value must fit (45_convert.md R184,
90_conflicts.md C4). -/
def asI64Value (a : I256) : Except AuError I64 :=
  if a.mag.extractLsb' 64 192 ≠ 0#192 then .error .castOverflow
  else if a.neg then i64NegFrom .castOverflow (limb a.mag 0)
  else i64From .castOverflow (limb a.mag 0)

/-- ZERO (45_convert.md R180). -/
def execZero (d : SIdx) (s : State) : Result := finishS d (.ok ⟨false, 0#256⟩) s

/-- FROMU (45_convert.md R181). -/
def execFromu (d : SIdx) (a : UIdx) (s : State) : Result := finishS d (fromUValue (s.readU a)) s

/-- FROMUN: no check of bit 255 (45_convert.md R182). -/
def execFromun (d : SIdx) (a : UIdx) (s : State) : Result :=
  finishS d (.ok (norm ⟨false, s.readU a⟩)) s

/-- FROMU128 (45_convert.md R183). -/
def execFromu128 (d : SIdx) (a : UIdx) (isNegative : Bool) (s : State) : Result :=
  finishS d (fromU128Value (s.readU a) isNegative) s

/-- ASI64 (45_convert.md R184). -/
def execAsi64 (d : TIdx) (a : SIdx) (s : State) : Result := finishT d (asI64Value (s.readS a)) s

end Sys2Proof.Machine
end

