-- ==== Sys2Proof/Machine/Mul.lean ====
section
/-! DEFINITION. The multiply command (43_mul.md). -/

namespace Sys2Proof.Machine

/-- MUL's value: the product in DI256, narrowed; the sign is the exclusive or (43_mul.md R150). -/
def mulValue (a b : I256) : Except AuError I256 :=
  withSign (a.neg ^^ b.neg) (narrow (dmul a.mag b.mag))

/-- MUL (43_mul.md R150). -/
def execMul (d a b : SIdx) (s : State) : Result :=
  finishS d (mulValue (s.readS a) (s.readS b)) s

end Sys2Proof.Machine
end

