-- ==== Sys2Proof/Machine/ShiftOr.lean ====
section
/-! DEFINITION. The shift, OR and complement commands (44_shift_or_complement.md), on two's-complement
patterns. -/

namespace Sys2Proof.Machine

/-- Limb `j` of a logical right shift by `n`: no limb index outside `[0, 4)` is formed
(44_shift_or_complement.md R160, 90_conflicts.md C5). -/
def shiftedLimb (p : U256) (n j : Nat) : Word64 :=
  let k := n / 64
  let b := n % 64
  let lo := if j + k ≤ 3 then (limb p (j + k)).toNat else 0
  let hi := if j + k + 1 ≤ 3 ∧ b ≠ 0 then (limb p (j + k + 1)).toNat else 0
  BitVec.ofNat 64 ((lo >>> b) ||| (hi <<< (64 - b)))

/-- The logical right shift of a pattern, limb by limb (44_shift_or_complement.md R160). -/
def shiftLimbs (p : U256) (n : Nat) : U256 := ofLimbs ([0, 1, 2, 3].map (shiftedLimb p n))

/-- `MASK(s)`: ones in the `s` vacated high bits (44_shift_or_complement.md R160). -/
def fillMask (n : Nat) : U256 := BitVec.ofNat 256 ((2 ^ n - 1) <<< (256 - n))

/-- SHR's value (44_shift_or_complement.md R160). -/
def shrValue (a : I256) (n : Nat) : I256 :=
  let p := tc a
  let q := shiftLimbs p.mag n
  norm (tc ⟨p.neg, if p.neg then q ||| fillMask n else q⟩)

/-- OR's value (44_shift_or_complement.md R161). -/
def orValue (a b : I256) : I256 :=
  let pa := tc a
  let pb := tc b
  norm (tc ⟨pa.neg || pb.neg,
    ofLimbs (List.zipWith (· ||| ·) (toLimbs pa.mag) (toLimbs pb.mag))⟩)

/-- COMPL's value (44_shift_or_complement.md R162). -/
def complValue (a : I256) : I256 := norm (tc a)

/-- SHR (44_shift_or_complement.md R160). -/
def execShr (d a : SIdx) (shift : BitVec 8) (s : State) : Result :=
  finishS d (.ok (shrValue (s.readS a) shift.toNat)) s

/-- OR (44_shift_or_complement.md R161). -/
def execOr (d a b : SIdx) (s : State) : Result :=
  finishS d (.ok (orValue (s.readS a) (s.readS b))) s

/-- COMPL (44_shift_or_complement.md R162). -/
def execCompl (d a : SIdx) (s : State) : Result :=
  finishS d (.ok (complValue (s.readS a))) s

end Sys2Proof.Machine
end

