-- ==== Sys2Proof/Machine/SqrtPrice.lean ====
section
/-! DEFINITION. The tick to sqrt-price command (46_sqrt_price.md). -/

namespace Sys2Proof.Machine

/-- The multiply rounds for the bits of `at` from index `k` on, one constant a bit
(46_sqrt_price.md R202). -/
def sqrtRounds (tickAbs : Nat) : List U256 → Nat → U256 → Except AuError U256
  | [], _, acc => .ok acc
  | c :: cs, k, acc =>
    if tickAbs.testBit k then do
      let p ← umul acc c
      sqrtRounds tickAbs cs (k + 1) (ushr p 128)
    else sqrtRounds tickAbs cs (k + 1) acc

/-- The inversion for a tick that is not negative (46_sqrt_price.md R202). -/
def sqrtRatio (t : I64) (acc : U256) : Except AuError U256 :=
  if ival t ≥ 0 then udiv maxU256 acc else .ok acc

/-- The final step: from Q128 to Q96, rounded up (46_sqrt_price.md R202, R205, 90_conflicts.md C12). -/
def ceilShift32 (acc : U256) : Except AuError U256 :=
  if acc.extractLsb' 0 32 ≠ 0#32 then uadd (ushr acc 32) 1#256 else .ok (ushr acc 32)

/-- SQRTP's value (46_sqrt_price.md R202), with the parameters as an argument (R200, R206). -/
def sqrtPrice (p : Params) (t : I64) : Except AuError U256 := do
  let magnitude ← absI64 .substrateFault t
  let tickAbs ← asU64 .substrateFault magnitude
  if p.wideTick = .fault ∧ tickAbs.toNat ≥ 2 ^ 20 then .error .substrateFault
  else do
    let start := if tickAbs.toNat.testBit 0 then p.sqrtBaseOdd else sqrtBaseEven
    let acc ← sqrtRounds tickAbs.toNat p.magic.toList 1 start
    let ratio ← sqrtRatio t acc
    ceilShift32 ratio

/-- SQRTP (46_sqrt_price.md R202). -/
def execSqrtp (d : UIdx) (a : TIdx) (s : State) : Result :=
  finishU d (sqrtPrice s.params (s.readT a)) s

end Sys2Proof.Machine
end

