-- ==== Sys2Proof/Machine/LogPrice.lean ====
section
/-! DEFINITION. The sqrt-price to tick command (47_log_price.md), step by step as R222 to R228 give it. -/

namespace Sys2Proof.Machine

/-- The working value (47_log_price.md R222). -/
def stepShift (price : U256) : U256 := ushl price 32

/-- The seven threshold rounds, for the offsets `2^k` of the listed `k` (47_log_price.md R223). -/
def msbRounds : List Nat → U256 → BitVec 8 → U256 × BitVec 8
  | [], x, m => (x, m)
  | k :: ks, x, m =>
    if x.toNat > 2 ^ 2 ^ k - 1 then msbRounds ks (ushr x (2 ^ k)) (m ||| BitVec.ofNat 8 (2 ^ k))
    else msbRounds ks x m

/-- The exponent (47_log_price.md R223, 90_conflicts.md C7). -/
def stepMsb (x0 : U256) : BitVec 8 :=
  let r := msbRounds [7, 6, 5, 4, 3, 2, 1] x0 0#8
  if r.1.toNat > 1 then r.2 ||| 1#8 else r.2

/-- Normalisation of the working value and the seed of the logarithm (47_log_price.md R224). -/
def stepSeed (x0 : U256) (m : BitVec 8) : U256 × I256 :=
  let e := m.toNat
  if e ≥ 128 then (ushr x0 (e - 127), canonical (((e - 128) <<< 64 : Nat) : Int))
  else (ushl x0 (127 - e), canonical (-(((128 - e) <<< 64 : Nat) : Int)))

/-- The wrapped shift: by 255 while the amount exceeds a byte, then by the rest
(47_log_price.md R225). `sh / 255` turns are always enough. -/
def wrappedShift : Nat → U256 → Nat → U256
  | 0, x, sh => ushr x sh
  | turns + 1, x, sh => if sh > 255 then wrappedShift turns (ushr x 255) (sh - 255) else ushr x sh

/-- The square step every refinement starts with: the new `x`, bit 128 of it, and `l2` with that bit at
the offset (47_log_price.md R225, R226, 90_conflicts.md C11). -/
def squareStep (x : U256) (l2 : I256) (off : Nat) : Except AuError (U256 × U256 × I256) := do
  let sq ← umul x x
  let x' := ushr sq 127
  let y := ushr x' 128
  return (x', y, orValue l2 (canonical ((y.toNat <<< off : Nat) : Int)))

/-- The refinement rounds at the listed offsets (47_log_price.md R225). -/
def stepRounds : List Nat → U256 → I256 → Except AuError (U256 × I256)
  | [], x, l2 => .ok (x, l2)
  | off :: offs, x, l2 => do
    let r ← squareStep x l2 off
    stepRounds offs (wrappedShift (r.2.1.toNat / 255) r.1 r.2.1.toNat) r.2.2

/-- The offsets of the 13 refinement rounds (47_log_price.md R225). -/
def roundOffsets : List Nat := [63, 62, 61, 60, 59, 58, 57, 56, 55, 54, 53, 52, 51]

/-- The last round, at offset 50; `x` is read by nothing after it (47_log_price.md R226). -/
def stepLast (x : U256) (l2 : I256) : Except AuError I256 := do
  let r ← squareStep x l2 50
  return r.2.2

/-- The lower bound from the scaled logarithm (47_log_price.md R227). -/
def lowerBound (p : Params) (ls : I256) : Except AuError I64 := do
  let d ← subValue ls (canonical (p.logErrLo.toNat : Int))
  asI64Value (shrValue d 128)

/-- The upper bound from the scaled logarithm (47_log_price.md R227). -/
def upperBound (p : Params) (ls : I256) : Except AuError I64 := do
  let d ← addValue ls (canonical (p.logErrHi.toNat : Int))
  asI64Value (shrValue d 128)

/-- The scaled logarithm (47_log_price.md R227). -/
def scaleLog (l2 : I256) : Except AuError I256 := mulValue l2 (canonical (logScale : Int))

/-- The pick between the bounds; the tie-break runs the whole of SQRTP's computation on the upper one
(47_log_price.md R228). -/
def stepPick (p : Params) (lo hi : I64) (price : U256) : Except AuError I64 :=
  if lo = hi then .ok lo
  else do
    let pHi ← sqrtPrice p hi
    return if ucmp pHi price ≠ .greater then hi else lo

/-- The logarithm after the last round, `l2` of R226 (47_log_price.md R222 to R226). -/
def logTwo (price : U256) : Except AuError I256 := do
  let x0 := stepShift price
  let seed := stepSeed x0 (stepMsb x0)
  let r ← stepRounds roundOffsets seed.1 seed.2
  stepLast r.1 r.2

/-- The two bounds of a price, the lower one first (47_log_price.md R222 to R227). -/
def logBounds (p : Params) (price : U256) : Except AuError (I64 × I64) := do
  let l2 ← logTwo price
  let ls ← scaleLog l2
  let lo ← lowerBound p ls
  let hi ← upperBound p ls
  return (lo, hi)

/-- LOGSP's value (47_log_price.md R221), with the parameters as an argument. -/
def logPrice (p : Params) (price : U256) : Except AuError I64 := do
  let b ← logBounds p price
  stepPick p b.1 b.2 price

/-- LOGSP (47_log_price.md R221). -/
def execLogsp (d : TIdx) (a : UIdx) (s : State) : Result :=
  finishT d (logPrice s.params (s.readU a)) s

end Sys2Proof.Machine
end

