-- ==== Sys2Proof/Machine/Dispatch.lean ====
section
/-! DEFINITION. The one dispatch: each command to its meaning. -/

namespace Sys2Proof.Machine

/-- Executes a command that the command cycle has decoded (40_datapath.md R110). -/
def exec (i : Instr) (s : State) : Host.Outcome State Fault Refusal :=
  match i with
  | .cmp a b => Sys2Proof.Machine.execCmp a b s
  | .acmp a b => Sys2Proof.Machine.execAcmp a b s
  | .add d a b => Sys2Proof.Machine.execAdd d a b s
  | .sub d a b => Sys2Proof.Machine.execSub d a b s
  | .mul d a b => Sys2Proof.Machine.execMul d a b s
  | .shr d a shift => Sys2Proof.Machine.execShr d a shift s
  | .or d a b => Sys2Proof.Machine.execOr d a b s
  | .compl d a => Sys2Proof.Machine.execCompl d a s
  | .zero d => Sys2Proof.Machine.execZero d s
  | .fromu d a => Sys2Proof.Machine.execFromu d a s
  | .fromun d a => Sys2Proof.Machine.execFromun d a s
  | .fromu128 d a isNegative => Sys2Proof.Machine.execFromu128 d a isNegative s
  | .asi64 d a => Sys2Proof.Machine.execAsi64 d a s
  | .sqrtp d a => Sys2Proof.Machine.execSqrtp d a s
  | .logsp d a => Sys2Proof.Machine.execLogsp d a s

end Sys2Proof.Machine
end

