-- ==== Sys2Proof/Machine/Cycle.lean ====
section
/-! DEFINITION. The command cycle (40_datapath.md R110) and the host's actions (20_memory.md R72). -/

namespace Sys2Proof.Machine

/-- The command cycle on a write of `w` to CMD, its checks in the order of 60_exceptions.md R254:
ignored while FAULTED (10_state.md R45), IllegalCommand before any register is read
(30_encoding.md R86), then the command, with BUSY 1 while it executes (10_state.md R35). -/
def commandCycle (w : Word64) (s : State) : Result :=
  if s.status.fault then .next s
  else
    match decode w with
    | .error _ => .next (s.raise .illegalCommand)
    | .ok i => mapNext State.endCommand (exec i s.beginCommand)

/-- A host write of a window word: CMD issues a command, every other address stores its word or ignores
it (20_memory.md R65). -/
def writeAccess (a : WordAddr) (w : Word64) (s : State) : Result :=
  match windowWord a with
  | .cmd => commandCycle w s
  | x => .next (s.storeWord x w)

/-- One action of the host (20_memory.md R72). -/
def performAction (act : HostAction) (s : State) : Result :=
  match act with
  | .reset => .next s.resetUnit
  | .read a => .next (s.reply (.word (s.readWindow a)))
  | .write a w => writeAccess a w s
  | .busRead byteAddr len =>
    match bridgeAddr s.params byteAddr len with
    | .ok a => .next (s.reply (.bytes (wordToBus s.params.byteOrder (s.readWindow a))))
    | .error r => .refused r
  | .busWrite byteAddr bytes =>
    match bridgeAddr s.params byteAddr bytes.length with
    | .ok a => writeAccess a (busToWord s.params.byteOrder bytes) s
    | .error r => .refused r

/-- Takes the next action of the script; with none left the unit is idle and keeps every register
(60_exceptions.md R266, 70_reset_and_hazards.md R281). -/
def nextAction (s : State) : Result :=
  match s.script with
  | [] => .next s
  | act :: rest => performAction act (s.withScript rest)

/-- Places the write of a word to CMD as the host's next action. -/
def placeCommand (w : Word64) (s : State) : State := s.withScript (.write cmdAddr w :: s.script)

end Sys2Proof.Machine
end

