-- ==== Sys2Proof/Machine/Step.lean ====
section
/-! DEFINITION. One step of the machine: one action of the host, taken to completion
(20_memory.md R67, 70_reset_and_hazards.md R283). -/

namespace Sys2Proof.Machine

/-- One step. DESIGN CHOICE (log 3): the unit fetches nothing (20_memory.md R70), so the step takes the
host's next action, a command write among them. -/
def step (s : State) : Host.Outcome State Fault Refusal := nextAction s

/-- `s` with the command word `w` (a number of `nbits` bits, the bits above them 0) written to CMD by
the host's next action, ahead of whatever the script holds (log 4). -/
def State.withFetchWord (s : State) (nbits w : Nat) : State :=
  placeCommand (BitVec.ofNat 64 (w % 2 ^ nbits)) s

end Sys2Proof.Machine
end

