-- ==== Sys2Proof/Machine/Guard.lean ====
section
/-! DEFINITION. The model faults of 60_exceptions.md R259: which host actions read something that is not
written (10_state.md R43, 20_memory.md R66), and the step that stops on them. -/

namespace Sys2Proof.Machine

/-- Every register the command reads as a source is written (30_encoding.md R84, 20_memory.md R66). -/
def State.sourcesWritten (s : State) : Instr → Bool
  | .cmp a b => s.writtenS a && s.writtenS b
  | .acmp a b => s.writtenS a && s.writtenS b
  | .add _ a b => s.writtenS a && s.writtenS b
  | .sub _ a b => s.writtenS a && s.writtenS b
  | .mul _ a b => s.writtenS a && s.writtenS b
  | .shr _ a _ => s.writtenS a
  | .or _ a b => s.writtenS a && s.writtenS b
  | .compl _ a => s.writtenS a
  | .zero _ => true
  | .fromu _ a => s.writtenU a
  | .fromun _ a => s.writtenU a
  | .fromu128 _ a _ => s.writtenU a
  | .asi64 _ a => s.writtenS a
  | .sqrtp _ a => s.writtenT a
  | .logsp _ a => s.writtenU a

/-- The model fault of a host write: one to CMD, while not FAULTED, of a legal command with a source
that is not written (60_exceptions.md R254, R259). -/
def writeFault (a : WordAddr) (w : Word64) (s : State) : Option Fault :=
  if windowWord a = .cmd ∧ s.status.fault = false then
    match decode w with
    | .ok i => if s.sourcesWritten i then none else some .unwrittenSource
    | .error _ => none
  else none

/-- The model fault of a host read: one of a word that is not written (20_memory.md R66). -/
def readFault (a : WordAddr) (s : State) : Option Fault :=
  if s.wordWritten (windowWord a) then none else some .unwrittenWord

/-- The model fault of a host action, if it has one (60_exceptions.md R259). -/
def actionFault (act : HostAction) (s : State) : Option Fault :=
  match act with
  | .reset => none
  | .read a => readFault a s
  | .write a w => writeFault a w s
  | .busRead byteAddr len =>
    match bridgeAddr s.params byteAddr len with
    | .ok a => readFault a s
    | .error _ => none
  | .busWrite byteAddr bytes =>
    match bridgeAddr s.params byteAddr bytes.length with
    | .ok a => writeFault a (busToWord s.params.byteOrder bytes) s
    | .error _ => none

/-- The model fault the next step would meet (60_exceptions.md R259). -/
def modelFault (s : State) : Option Fault :=
  match s.script with
  | [] => none
  | act :: _ => actionFault act s

/-- The step of the spec's own model, which stops where something that is not written is read
(10_state.md R43, 20_memory.md R66, 60_exceptions.md R259). Elsewhere it is `step` (log 2). -/
def checkedStep (s : State) : Result :=
  match modelFault s with
  | some f => .fault f
  | none => step s

end Sys2Proof.Machine
end

