-- ==== Sys2Proof/Machine/Notation.lean ====
section
/-! DEFINITION. The spec's notation over commands and host actions: assembler syntax
(30_encoding.md R89), pseudo-instructions (R90) and the host script (R91). -/

namespace Sys2Proof.Machine

/-- A decimal digit. -/
def digit (n : Nat) : String :=
  ["0", "1", "2", "3", "4", "5", "6", "7", "8", "9"].getD n "?"

/-- A number below 1000 in decimal. -/
def decimal (n : Nat) : String :=
  if n < 10 then digit n
  else if n < 100 then digit (n / 10) ++ digit (n % 10)
  else digit (n / 100) ++ digit (n / 10 % 10) ++ digit (n % 10)

/-- A register name, such as `s2` (30_encoding.md R89). -/
def regName {n : Nat} (file : String) (k : Fin n) : String := file ++ digit k.val

/-- The assembler syntax of a command, destination first (30_encoding.md R89). -/
def asm : Instr → String
  | .cmp a b => "cmp " ++ regName "s" a ++ ", " ++ regName "s" b
  | .acmp a b => "acmp " ++ regName "s" a ++ ", " ++ regName "s" b
  | .add d a b => "add " ++ regName "s" d ++ ", " ++ regName "s" a ++ ", " ++ regName "s" b
  | .sub d a b => "sub " ++ regName "s" d ++ ", " ++ regName "s" a ++ ", " ++ regName "s" b
  | .mul d a b => "mul " ++ regName "s" d ++ ", " ++ regName "s" a ++ ", " ++ regName "s" b
  | .shr d a n => "shr " ++ regName "s" d ++ ", " ++ regName "s" a ++ ", #" ++ decimal n.toNat
  | .or d a b => "or " ++ regName "s" d ++ ", " ++ regName "s" a ++ ", " ++ regName "s" b
  | .compl d a => "compl " ++ regName "s" d ++ ", " ++ regName "s" a
  | .zero d => "zero " ++ regName "s" d
  | .fromu d a => "fromu " ++ regName "s" d ++ ", " ++ regName "u" a
  | .fromun d a => "fromun " ++ regName "s" d ++ ", " ++ regName "u" a
  | .fromu128 d a n =>
    "fromu128 " ++ regName "s" d ++ ", " ++ regName "u" a ++ (if n then ", neg" else ", pos")
  | .asi64 d a => "asi64 " ++ regName "t" d ++ ", " ++ regName "s" a
  | .sqrtp d a => "sqrtp " ++ regName "u" d ++ ", " ++ regName "t" a
  | .logsp d a => "logsp " ++ regName "t" d ++ ", " ++ regName "u" a

/-- The pseudo-instructions (30_encoding.md R90). -/
inductive Pseudo where
  | mov (d a : SIdx)
  | neg (d a : SIdx)
  | clr (d : SIdx)
  deriving DecidableEq, Repr

/-- Their expansion; `neg` with both registers the same is illegal in the assembler
(30_encoding.md R90). -/
def expandPseudo : Pseudo → Option (List Instr)
  | .mov d a => some [.or d a a]
  | .neg d a => if d = a then none else some [.zero d, .sub d d a]
  | .clr d => some [.zero d]

/-- `C <command>`: the command word written to CMD (30_encoding.md R91). -/
def issue (i : Instr) : HostAction := .write cmdAddr (encode i)

/-- `W sK := (n, m)`: four MAG limbs and the NEG word (30_encoding.md R91). -/
def hostWriteS (k : SIdx) (v : I256) : List HostAction :=
  [.write (sMagAddr k 0) (limb v.mag 0), .write (sMagAddr k 1) (limb v.mag 1),
   .write (sMagAddr k 2) (limb v.mag 2), .write (sMagAddr k 3) (limb v.mag 3),
   .write (sNegAddr k) ((BitVec.ofBool v.neg).setWidth 64)]

/-- `W uK := z` (30_encoding.md R91). -/
def hostWriteU (k : UIdx) (v : U256) : List HostAction :=
  [.write (uLimbAddr k 0) (limb v 0), .write (uLimbAddr k 1) (limb v 1),
   .write (uLimbAddr k 2) (limb v 2), .write (uLimbAddr k 3) (limb v 3)]

/-- `W tK := z` (30_encoding.md R91). -/
def hostWriteT (k : TIdx) (v : I64) : List HostAction := [.write (tWordAddr k) v]

/-- `R sK` (30_encoding.md R91). -/
def hostReadS (k : SIdx) : List HostAction :=
  [.read (sMagAddr k 0), .read (sMagAddr k 1), .read (sMagAddr k 2), .read (sMagAddr k 3),
   .read (sNegAddr k)]

/-- `R uK` (30_encoding.md R91). -/
def hostReadU (k : UIdx) : List HostAction :=
  [.read (uLimbAddr k 0), .read (uLimbAddr k 1), .read (uLimbAddr k 2), .read (uLimbAddr k 3)]

/-- `R tK` (30_encoding.md R91). -/
def hostReadT (k : TIdx) : List HostAction := [.read (tWordAddr k)]

end Sys2Proof.Machine
end

