-- ==== Sys2Proof/Machine/Run.lean ====
section
/-! DEFINITION. A run of a host script and what is observed at its end (70_reset_and_hazards.md R285). -/

namespace Sys2Proof.Machine

/-- `n` checked steps, stopping at the first model fault or refusal (60_exceptions.md R259). -/
def runSteps : Nat → State → Result
  | 0, s => .next s
  | n + 1, s =>
    match checkedStep s with
    | .next t => runSteps n t
    | .fault r => .fault r
    | .refused r => .refused r

/-- A run: the script taken from just after reset, to its last action. A run that reaches a model fault
ends in it and has no end state (70_reset_and_hazards.md R285). -/
def runScript (p : Params) (acts : List HostAction) : Result :=
  runSteps acts.length { State.reset with script := acts, params := p }

/-- The observation of a run (70_reset_and_hazards.md R285). -/
structure Observation where
  /-- every register word written, with its value -/
  words : List (WordAddr × Word64)
  /-- ORD, if written -/
  ord : Option Order
  code : BitVec 4
  fault : Bool
  deriving DecidableEq, Repr

/-- The addresses of the register words, reserved ones among them (20_memory.md R61). -/
def registerAddrs : List WordAddr := (List.range 0x54).map (BitVec.ofNat 8)

/-- Whether an address names a word of a register file. -/
def isRegisterWord : WindowWord → Bool
  | .sMag .. => true
  | .sNeg _ => true
  | .uLimb .. => true
  | .tWord _ => true
  | .cmd => false
  | .status => false
  | .ord => false
  | .reserved => false

/-- What is observed of a state at the end of a run. DEDUCED (log 12): a word counts as written when it
is written at the end, so a reset inside the run takes earlier writes away. -/
def observe (s : State) : Observation where
  words := (registerAddrs.filter (fun a => isRegisterWord (windowWord a) && s.wordWritten (windowWord a))).map
    (fun a => (a, s.readWindow a))
  ord := if s.written.ord then some s.ord else none
  code := s.status.code
  fault := s.status.fault

/-- The observation of a run, none where the run has no end state (70_reset_and_hazards.md R285). -/
def runObservation (p : Params) (acts : List HostAction) : Option Observation :=
  match runScript p acts with
  | .next s => some (observe s)
  | .fault _ => none
  | .refused _ => none

end Sys2Proof.Machine
end

