-- ==== Sys2Proof/Safety.lean ====
section
/-! DEFINITION. What counts as a safe run, in the terms claims use: a step that meets no
model fault (10_state.md R43), the invariant of STATUS, the bounds of the OPEN constants, and states that agree on
every written word. -/

namespace Sys2Proof.Safety

open Sys2Proof.Machine

/-- The next step reads nothing unwritten, so the register contents the model chose at reset are not
read (log 1, log 2). -/
abbrev SafeStep (s : State) : Prop := modelFault s = none

/-- STATUS as the spec says it reads between steps: FAULT is 1 exactly when CODE is not 0, CODE is
neither 1 nor 9 to 15, and BUSY is 0 (10_state.md R35, 40_datapath.md R113, 60_exceptions.md R250). -/
abbrev StatusOk (s : State) : Prop :=
  (s.status.fault = true ↔ s.status.code ≠ 0#4) ∧ s.status.code ≠ 1#4 ∧ s.status.code.toNat ≤ 8 ∧
    s.status.busy = false

/-- Every S register holds a valid I256 (10_state.md R37). -/
abbrev AllValid (s : State) : Prop := ∀ k : SIdx, Valid (s.readS k)

/-- No S register holds negative zero (10_state.md R37 part (b)). -/
abbrev NoNegativeZero (s : State) : Prop := ∀ k : SIdx, s.readS k ≠ ⟨true, 0#256⟩

/-- The bounds the spec puts on the OPEN constants (46_sqrt_price.md R200, 47_log_price.md R220). -/
abbrev ConstantsInRange (p : Params) : Prop :=
  p.sqrtBaseOdd.toNat ≤ 2 ^ 128 ∧ (∀ k : Fin 19, p.magic[k].toNat < 2 ^ 128) ∧
    p.logErrLo.toNat < 2 ^ 128 ∧ p.logErrHi.toNat < 2 ^ 128

/-- The OPEN constants at their reference values, whatever the other parameters
(46_sqrt_price.md R201, 47_log_price.md R220). -/
abbrev ReferenceConstants (p : Params) : Prop :=
  p.sqrtBaseOdd = referenceParams.sqrtBaseOdd ∧ p.magic = referenceParams.magic ∧
    p.logErrLo = referenceParams.logErrLo ∧ p.logErrHi = referenceParams.logErrHi

/-- Two states alike but for the contents of words that are not written. -/
abbrev AgreeOnWritten (s t : State) : Prop :=
  s.written = t.written ∧ s.status = t.status ∧ s.script = t.script ∧ s.replies = t.replies ∧
    s.params = t.params ∧ ∀ a : WordAddr, s.wordWritten (windowWord a) = true → s.readWindow a = t.readWindow a

/-- Two outcomes alike but for the contents of words that are not written. -/
abbrev AgreeOutcome (x y : Result) : Prop :=
  (∃ s t, x = .next s ∧ y = .next t ∧ AgreeOnWritten s t) ∨ (∃ f, x = .fault f ∧ y = .fault f) ∨
    (∃ r, x = .refused r ∧ y = .refused r)

/-- How a command is encoded, selected and written down: its fields, its row of the opcode map and its
assembler text (30_encoding.md R81, R84, R85, R89). -/
abbrev EncodedAs (i : Instr) (f : CmdFields) (row : OpcodeRow) (text : String) : Prop :=
  fieldsOf (encode i) = f ∧ row ∈ opcodeTable ∧ i.mnemonic = row.mnemonic ∧ asm i = text

/-- The order of two whole numbers. -/
def natOrder (x y : Nat) : Order := if x < y then .less else if y < x then .greater else .equal

/-- The order of two integers. -/
def intOrder (x y : Int) : Order := if x < y then .less else if y < x then .greater else .equal

/-- The two's-complement pattern of an I256 (00_scope.md R10). -/
def patternOf (a : I256) : U256 := if a.neg then BitVec.ofNat 256 (2 ^ 256 - a.mag.toNat) else a.mag

/-- The destination, for the commands that write the S file (30_encoding.md R84). -/
def destS : Instr → Option SIdx
  | .add d _ _ => some d
  | .sub d _ _ => some d
  | .mul d _ _ => some d
  | .shr d _ _ => some d
  | .or d _ _ => some d
  | .compl d _ => some d
  | .zero d => some d
  | .fromu d _ => some d
  | .fromun d _ => some d
  | .fromu128 d _ _ => some d
  | .cmp _ _ => none
  | .acmp _ _ => none
  | .asi64 _ _ => none
  | .sqrtp _ _ => none
  | .logsp _ _ => none

/-- Whether a window word belongs to `s_d` (20_memory.md R61). -/
def ofS (d : SIdx) : WindowWord → Bool
  | .sMag i _ => i == d
  | .sNeg i => i == d
  | .uLimb _ _ => false
  | .tWord _ => false
  | .cmd => false
  | .status => false
  | .ord => false
  | .reserved => false

/-- Whether a window word belongs to `u_d` (20_memory.md R61). -/
def ofU (d : UIdx) : WindowWord → Bool
  | .sMag _ _ => false
  | .sNeg _ => false
  | .uLimb i _ => i == d
  | .tWord _ => false
  | .cmd => false
  | .status => false
  | .ord => false
  | .reserved => false

/-- What a command changes besides its destination: the host's side, the parameters, and every window
word but STATUS and those `own` names stay, written-ness included; STATUS stays, or an error is raised
and the `own` words stay too. -/
abbrev Framed (own : WindowWord → Bool) (s t : State) : Prop :=
  t.script = s.script ∧ t.replies = s.replies ∧ t.params = s.params ∧
    (∀ x, own x = false → t.wordWritten x = s.wordWritten x) ∧
    (∀ x, own x = false → x ≠ .status → t.readWord x = s.readWord x) ∧
    (t.status = s.status ∨
      ∃ e, t.status = ⟨errorCode e, true, false⟩ ∧ ∀ x, x ≠ .status →
        t.wordWritten x = s.wordWritten x ∧ t.readWord x = s.readWord x)

/-- SQRTP's accumulator after the multiply rounds, in whole numbers (46_sqrt_price.md R202). -/
def sqrtAccumulator (p : Params) (tickAbs : Nat) : Nat :=
  (List.finRange 19).foldl
    (fun acc k => if tickAbs.testBit (k.val + 1) then acc * p.magic[k].toNat / 2 ^ 128 else acc)
    (if tickAbs.testBit 0 then p.sqrtBaseOdd.toNat else 2 ^ 128)

/-- The bits LOGSP's rounds at the listed offsets add to the logarithm, in whole numbers, from a working
value `x`: each round squares, takes bit 128 as its bit and halves where it is set
(47_log_price.md R225, R226). -/
def logBits : List Nat → Nat → Nat
  | [], _ => 0
  | off :: offs, x =>
    let x' := x * x / 2 ^ 127
    let y := x' / 2 ^ 128
    y * 2 ^ off + logBits offs (x' / 2 ^ y)

/-- LOGSP's logarithm of a price, Q64, in whole numbers: the price times `2^32` without its bits above
255, the exponent, the normalised value, and one round at each offset from 63 down to 50
(47_log_price.md R222 to R226). -/
def logFixed (price : Nat) : Int :=
  let x0 := price * 2 ^ 32 % 2 ^ 256
  let m := Nat.log2 x0
  let x := if 128 ≤ m then x0 / 2 ^ (m - 127) else x0 * 2 ^ (127 - m)
  ((m : Int) - 128) * 2 ^ 64 +
    logBits [63, 62, 61, 60, 59, 58, 57, 56, 55, 54, 53, 52, 51, 50] x

/-- A quotient by `2^32` rounded up (46_sqrt_price.md R202, 90_conflicts.md C12). -/
def ceil32 (n : Nat) : Nat := (n + (2 ^ 32 - 1)) / 2 ^ 32

end Sys2Proof.Safety
end

