-- ==== Sys2Proof/Certificates/Slice0/Obligations.lean ====
section
/-! DEFINITION. The statements for the provers. -/

open Sys2Proof Sys2Proof.Machine Sys2Proof.Safety

/-! Encoding (30_encoding.md). -/

/-- Command words written out by hand from 30_encoding.md R81 and R85 decode to the commands they stand
for (95_test_vectors.md V-DEC gives nine of them). -/
def Obligations.HandWrittenWordsDecode : Prop :=
  decode 0x00042001 = .ok (.cmp 2 4) ∧ decode 0x00021002 = .ok (.acmp 1 2) ∧
  decode 0x00010203 = .ok (.add 2 0 1) ∧ decode 0x00001404 = .ok (.sub 4 1 0) ∧
  decode 0x00075605 = .ok (.mul 6 5 7) ∧ decode 0x0FF02306 = .ok (.shr 3 2 255) ∧
  decode 0x00010207 = .ok (.or 2 0 1) ∧ decode 0x00002308 = .ok (.compl 3 2) ∧
  decode 0x00000709 = .ok (.zero 7) ∧ decode 0x0000110A = .ok (.fromu 1 1) ∧
  decode 0x0000350B = .ok (.fromun 5 3) ∧ decode 0x0010100C = .ok (.fromu128 0 1 true) ∧
  decode 0x0000200D = .ok (.asi64 0 2) ∧ decode 0x0000030E = .ok (.sqrtp 3 0) ∧
  decode 0x0000010F = .ok (.logsp 1 0)

/-- Decoding the word the encoder gives a command gives that command back, for every command and every
operand value (30_encoding.md R81, R84, R85). -/
def Obligations.DecodeOfEncodeIsTheCommand : Prop :=
  ∀ i : Instr, decode (encode i) = .ok i

/-- A legal word has one meaning: it is the very word the encoder gives the command it decodes to
(30_encoding.md R82, R87: every unused bit is 0). -/
def Obligations.LegalWordIsItsCommandsEncoding : Prop :=
  ∀ (w : Word64) (i : Instr), decode w = .ok i → encode i = w

/-- 30_encoding.md R85, R87: a word decodes to a command with a row's mnemonic exactly when it selects
that row by match and mask; a word that selects no row is illegal. -/
def Obligations.DecoderAgreesWithOpcodeMap : Prop :=
  (∀ (w : Word64) (r : OpcodeRow), r ∈ opcodeTable →
    (r.selects w = true ↔ ∃ i, decode w = .ok i ∧ i.mnemonic = r.mnemonic)) ∧
  (∀ w : Word64, (∀ r ∈ opcodeTable, r.selects w = false) → ∃ e, decode w = .error e)

/-- 30_encoding.md R86: a word is illegal exactly when its fields break the format table; written to CMD
of a unit that is not FAULTED it raises IllegalCommand, which records code 8, makes the unit FAULTED,
and leaves every register and its written-ness alone. -/
def Obligations.IllegalWordRaisesIllegalCommand : Prop :=
  (∀ w : Word64, (∃ e, decode w = .error e) ↔ (fieldsOf w).wellFormed = false) ∧
  (∀ (s : State) (w : Word64) (rest : List HostAction), s.script = .write cmdAddr w :: rest →
    s.status.fault = false → (fieldsOf w).wellFormed = false →
    step s = .next { s with script := rest, status := ⟨8, true, false⟩ })

/-! The step, FAULTED and errors (10_state.md, 40_datapath.md, 60_exceptions.md). -/

/-- A step runs the decoded command: on a write to CMD of a word that decodes to `i`, in a unit that is
not FAULTED, the step is `exec i` with the action taken from the script. That BUSY is set before and
cleared after is the model's reading of 40_datapath.md's command cycle (log 13, DEDUCED), and that the
sources are not checked for being written, which the spec makes a model fault, is the model's choice
(log 2, DESIGN CHOICE; `checkedStep` checks them). -/
def Obligations.StepRunsTheDecodedCommand : Prop :=
  ∀ (s : State) (w : Word64) (rest : List HostAction) (i : Instr),
    s.script = .write cmdAddr w :: rest → s.status.fault = false → decode w = .ok i →
    step s = mapNext State.endCommand (exec i (s.withScript rest).beginCommand)

/-- An error enters FAULTED; while FAULTED a write to CMD has no effect, a host write of any other word
still stores it and a read still answers; reset leaves FAULTED and nothing else does (10_state.md, the
FAULTED state). That a read answers for a word that is not written, where the spec has a model fault, is
the model's choice (log 2, DESIGN CHOICE). -/
def Obligations.FaultedUnitIgnoresCommandsUntilReset : Prop :=
  (∀ (s : State) (e : AuError), (s.raise e).status.fault = true) ∧
  (∀ (s : State) (w : Word64) (rest : List HostAction), s.script = .write cmdAddr w :: rest →
    s.status.fault = true → step s = .next (s.withScript rest)) ∧
  (∀ (s : State) (a : WordAddr) (w : Word64) (rest : List HostAction), s.script = .write a w :: rest →
    a ≠ cmdAddr → s.status.fault = true →
    step s = .next ((s.withScript rest).storeWord (windowWord a) w)) ∧
  (∀ (s : State) (a : WordAddr) (rest : List HostAction), s.script = .read a :: rest →
    s.status.fault = true → step s = .next ((s.withScript rest).reply (.word (s.readWindow a)))) ∧
  (∀ (s t : State) (act : HostAction) (rest : List HostAction), s.script = act :: rest →
    act ≠ .reset → s.status.fault = true → step s = .next t → t.status.fault = true) ∧
  (∀ (s : State) (rest : List HostAction), s.script = .reset :: rest →
    ∃ t, step s = .next t ∧ t.status.fault = false)

/-- 60_exceptions.md R252: every command ends in a next state; either STATUS is as it was, or an error was
raised and STATUS alone has changed: CODE is the error's code by the table of R250, FAULT is 1 and BUSY
is 0. So does an illegal word, before any command runs. LimbIndexOutOfRange is never raised. -/
def Obligations.ErrorChangesStatusAlone : Prop :=
  (∀ (i : Instr) (s : State), ∃ t, exec i s = .next t ∧
    (t.status = s.status ∨
      ∃ e, e ≠ .limbIndexOutOfRange ∧ t = { s with status := ⟨errorCode e, true, false⟩ })) ∧
  (∀ (s : State) (w : Word64), s.status.fault = false → (fieldsOf w).wellFormed = false →
    commandCycle w s = .next { s with status := ⟨errorCode .illegalCommand, true, false⟩ }) ∧
  ([AuError.limbIndexOutOfRange, .conversionOverflow, .additionOverflow, .subtractionOverflow,
    .multiplicationOverflow, .castOverflow, .substrateFault, .illegalCommand].map errorCode =
      [1, 2, 3, 4, 5, 6, 7, 8])

/-- Every step keeps STATUS as the spec says it reads: FAULT is 1 exactly when CODE is not 0, CODE is
neither 1 nor 9 to 15, BUSY is 0 (10_state.md R35, 40_datapath.md R113, 60_exceptions.md R250,
70_reset_and_hazards.md R283). -/
def Obligations.EveryStepKeepsStatusOk : Prop :=
  ∀ s t : State, StatusOk s → step s = .next t → StatusOk t

/-- No step changes the parameters: the constants are fixed in the unit and the host cannot load them
(70_reset_and_hazards.md R282). -/
def Obligations.NoStepChangesTheParameters : Prop :=
  ∀ s t : State, step s = .next t → t.params = s.params

/-- 40_datapath.md R112: what a command writes to an S register is normalised, so no command writes
negative zero. -/
def Obligations.NoCommandWritesNegativeZero : Prop :=
  (∀ a : I256, norm a = if a.mag = 0 then ⟨false, 0⟩ else a) ∧
  (∀ (i : Instr) (d : SIdx) (s t : State), destS i = some d → exec i s = .next t →
    (∃ e, t = s.raise e) ∨ ∃ v, t = s.writeS d (norm v)) ∧
  (∀ (i : Instr) (s t : State), exec i s = .next t →
    ∀ k : SIdx, t.readS k = ⟨true, 0⟩ → s.readS k = ⟨true, 0⟩)

/-- Every command but FROMUN and COMPL keeps the I256 invariant of every S register
(10_state.md R37, R38). -/
def Obligations.CommandsKeepTheInvariant : Prop :=
  ∀ (i : Instr) (s t : State), exec i s = .next t → AllValid s →
    (∀ d a, i ≠ .fromun d a) → (∀ d a, i ≠ .compl d a) → AllValid t

/-- 60_exceptions.md R266: with nothing for the host to do the unit is idle and keeps every register. -/
def Obligations.IdleUnitKeepsEverything : Prop :=
  ∀ s : State, s.script = [] → step s = .next s

/-! The frames (10_state.md R31 to R34, 40_datapath.md R110). -/

/-- ADD, SUB, MUL, SHR, OR, COMPL, ZERO, FROMU, FROMUN and FROMU128 change their S register, and STATUS
where they raise, and nothing else: no other S register, no U or T register, not ORD, no written-ness
of another word, nothing of the host's side. -/
def Obligations.FrameOfCommandsThatWriteS : Prop :=
  ∀ (i : Instr) (d : SIdx) (s t : State), destS i = some d → exec i s = .next t →
    Framed (ofS d) s t ∧ t.uregs = s.uregs ∧ t.tregs = s.tregs ∧ t.ord = s.ord ∧
      ∀ k : SIdx, k ≠ d → t.readS k = s.readS k

/-- SQRTP changes its U register, ASI64 and LOGSP their T register, and STATUS where they raise, and
nothing else: LOGSP's internal comparison leaves ORD alone (47_log_price.md R221). -/
def Obligations.FrameOfCommandsThatWriteUAndT : Prop :=
  (∀ (d : UIdx) (a : TIdx) (s t : State), exec (.sqrtp d a) s = .next t →
    Framed (ofU d) s t ∧ t.sregs = s.sregs ∧ t.tregs = s.tregs ∧ t.ord = s.ord ∧
      ∀ k : UIdx, k ≠ d → t.readU k = s.readU k) ∧
  (∀ (i : Instr) (d : TIdx) (s t : State), ((∃ a, i = .asi64 d a) ∨ ∃ a, i = .logsp d a) →
    exec i s = .next t →
    Framed (fun x => x == .tWord d) s t ∧ t.sregs = s.sregs ∧ t.uregs = s.uregs ∧ t.ord = s.ord ∧
      ∀ k : TIdx, k ≠ d → t.readT k = s.readT k)

/-- CMP and ACMP change ORD and nothing else; they raise nothing, so STATUS stays. -/
def Obligations.FrameOfCompares : Prop :=
  ∀ (i : Instr) (s t : State), ((∃ a b, i = .cmp a b) ∨ ∃ a b, i = .acmp a b) → exec i s = .next t →
    Framed (fun x => x == .ord) s t ∧ t.sregs = s.sregs ∧ t.uregs = s.uregs ∧ t.tregs = s.tregs ∧
      t.status = s.status ∧ t.written.ord = true

/-! The compares (41_compare.md). -/

/-- 41_compare.md R130: CMP writes ORD with LESS or GREATER by the signs alone where they differ, with
the magnitude order where both are 0, and with the reversed magnitude order where both are 1; for
operands of every 257-bit pattern. -/
def Obligations.CmpWritesTheSignedOrder : Prop :=
  ∀ (s : State) (a b : SIdx),
    EncodedAs (.cmp a b) ⟨0, 0, 0, indexField b, indexField a, 0, 0x01⟩
      ⟨"CMP", 0x00000001, 0xFFF88FFF⟩
      ("cmp " ++ regName "s" a ++ ", " ++ regName "s" b) ∧
    ∃ o, exec (.cmp a b) s = .next (s.writeOrd o) ∧
      ((s.readS a).neg = true → (s.readS b).neg = false → o = .less) ∧
      ((s.readS a).neg = false → (s.readS b).neg = true → o = .greater) ∧
      ((s.readS a).neg = false → (s.readS b).neg = false →
        o = natOrder (s.readS a).mag.toNat (s.readS b).mag.toNat) ∧
      ((s.readS a).neg = true → (s.readS b).neg = true →
        o = natOrder (s.readS b).mag.toNat (s.readS a).mag.toNat)

/-- 41_compare.md R131: ACMP writes ORD with the order of the magnitudes; the signs are ignored. -/
def Obligations.AcmpWritesTheMagnitudeOrder : Prop :=
  ∀ (s : State) (a b : SIdx),
    EncodedAs (.acmp a b) ⟨0, 0, 0, indexField b, indexField a, 0, 0x02⟩
      ⟨"ACMP", 0x00000002, 0xFFF88FFF⟩
      ("acmp " ++ regName "s" a ++ ", " ++ regName "s" b) ∧
    exec (.acmp a b) s =
      .next (s.writeOrd (natOrder (s.readS a).mag.toNat (s.readS b).mag.toNat))

/-- For valid operands CMP writes the order of the integer values, so it is a strict total order
(41_compare.md, the laws of CMP). -/
def Obligations.CmpOfValidOperandsIsTheIntegerOrder : Prop :=
  (∀ (s : State) (a b : SIdx), Valid (s.readS a) → Valid (s.readS b) →
    exec (.cmp a b) s = .next (s.writeOrd (intOrder (valOf (s.readS a)) (valOf (s.readS b))))) ∧
  (∀ a b : I256, Valid a → Valid b → (signedOrder a b = .equal ↔ a = b)) ∧
  (∀ a b : I256, signedOrder a b = reverseOrder (signedOrder b a)) ∧
  (∀ a b c : I256, Valid a → Valid b → Valid c →
    signedOrder a b = .less → signedOrder b c = .less → signedOrder a c = .less)

/-! Add and subtract (42_add_sub.md). -/

/-- 42_add_sub.md R140: ADD, for operands of every 257-bit pattern. Equal signs: the magnitudes' sum
with that sign, or AdditionOverflow from `2^255` on. Signs that differ: the difference of the magnitudes
with the sign of the larger (the first operand's when equal), or SubtractionOverflow from `2^255` on.
What is written is normalised; the sources are the values before the write. -/
def Obligations.AddWritesTheSumOrRaises : Prop :=
  ∀ (s : State) (d a b : SIdx) (m n : Nat), m = (s.readS a).mag.toNat → n = (s.readS b).mag.toNat →
    EncodedAs (.add d a b) ⟨0, 0, 0, indexField b, indexField a, indexField d, 0x03⟩
      ⟨"ADD", 0x00000003, 0xFFF888FF⟩
      ("add " ++ regName "s" d ++ ", " ++ regName "s" a ++ ", " ++ regName "s" b) ∧
    ((s.readS a).neg = (s.readS b).neg →
      (m + n < 2 ^ 255 → exec (.add d a b) s =
        .next (s.writeS d (norm ⟨(s.readS a).neg, BitVec.ofNat 256 (m + n)⟩))) ∧
      (2 ^ 255 ≤ m + n → exec (.add d a b) s = .next (s.raise .additionOverflow))) ∧
    ((s.readS a).neg ≠ (s.readS b).neg → n ≤ m →
      (m - n < 2 ^ 255 → exec (.add d a b) s =
        .next (s.writeS d (norm ⟨(s.readS a).neg, BitVec.ofNat 256 (m - n)⟩))) ∧
      (2 ^ 255 ≤ m - n → exec (.add d a b) s = .next (s.raise .subtractionOverflow))) ∧
    ((s.readS a).neg ≠ (s.readS b).neg → m < n →
      (n - m < 2 ^ 255 → exec (.add d a b) s =
        .next (s.writeS d (norm ⟨(s.readS b).neg, BitVec.ofNat 256 (n - m)⟩))) ∧
      (2 ^ 255 ≤ n - m → exec (.add d a b) s = .next (s.raise .subtractionOverflow)))

/-- For valid operands ADD writes the exact sum where it is in range and raises AdditionOverflow where
it is not: it never wraps (42_add_sub.md, ADD's corner cases and the laws of ADD and SUB). -/
def Obligations.AddOfValidOperandsIsExact : Prop :=
  ∀ (s : State) (d a b : SIdx), Valid (s.readS a) → Valid (s.readS b) →
    ((valOf (s.readS a) + valOf (s.readS b)).natAbs < 2 ^ 255 →
      exec (.add d a b) s =
        .next (s.writeS d (canonical (valOf (s.readS a) + valOf (s.readS b))))) ∧
    (2 ^ 255 ≤ (valOf (s.readS a) + valOf (s.readS b)).natAbs →
      exec (.add d a b) s = .next (s.raise .additionOverflow))

/-- 42_add_sub.md R141: SUB, for operands of every 257-bit pattern. Signs that differ: the magnitudes'
sum with the first sign, or AdditionOverflow from `2^255` on. Equal signs: the difference of the
magnitudes, with the sign flipped where the second is larger, or SubtractionOverflow from `2^255` on. -/
def Obligations.SubWritesTheDifferenceOrRaises : Prop :=
  ∀ (s : State) (d a b : SIdx) (m n : Nat), m = (s.readS a).mag.toNat → n = (s.readS b).mag.toNat →
    EncodedAs (.sub d a b) ⟨0, 0, 0, indexField b, indexField a, indexField d, 0x04⟩
      ⟨"SUB", 0x00000004, 0xFFF888FF⟩
      ("sub " ++ regName "s" d ++ ", " ++ regName "s" a ++ ", " ++ regName "s" b) ∧
    ((s.readS a).neg ≠ (s.readS b).neg →
      (m + n < 2 ^ 255 → exec (.sub d a b) s =
        .next (s.writeS d (norm ⟨(s.readS a).neg, BitVec.ofNat 256 (m + n)⟩))) ∧
      (2 ^ 255 ≤ m + n → exec (.sub d a b) s = .next (s.raise .additionOverflow))) ∧
    ((s.readS a).neg = (s.readS b).neg → n ≤ m →
      (m - n < 2 ^ 255 → exec (.sub d a b) s =
        .next (s.writeS d (norm ⟨(s.readS a).neg, BitVec.ofNat 256 (m - n)⟩))) ∧
      (2 ^ 255 ≤ m - n → exec (.sub d a b) s = .next (s.raise .subtractionOverflow))) ∧
    ((s.readS a).neg = (s.readS b).neg → m < n →
      (n - m < 2 ^ 255 → exec (.sub d a b) s =
        .next (s.writeS d (norm ⟨!(s.readS a).neg, BitVec.ofNat 256 (n - m)⟩))) ∧
      (2 ^ 255 ≤ n - m → exec (.sub d a b) s = .next (s.raise .subtractionOverflow)))

/-- For valid operands SUB writes the exact difference where it is in range and raises AdditionOverflow
where it is not (42_add_sub.md, SUB's corner cases and the laws of ADD and SUB). -/
def Obligations.SubOfValidOperandsIsExact : Prop :=
  ∀ (s : State) (d a b : SIdx), Valid (s.readS a) → Valid (s.readS b) →
    ((valOf (s.readS a) - valOf (s.readS b)).natAbs < 2 ^ 255 →
      exec (.sub d a b) s =
        .next (s.writeS d (canonical (valOf (s.readS a) - valOf (s.readS b))))) ∧
    (2 ^ 255 ≤ (valOf (s.readS a) - valOf (s.readS b)).natAbs →
      exec (.sub d a b) s = .next (s.raise .additionOverflow))

/-- The laws of ADD and SUB: ADD commutes, errors included, on every operand; for valid operands SUB is
ADD of the negated second operand, errors included, and zero is neutral (42_add_sub.md). -/
def Obligations.AddAndSubLaws : Prop :=
  (∀ a b : I256, addValue a b = addValue b a) ∧
  (∀ a b : I256, Valid a → Valid b → subValue a b = addValue a (negate b)) ∧
  (∀ a : I256, Valid a → addValue a (canonical 0) = .ok a ∧ subValue a (canonical 0) = .ok a)

/-! Multiply (43_mul.md). -/

/-- 43_mul.md R150: MUL writes the product of the magnitudes, normalised, with the exclusive or of the
signs, where the product is below `2^255`; from there on it raises MultiplicationOverflow. -/
def Obligations.MulWritesTheProductOrRaises : Prop :=
  ∀ (s : State) (d a b : SIdx) (p : Nat), p = (s.readS a).mag.toNat * (s.readS b).mag.toNat →
    EncodedAs (.mul d a b) ⟨0, 0, 0, indexField b, indexField a, indexField d, 0x05⟩
      ⟨"MUL", 0x00000005, 0xFFF888FF⟩
      ("mul " ++ regName "s" d ++ ", " ++ regName "s" a ++ ", " ++ regName "s" b) ∧
    (p < 2 ^ 255 → exec (.mul d a b) s =
      .next (s.writeS d (norm ⟨(s.readS a).neg ^^ (s.readS b).neg, BitVec.ofNat 256 p⟩))) ∧
    (2 ^ 255 ≤ p → exec (.mul d a b) s = .next (s.raise .multiplicationOverflow))

/-- The laws of MUL: for valid operands it is true integer multiplication where the product fits and
MultiplicationOverflow elsewhere; it commutes, errors included; 1, 0 and -1 act as they should
(43_mul.md). -/
def Obligations.MulLaws : Prop :=
  (∀ a b : I256, Valid a → Valid b →
    ((valOf a * valOf b).natAbs < 2 ^ 255 → mulValue a b = .ok (canonical (valOf a * valOf b))) ∧
    (2 ^ 255 ≤ (valOf a * valOf b).natAbs → mulValue a b = .error .multiplicationOverflow)) ∧
  (∀ a b : I256, mulValue a b = mulValue b a) ∧
  (∀ a : I256, Valid a → mulValue a (canonical 1) = .ok a ∧ mulValue a (canonical 0) = .ok (canonical 0) ∧
    mulValue a (canonical (-1)) = .ok (negate a))

/-! Shift, OR and complement (44_shift_or_complement.md). -/

/-- 44_shift_or_complement.md R160: SHR shifts the two's-complement pattern right, fills the vacated
high bits with ones for a negative operand, converts back and normalises. It never raises. -/
def Obligations.ShrWritesTheArithmeticShift : Prop :=
  ∀ (s : State) (d a : SIdx) (n : BitVec 8) (q : Nat),
    q = (patternOf (s.readS a)).toNat / 2 ^ n.toNat +
      (if (s.readS a).neg then (2 ^ n.toNat - 1) * 2 ^ (256 - n.toNat) else 0) →
    EncodedAs (.shr d a n) ⟨0, 0, n, 0, indexField a, indexField d, 0x06⟩
      ⟨"SHR", 0x00000006, 0xF00F88FF⟩
      ("shr " ++ regName "s" d ++ ", " ++ regName "s" a ++ ", #" ++ decimal n.toNat) ∧
    ((s.readS a).neg = false →
      exec (.shr d a n) s = .next (s.writeS d (norm ⟨false, BitVec.ofNat 256 q⟩))) ∧
    ((s.readS a).neg = true →
      exec (.shr d a n) s = .next (s.writeS d (norm ⟨true, BitVec.ofNat 256 (2 ^ 256 - q)⟩)))

/-- For a valid operand SHR is floor division by `2^s`, its result is valid, a shift by 0 is the
identity and shifts add up (44_shift_or_complement.md, the laws of SHR). -/
def Obligations.ShrOfValidOperandIsFloorDivision : Prop :=
  (∀ (s : State) (d a : SIdx) (n : BitVec 8), Valid (s.readS a) →
    exec (.shr d a n) s = .next (s.writeS d (canonical (valOf (s.readS a) / 2 ^ n.toNat)))) ∧
  (∀ (a : I256) (n : Nat), n < 256 → Valid a → Valid (shrValue a n)) ∧
  (∀ a : I256, Valid a → shrValue a 0 = a) ∧
  (∀ (a : I256) (m n : Nat), m + n < 256 → Valid a → shrValue (shrValue a m) n = shrValue a (m + n))

/-- 44_shift_or_complement.md R161: OR writes the OR of the two patterns, negative where either operand
is, converted back and normalised. It never raises. -/
def Obligations.OrWritesTheOrOfThePatterns : Prop :=
  ∀ (s : State) (d a b : SIdx) (q : U256), q = patternOf (s.readS a) ||| patternOf (s.readS b) →
    EncodedAs (.or d a b) ⟨0, 0, 0, indexField b, indexField a, indexField d, 0x07⟩
      ⟨"OR", 0x00000007, 0xFFF888FF⟩
      ("or " ++ regName "s" d ++ ", " ++ regName "s" a ++ ", " ++ regName "s" b) ∧
    ((s.readS a).neg = false → (s.readS b).neg = false →
      exec (.or d a b) s = .next (s.writeS d (norm ⟨false, q⟩))) ∧
    ((s.readS a).neg = true ∨ (s.readS b).neg = true →
      exec (.or d a b) s = .next (s.writeS d (norm ⟨true, BitVec.ofNat 256 (2 ^ 256 - q.toNat)⟩)))

/-- For valid operands OR is the 256-bit two's-complement OR of the integer values, and its result is
valid (44_shift_or_complement.md, OR's corner cases). -/
def Obligations.OrOfValidOperandsIsTwosComplementOr : Prop :=
  ∀ a b : I256, Valid a → Valid b →
    Valid (orValue a b) ∧
    BitVec.ofInt 256 (valOf (orValue a b)) = BitVec.ofInt 256 (valOf a) ||| BitVec.ofInt 256 (valOf b)

/-- 44_shift_or_complement.md R162: COMPL writes the two's-complement pattern, with the sign kept and
nothing checked: a non-negative operand unchanged, a negative one with magnitude `2^256 - m`, and
negative zero as zero. -/
def Obligations.ComplWritesThePattern : Prop :=
  ∀ (s : State) (d a : SIdx),
    EncodedAs (.compl d a) ⟨0, 0, 0, 0, indexField a, indexField d, 0x08⟩
      ⟨"COMPL", 0x00000008, 0xFFFF88FF⟩
      ("compl " ++ regName "s" d ++ ", " ++ regName "s" a) ∧
    ((s.readS a).neg = false → exec (.compl d a) s = .next (s.writeS d (s.readS a))) ∧
    ((s.readS a).neg = true → (s.readS a).mag ≠ 0 → exec (.compl d a) s =
      .next (s.writeS d ⟨true, BitVec.ofNat 256 (2 ^ 256 - (s.readS a).mag.toNat)⟩)) ∧
    ((s.readS a) = ⟨true, 0⟩ → exec (.compl d a) s = .next (s.writeS d ⟨false, 0⟩))

/-- COMPL applied twice gives the operand back, for every operand but negative zero
(44_shift_or_complement.md, the laws of COMPL). -/
def Obligations.ComplTwiceIsTheIdentity : Prop :=
  ∀ a : I256, a ≠ ⟨true, 0⟩ → complValue (complValue a) = a

/-! Constructors and narrowing (45_convert.md). -/

/-- 45_convert.md R180, R182: ZERO writes `(0, 0)` and reads nothing; FROMUN writes `(0, u)` for every `u`,
with no check of bit 255. Neither raises anything. -/
def Obligations.ZeroAndFromunWriteUnchecked : Prop :=
  (∀ (s : State) (d : SIdx),
    EncodedAs (.zero d) ⟨0, 0, 0, 0, 0, indexField d, 0x09⟩
      ⟨"ZERO", 0x00000009, 0xFFFFF8FF⟩
      ("zero " ++ regName "s" d) ∧
    exec (.zero d) s = .next (s.writeS d ⟨false, 0⟩)) ∧
  (∀ (s : State) (d : SIdx) (a : UIdx),
    EncodedAs (.fromun d a) ⟨0, 0, 0, 0, indexField a, indexField d, 0x0B⟩
      ⟨"FROMUN", 0x0000000B, 0xFFFFC8FF⟩
      ("fromun " ++ regName "s" d ++ ", " ++ regName "u" a) ∧
    exec (.fromun d a) s = .next (s.writeS d ⟨false, s.readU a⟩))

/-- 45_convert.md R181: FROMU writes `(0, u)`, or raises ConversionOverflow where bit 255 of `u` is 1. -/
def Obligations.FromuWritesTheValueOrRaises : Prop :=
  ∀ (s : State) (d : SIdx) (a : UIdx),
    EncodedAs (.fromu d a) ⟨0, 0, 0, 0, indexField a, indexField d, 0x0A⟩
      ⟨"FROMU", 0x0000000A, 0xFFFFC8FF⟩
      ("fromu " ++ regName "s" d ++ ", " ++ regName "u" a) ∧
    ((s.readU a).toNat < 2 ^ 255 → exec (.fromu d a) s = .next (s.writeS d ⟨false, s.readU a⟩)) ∧
    (2 ^ 255 ≤ (s.readU a).toNat → exec (.fromu d a) s = .next (s.raise .conversionOverflow))

/-- 45_convert.md R183: FROMU128 writes `u` with the sign flag, normalised, or raises ConversionOverflow
from `2^128` on. -/
def Obligations.Fromu128WritesTheSignedValueOrRaises : Prop :=
  ∀ (s : State) (d : SIdx) (a : UIdx) (neg : Bool),
    EncodedAs (.fromu128 d a neg) ⟨0, 0, if neg then 1 else 0, 0, indexField a, indexField d, 0x0C⟩
      ⟨"FROMU128", 0x0000000C, 0xFFEFC8FF⟩
      ("fromu128 " ++ regName "s" d ++ ", " ++ regName "u" a ++ (if neg then ", neg" else ", pos")) ∧
    ((s.readU a).toNat < 2 ^ 128 →
      exec (.fromu128 d a neg) s = .next (s.writeS d (norm ⟨neg, s.readU a⟩))) ∧
    (2 ^ 128 ≤ (s.readU a).toNat → exec (.fromu128 d a neg) s = .next (s.raise .conversionOverflow))

/-- 45_convert.md R184: ASI64 writes the value as a 64-bit two's-complement word where it lies in
`[-2^63, 2^63 - 1]` and raises CastOverflow elsewhere, for operands of every 257-bit pattern. -/
def Obligations.Asi64WritesTheValueOrRaises : Prop :=
  ∀ (s : State) (d : TIdx) (a : SIdx),
    EncodedAs (.asi64 d a) ⟨0, 0, 0, 0, indexField a, indexField d, 0x0D⟩
      ⟨"ASI64", 0x0000000D, 0xFFFF8CFF⟩
      ("asi64 " ++ regName "t" d ++ ", " ++ regName "s" a) ∧
    (-2 ^ 63 ≤ valOf (s.readS a) → valOf (s.readS a) ≤ 2 ^ 63 - 1 →
      exec (.asi64 d a) s = .next (s.writeT d (BitVec.ofInt 64 (valOf (s.readS a))))) ∧
    (valOf (s.readS a) < -2 ^ 63 ∨ 2 ^ 63 - 1 < valOf (s.readS a) →
      exec (.asi64 d a) s = .next (s.raise .castOverflow))

/-- The laws of the conversions: FROMU then ASI64 gives back every `u` below `2^63`; ASI64 keeps the value
of every valid operand in range; FROMU128 gives the signed value (45_convert.md). -/
def Obligations.ConversionLaws : Prop :=
  (∀ u : U256, u.toNat < 2 ^ 63 → ∃ a t, fromUValue u = .ok a ∧ asI64Value a = .ok t ∧ t.toNat = u.toNat) ∧
  (∀ a : I256, Valid a → -2 ^ 63 ≤ valOf a → valOf a ≤ 2 ^ 63 - 1 →
    ∃ t, asI64Value a = .ok t ∧ ival t = valOf a) ∧
  (∀ (u : U256) (neg : Bool), u.toNat < 2 ^ 128 →
    fromU128Value u neg = .ok (canonical (if neg then -(u.toNat : Int) else u.toNat)))

/-! Tick to sqrt price (46_sqrt_price.md). -/

/-- 46_sqrt_price.md R202, for constants that meet R200: SQRTP raises SubstrateFault for `-2^63` and, with
`fault`, from magnitude `2^20` on; for every other tick it writes the accumulator of the multiply rounds,
inverted for a tick that is not negative (SubstrateFault where it is 0), shifted by 32 and rounded up. -/
def Obligations.SqrtpWritesTheRoundedRatio : Prop :=
  ∀ (s : State) (d : UIdx) (a : TIdx) (n : Nat), n = (ival (s.readT a)).natAbs →
    EncodedAs (.sqrtp d a) ⟨0, 0, 0, 0, indexField a, indexField d, 0x0E⟩
      ⟨"SQRTP", 0x0000000E, 0xFFFFCCFF⟩
      ("sqrtp " ++ regName "u" d ++ ", " ++ regName "t" a) ∧
    (n = 2 ^ 63 → exec (.sqrtp d a) s = .next (s.raise .substrateFault)) ∧
    (s.params.wideTick = .fault → 2 ^ 20 ≤ n → exec (.sqrtp d a) s = .next (s.raise .substrateFault)) ∧
    (ConstantsInRange s.params → n < 2 ^ 63 → (s.params.wideTick = .ignore ∨ n < 2 ^ 20) →
      (ival (s.readT a) < 0 → exec (.sqrtp d a) s =
        .next (s.writeU d (BitVec.ofNat 256 (ceil32 (sqrtAccumulator s.params n))))) ∧
      (0 ≤ ival (s.readT a) → 0 < sqrtAccumulator s.params n → exec (.sqrtp d a) s =
        .next (s.writeU d (BitVec.ofNat 256 (ceil32 ((2 ^ 256 - 1) / sqrtAccumulator s.params n))))) ∧
      (0 ≤ ival (s.readT a) → sqrtAccumulator s.params n = 0 →
        exec (.sqrtp d a) s = .next (s.raise .substrateFault)))

/-- SQRTP of tick 0 is `2^96`, 1.0 in Q96, whatever the OPEN constants and settings are
(46_sqrt_price.md, SQRTP(0)). -/
def Obligations.SqrtpOfTickZeroIsOne : Prop :=
  ∀ (s : State) (d : UIdx) (a : TIdx), s.readT a = 0 →
    exec (.sqrtp d a) s = .next (s.writeU d (BitVec.ofNat 256 (2 ^ 96)))

/-- 46_sqrt_price.md R206: tick `-2^63` raises SubstrateFault under both settings; with `fault` so does
every tick of magnitude `2^20` or more; with `ignore`, the default, bits 20 to 63 of the magnitude have
no effect. -/
def Obligations.SqrtpWideTicks : Prop :=
  State.reset.params.wideTick = .ignore ∧
  (∀ (s : State) (d : UIdx) (a : TIdx), ival (s.readT a) = -2 ^ 63 →
    exec (.sqrtp d a) s = .next (s.raise .substrateFault)) ∧
  (∀ (s : State) (d : UIdx) (a : TIdx), s.params.wideTick = .fault →
    2 ^ 20 ≤ (ival (s.readT a)).natAbs → exec (.sqrtp d a) s = .next (s.raise .substrateFault)) ∧
  (∀ (p : Params) (t t' : I64), p.wideTick = .ignore → ival t ≠ -2 ^ 63 → ival t' ≠ -2 ^ 63 →
    (ival t < 0 ↔ ival t' < 0) → (ival t).natAbs % 2 ^ 20 = (ival t').natAbs % 2 ^ 20 →
    sqrtPrice p t = sqrtPrice p t')

/-- Under the reference constants SQRTP writes a price of at most `2^224` for every tick but `-2^63`
(with `fault`, for every tick of magnitude below `2^20`): it raises nothing else
(46_sqrt_price.md, range facts). -/
def Obligations.SqrtpCompletesUnderReferenceConstants : Prop :=
  ∀ (s : State) (d : UIdx) (a : TIdx), ReferenceConstants s.params → ival (s.readT a) ≠ -2 ^ 63 →
    (s.params.wideTick = .ignore ∨ (ival (s.readT a)).natAbs < 2 ^ 20) →
    ∃ r : U256, exec (.sqrtp d a) s = .next (s.writeU d r) ∧ 0 < r.toNat ∧ r.toNat ≤ 2 ^ 224

/-! Sqrt price to tick (47_log_price.md). -/

/-- The exponent step finds the index of the most significant set bit, and 0 for 0 and 1
(47_log_price.md, exponent). -/
def Obligations.LogspExponentIsTheTopBit : Prop :=
  ∀ x : U256, (stepMsb x).toNat = Nat.log2 x.toNat

/-- The seed step normalises a working value that is not 0 into `[2^127, 2^128)`, leaves 0 as 0, and
seeds the logarithm with the exponent less 128, in Q64 (47_log_price.md, normalisation and seed). -/
def Obligations.LogspSeedIsNormalised : Prop :=
  ∀ x : U256,
    (x ≠ 0 → 2 ^ 127 ≤ (stepSeed x (stepMsb x)).1.toNat ∧ (stepSeed x (stepMsb x)).1.toNat < 2 ^ 128) ∧
    (x = 0 → (stepSeed x (stepMsb x)).1 = 0) ∧
    valOf (stepSeed x (stepMsb x)).2 = ((Nat.log2 x.toNat : Int) - 128) * 2 ^ 64

/-- A refinement round that starts below `2^128` raises nothing, extracts one bit, and leaves the next
round below `2^128` (47_log_price.md, refinement rounds). -/
def Obligations.LogspRoundExtractsOneBit : Prop :=
  ∀ (x : U256) (l2 : I256) (off : Nat), x.toNat < 2 ^ 128 →
    ∃ x' y, squareStep x l2 off = .ok (x', y, orValue l2 (canonical ((y.toNat <<< off : Nat) : Int))) ∧
      x'.toNat = x.toNat ^ 2 / 2 ^ 127 ∧ y.toNat = x'.toNat / 2 ^ 128 ∧ y.toNat ≤ 1 ∧
      (wrappedShift (y.toNat / 255) x' y.toNat).toNat < 2 ^ 128

/-- LOGSP up to its bounds in whole numbers, for every price and all constants in the spec's range: the
logarithm is that of the price shifted by 32, normalised, with one round at each offset from 63 down to
50; the bounds are its product with the fixed constant, less and plus the error bounds, divided by
`2^128` and rounded down; no step raises (47_log_price.md, the steps up to scale and bounds). -/
def Obligations.LogspBoundsAreRoundedDown : Prop :=
  (∀ price : U256, ∃ l2, logTwo price = .ok l2 ∧ Valid l2 ∧ valOf l2 = logFixed price.toNat) ∧
  (∀ (p : Params) (price : U256), ConstantsInRange p →
    logBounds p price = .ok
      (BitVec.ofInt 64 ((logFixed price.toNat * 255738958999603826347141 - p.logErrLo.toNat) / 2 ^ 128),
       BitVec.ofInt 64 ((logFixed price.toNat * 255738958999603826347141 + p.logErrHi.toNat) / 2 ^ 128))) ∧
  (∀ (p : Params) (l2 : I256), ConstantsInRange p → Valid l2 → (valOf l2).natAbs ≤ 2 ^ 71 →
    ∃ ls, scaleLog l2 = .ok ls ∧ valOf ls = valOf l2 * 255738958999603826347141 ∧
      lowerBound p ls = .ok (BitVec.ofInt 64 ((valOf ls - p.logErrLo.toNat) / 2 ^ 128)) ∧
      upperBound p ls = .ok (BitVec.ofInt 64 ((valOf ls + p.logErrHi.toNat) / 2 ^ 128)))

/-- 47_log_price.md R228: from the two bounds LOGSP writes the one bound where they are equal; else it
recomputes the price of the upper one, whose error ends LOGSP, and writes the upper bound where that
price is at most the input and the lower bound where it is greater. An error of an earlier step ends
LOGSP too. -/
def Obligations.LogspPicksABoundByTheRecomputedPrice : Prop :=
  ∀ (s : State) (d : TIdx) (a : UIdx),
    EncodedAs (.logsp d a) ⟨0, 0, 0, 0, indexField a, indexField d, 0x0F⟩
      ⟨"LOGSP", 0x0000000F, 0xFFFFCCFF⟩
      ("logsp " ++ regName "t" d ++ ", " ++ regName "u" a) ∧
    (∀ e, logBounds s.params (s.readU a) = .error e → exec (.logsp d a) s = .next (s.raise e)) ∧
    ∀ lo hi : I64, logBounds s.params (s.readU a) = .ok (lo, hi) →
      (lo = hi → exec (.logsp d a) s = .next (s.writeT d lo)) ∧
      (lo ≠ hi → ∀ p, sqrtPrice s.params hi = .ok p →
        (p.toNat ≤ (s.readU a).toNat → exec (.logsp d a) s = .next (s.writeT d hi)) ∧
        ((s.readU a).toNat < p.toNat → exec (.logsp d a) s = .next (s.writeT d lo))) ∧
      (lo ≠ hi → ∀ e, sqrtPrice s.params hi = .error e → exec (.logsp d a) s = .next (s.raise e))

/-- Under the reference constants, with `SQRTP_WIDE_TICK = ignore`, LOGSP raises nothing for any price:
it writes a tick in `[-1774546, 1774545]` (47_log_price.md, range facts). -/
def Obligations.LogspCompletesUnderReferenceConstants : Prop :=
  ∀ (s : State) (d : TIdx) (a : UIdx), ReferenceConstants s.params → s.params.wideTick = .ignore →
    ∃ t : I64, exec (.logsp d a) s = .next (s.writeT d t) ∧ -1774546 ≤ ival t ∧ ival t ≤ 1774545

/-! The register window and reset (10_state.md, 20_memory.md, 70_reset_and_hazards.md). -/

/-- 10_state.md R35: the word STATUS shows; host writes to it are ignored; only reset clears CODE and
FAULT. -/
def Obligations.StatusRegisterReadsAndResets : Prop :=
  (∀ s : State, (s.readWindow statusAddr).toNat =
    s.status.code.toNat + 16 * s.status.fault.toNat + 32 * s.status.busy.toNat) ∧
  (∀ (s : State) (w : Word64) (rest : List HostAction), s.script = .write statusAddr w :: rest →
    step s = .next (s.withScript rest)) ∧
  (∀ (s t : State) (act : HostAction) (rest : List HostAction), s.script = act :: rest →
    act ≠ .reset → s.status.fault = true → step s = .next t → t.status = s.status)

/-- 10_state.md R34: the word ORD shows, LESS 0, EQUAL 1 and GREATER 2; host writes to it are ignored;
every command other than CMP and ACMP leaves it unchanged. -/
def Obligations.OrdRegisterIsTheComparesAlone : Prop :=
  (∀ s : State, (s.readWindow ordAddr).toNat =
    match s.ord with | .less => 0 | .equal => 1 | .greater => 2) ∧
  (∀ (s : State) (w : Word64) (rest : List HostAction), s.script = .write ordAddr w :: rest →
    step s = .next (s.withScript rest)) ∧
  (∀ (i : Instr) (s t : State), (∀ a b, i ≠ .cmp a b) → (∀ a b, i ≠ .acmp a b) → exec i s = .next t →
    t.ord = s.ord)

/-- A write to CMD issues a command; a write to STATUS, ORD or a reserved address changes nothing; a read of
CMD or of a reserved address gives 0; a read changes nothing but what the host got back; a NEG word keeps
bit 0 of what is written (20_memory.md, side effects). That a read answers for a word that is not
written, where the spec has a model fault, is the model's choice (log 2, DESIGN CHOICE). -/
def Obligations.WindowSideEffects : Prop :=
  (∀ (s : State) (w : Word64) (rest : List HostAction), s.script = .write cmdAddr w :: rest →
    step s = commandCycle w (s.withScript rest)) ∧
  (∀ (s : State) (a : WordAddr) (w : Word64) (rest : List HostAction), s.script = .write a w :: rest →
    (windowWord a = .status ∨ windowWord a = .ord ∨ windowWord a = .reserved) →
    step s = .next (s.withScript rest)) ∧
  (∀ (s : State) (a : WordAddr), (windowWord a = .cmd ∨ windowWord a = .reserved) → s.readWindow a = 0) ∧
  (∀ (s : State) (a : WordAddr) (rest : List HostAction), s.script = .read a :: rest →
    step s = .next { s with script := rest, replies := s.replies ++ [.word (s.readWindow a)] }) ∧
  (∀ (s : State) (k : SIdx) (w : Word64) (rest : List HostAction),
    s.script = .write (sNegAddr k) w :: rest →
    ∃ t, step s = .next t ∧ (t.readS k).neg = w.getLsbD 0 ∧ (t.readS k).mag = (s.readS k).mag)

/-- The map of the window puts each register word at its address, limb 0 lowest: what the host writes at
the address of a limb or of a T register is what a read of it gives, and the register holds it at that
place. A NEG word reads as its register's sign in bit 0 and 0 above, so a host write of one is read back
as bit 0 of what was written, with the magnitude as it was (20_memory.md, the map of the window). -/
def Obligations.HostWriteIsReadBackInPlace : Prop :=
  (∀ (s : State) (i : SIdx) (j : Fin 4) (w : Word64) (rest : List HostAction),
    s.script = .write (sMagAddr i j) w :: rest →
    ∃ t, step s = .next t ∧ t.readWindow (sMagAddr i j) = w ∧
      (t.readS i).mag.toNat / 2 ^ (64 * j.val) % 2 ^ 64 = w.toNat ∧ (t.readS i).neg = (s.readS i).neg) ∧
  (∀ (s : State) (i : UIdx) (j : Fin 4) (w : Word64) (rest : List HostAction),
    s.script = .write (uLimbAddr i j) w :: rest →
    ∃ t, step s = .next t ∧ t.readWindow (uLimbAddr i j) = w ∧
      (t.readU i).toNat / 2 ^ (64 * j.val) % 2 ^ 64 = w.toNat) ∧
  (∀ (s : State) (i : TIdx) (w : Word64) (rest : List HostAction),
    s.script = .write (tWordAddr i) w :: rest →
    ∃ t, step s = .next t ∧ t.readWindow (tWordAddr i) = w ∧ t.readT i = w) ∧
  (∀ (s : State) (i : SIdx), (s.readWindow (sNegAddr i)).toNat = (s.readS i).neg.toNat) ∧
  (∀ (s : State) (i : SIdx) (w : Word64) (rest : List HostAction),
    s.script = .write (sNegAddr i) w :: rest →
    ∃ t, step s = .next t ∧ (t.readWindow (sNegAddr i)).toNat = w.toNat % 2 ∧
      (t.readS i).neg = w.getLsbD 0 ∧ (t.readS i).mag = (s.readS i).mag)

/-- A host write of one word leaves what every other address reads, and its written-ness, as they were;
the word itself becomes written (20_memory.md R62, R66). -/
def Obligations.HostWriteTouchesOneWord : Prop :=
  ∀ (s : State) (a : WordAddr) (w : Word64) (rest : List HostAction), s.script = .write a w :: rest →
    windowWord a ≠ .cmd →
    ∃ t, step s = .next t ∧ t.script = rest ∧
      (∀ b, b ≠ a → t.readWindow b = s.readWindow b ∧
        t.wordWritten (windowWord b) = s.wordWritten (windowWord b)) ∧
      (windowWord a ≠ .ord → t.wordWritten (windowWord a) = true) ∧ t.status = s.status ∧
      t.replies = s.replies ∧ t.params = s.params

/-- 70_reset_and_hazards.md R280: reset clears STATUS and makes every word unwritten; the host's other
actions, what it got back and the parameters stay. Nothing is said of the register contents. -/
def Obligations.ResetClearsStatusAndMakesAllUnwritten : Prop :=
  ∀ (s : State) (rest : List HostAction), s.script = .reset :: rest →
    ∃ t, step s = .next t ∧ t.status = ⟨0, false, false⟩ ∧
      (∀ i : SIdx, t.writtenS i = false ∧ t.wordWritten (.sNeg i) = false ∧
        ∀ j, t.wordWritten (.sMag i j) = false) ∧
      (∀ i : UIdx, ∀ j, t.wordWritten (.uLimb i j) = false) ∧
      (∀ i : TIdx, t.wordWritten (.tWord i) = false) ∧ t.wordWritten .ord = false ∧
      t.script = rest ∧ t.replies = s.replies ∧ t.params = s.params

/-- 10_state.md R44: after reset STATUS is 0 in every field (so it is as `StatusOk` says), CMD reads 0, and
every register word and ORD is unwritten. Nothing is said of their contents, which the model chose
(log 1). -/
def Obligations.StateAfterReset : Prop :=
  State.reset.status = ⟨0, false, false⟩ ∧ StatusOk State.reset ∧ State.reset.readWindow cmdAddr = 0 ∧
  (∀ x : WindowWord, x ≠ .cmd → x ≠ .status → x ≠ .reserved → State.reset.wordWritten x = false)

/-- 20_memory.md R66: a command that writes a register makes all of its words written; a register is
written exactly when every one of its words is. -/
def Obligations.RegisterIsWrittenWhenEveryWordIs : Prop :=
  (∀ (s : State) (k : SIdx) (v : I256), (s.writeS k v).writtenS k = true) ∧
  (∀ (s : State) (k : UIdx) (v : U256), (s.writeU k v).writtenU k = true) ∧
  (∀ (s : State) (k : TIdx) (v : I64), (s.writeT k v).writtenT k = true) ∧
  (∀ (s : State) (k : SIdx), s.writtenS k = true ↔
    s.wordWritten (windowWord (sNegAddr k)) = true ∧
      ∀ j, s.wordWritten (windowWord (sMagAddr k j)) = true) ∧
  (∀ (s : State) (k : UIdx), s.writtenU k = true ↔
    ∀ j, s.wordWritten (windowWord (uLimbAddr k j)) = true) ∧
  (∀ (s : State) (k : TIdx), s.writtenT k = true ↔ s.wordWritten (windowWord (tWordAddr k)) = true)

/-- 10_state.md R43, in the checked step: a command that reads a source that is not written, and a host
read of a word that is not written, are model faults, and leave no STATUS code; with every source
written the checked step is the step. The sources are those of the formats (30_encoding.md, the table of
formats): two S registers for CMP, ACMP, ADD, SUB, MUL and OR; one S register for SHR, COMPL and ASI64; a U
register for FROMU, FROMUN, FROMU128 and LOGSP; a T register for SQRTP; none for ZERO. -/
def Obligations.UnwrittenReadIsAModelFault : Prop :=
  (∀ (s : State) (d a b : SIdx), ∀ i ∈ [Instr.cmp a b, .acmp a b, .add d a b, .sub d a b, .mul d a b, .or d a b],
    (s.sourcesWritten i = true ↔ s.writtenS a = true ∧ s.writtenS b = true)) ∧
  (∀ (s : State) (d a : SIdx) (e : TIdx) (n : BitVec 8), ∀ i ∈ [Instr.shr d a n, .compl d a, .asi64 e a],
    (s.sourcesWritten i = true ↔ s.writtenS a = true)) ∧
  (∀ (s : State) (d : SIdx) (e : TIdx) (a : UIdx) (neg : Bool),
    ∀ i ∈ [Instr.fromu d a, .fromun d a, .fromu128 d a neg, .logsp e a],
      (s.sourcesWritten i = true ↔ s.writtenU a = true)) ∧
  (∀ (s : State) (d : UIdx) (a : TIdx), s.sourcesWritten (.sqrtp d a) = true ↔ s.writtenT a = true) ∧
  (∀ (s : State) (d : SIdx), s.sourcesWritten (.zero d) = true) ∧
  (∀ (s : State) (w : Word64) (rest : List HostAction) (i : Instr), s.script = .write cmdAddr w :: rest →
    s.status.fault = false → decode w = .ok i →
    (s.sourcesWritten i = false → checkedStep s = .fault .unwrittenSource) ∧
    (s.sourcesWritten i = true → checkedStep s = step s)) ∧
  (∀ (s : State) (a : WordAddr) (rest : List HostAction), s.script = .read a :: rest →
    (s.wordWritten (windowWord a) = false → checkedStep s = .fault .unwrittenWord) ∧
    (s.wordWritten (windowWord a) = true → checkedStep s = step s))

/-- The contents of unwritten words never matter to the checked step: from two states alike but for
them, it ends alike but for them. So nothing proved of the checked step rests on the register values
the model chose at reset (10_state.md, hidden state and reset values; log 1). -/
def Obligations.UnwrittenContentsNeverMatter : Prop :=
  ∀ s t : State, AgreeOnWritten s t → AgreeOutcome (checkedStep s) (checkedStep t)

/-- A byte-addressed access of one whole aligned 64-bit word through the platform's bridge is the window
access of that word, in either byte order (20_memory.md, access width and byte order). The place of a
word's bytes is the model's reading (log 8, DEDUCED), that there are two byte orders its choice (log 17,
DESIGN CHOICE), and so is that a read answers for a word that is not written, where the spec has a model
fault (log 2, DESIGN CHOICE). -/
def Obligations.WholeWordBusAccessIsTheWindowAccess : Prop :=
  (∀ (s : State) (a : WordAddr) (w : Word64) (rest : List HostAction),
    s.script = .busWrite (s.params.windowBase + 8 * a.toNat) (wordToBus s.params.byteOrder w) :: rest →
    step s = step (s.withScript (.write a w :: rest))) ∧
  (∀ (s : State) (a : WordAddr) (rest : List HostAction),
    s.script = .busRead (s.params.windowBase + 8 * a.toNat) 8 :: rest →
    ∃ bs, step s = .next ((s.withScript rest).reply (.bytes bs)) ∧ bs.length = 8 ∧
      busToWord s.params.byteOrder bs = s.readWindow a)

/-- 20_memory.md R63: a byte-addressed access of the window that is not one whole aligned 64-bit word is
refused (that the bytes of word `a` start at `WINDOW_BASE + 8 a` is the model's reading, log 8). -/
def Obligations.PartialWordAccessIsRefused : Prop :=
  (∀ (s : State) (off : Nat) (bytes : List Byte) (rest : List HostAction), off < 8 * 256 →
    s.script = .busWrite (s.params.windowBase + off) bytes :: rest →
    (off % 8 ≠ 0 ∨ bytes.length ≠ 8) → step s = .refused .partialWordAccess) ∧
  (∀ (s : State) (off len : Nat) (rest : List HostAction), off < 8 * 256 →
    s.script = .busRead (s.params.windowBase + off) len :: rest →
    (off % 8 ≠ 0 ∨ len ≠ 8) → step s = .refused .partialWordAccess)

/-- The expansions of the pseudo-instructions do what their notes say: `mov` copies, but for negative
zero, which becomes zero; `neg` of a valid operand into another register writes its negation, and has no
expansion into its own; `clr` writes zero (30_encoding.md, pseudo-instructions). -/
def Obligations.PseudoInstructionsDoWhatTheyName : Prop :=
  (∀ (s : State) (d a : SIdx), expandPseudo (.mov d a) = some [.or d a a] ∧
    exec (.or d a a) s = .next (s.writeS d (norm (s.readS a)))) ∧
  (∀ (s : State) (d a : SIdx), d ≠ a → Valid (s.readS a) →
    expandPseudo (.neg d a) = some [.zero d, .sub d d a] ∧
    ∃ t, exec (.zero d) s = .next t ∧
      exec (.sub d d a) t = .next (s.writeS d (negate (s.readS a)))) ∧
  (∀ d : SIdx, expandPseudo (.neg d d) = none) ∧
  (∀ (s : State) (d : SIdx), expandPseudo (.clr d) = some [.zero d] ∧
    exec (.zero d) s = .next (s.writeS d ⟨false, 0⟩))
end

