-- ==== Sys2Proof/Laws/Encoding.lean ====
section
/-! SUPPORT. The fields of a command word and the word of the fields are inverse, and what each operand
reader of the decoder gives on the encoder's fields. -/

namespace Sys2Proof

/-- Packing the fields and taking them out again changes nothing (30_encoding.md R81). -/
theorem fieldsOf_pack (f : CmdFields) : fieldsOf f.pack = f := by
  obtain ⟨high, rsv, imm8, rs2, rs1, rd, op⟩ := f
  simp only [fieldsOf, CmdFields.pack, CmdFields.mk.injEq]
  refine ⟨?_, ?_, ?_, ?_, ?_, ?_, ?_⟩ <;>
  · apply BitVec.eq_of_getLsbD_eq
    intro i hi
    simp only [BitVec.getLsbD_extractLsb', BitVec.getLsbD_append, hi, decide_true, Bool.true_and]
    split_ifs <;> first | omega | (refine congrArg _ ?_; omega)

/-- Every word is the packing of its fields: no bit lies outside them (30_encoding.md R80, R81). -/
theorem pack_fieldsOf (w : Word64) : (fieldsOf w).pack = w := by
  apply BitVec.eq_of_getLsbD_eq
  intro i hi
  simp only [fieldsOf, CmdFields.pack, BitVec.getLsbD_append, BitVec.getLsbD_extractLsb']
  split_ifs <;>
  · rw [decide_eq_true (by omega), Bool.true_and]
    exact congrArg _ (by omega)

theorem sIndex_indexField (k : SIdx) : sIndex (indexField k) = .ok k := by
  revert k; decide

theorem utIndex_indexField (k : Fin 4) : utIndex (indexField k) = .ok k := by
  revert k; decide

end Sys2Proof
end

