-- ==== Sys2Proof/Laws/Limbs.lean ====
section
/-! SUPPORT. Limbs: the value of a list of limbs, the limbs of a value, and the bits of both. -/

namespace Sys2Proof.Machine

theorem limb_toNat (m : U256) (j : Nat) : (limb m j).toNat = m.toNat / 2 ^ (64 * j) % 2 ^ 64 := by
  simp [limb, Nat.shiftRight_eq_div_pow]

theorem limb_getLsbD (m : U256) (j t : Nat) (ht : t < 64) :
    (limb m j).getLsbD t = m.getLsbD (64 * j + t) := by
  simp [limb, ht]

theorem toLimbs_length (m : U256) : (toLimbs m).length = 4 := rfl

theorem limbsValue_toLimbs (m : U256) : limbsValue (toLimbs m) = m.toNat := by
  have := m.isLt
  simp only [toLimbs, limbsValue, limb_toNat]
  norm_num
  omega

theorem ofLimbs_toLimbs (m : U256) : ofLimbs (toLimbs m) = m := by
  simp [ofLimbs, limbsValue_toLimbs]

theorem limbsValue_lt (ls : List Word64) : limbsValue ls < 2 ^ (64 * ls.length) := by
  induction ls with
  | nil => simp [limbsValue]
  | cons l ls ih =>
    have hl := l.isLt
    have e : 2 ^ (64 * (l :: ls).length) = 2 ^ 64 * 2 ^ (64 * ls.length) := by
      rw [← pow_add]; simp; ring
    rw [limbsValue, e]
    nlinarith

theorem ofLimbs_toNat (ls : List Word64) (h : ls.length = 4) : (ofLimbs ls).toNat = limbsValue ls := by
  have := limbsValue_lt ls
  rw [h] at this
  exact (BitVec.toNat_ofNat ..).trans (Nat.mod_eq_of_lt this)

theorem toNat_append_eq {m n : Nat} (x : BitVec m) (y : BitVec n) :
    (x ++ y).toNat = x.toNat * 2 ^ n + y.toNat := by
  rw [BitVec.toNat_append, ← Nat.shiftLeft_add_eq_or_of_lt y.isLt, Nat.shiftLeft_eq]

theorem ofLimbs_append (a b c d : Word64) : ofLimbs [a, b, c, d] = d ++ (c ++ (b ++ a)) := by
  apply BitVec.eq_of_toNat_eq
  rw [ofLimbs_toNat _ rfl]
  simp only [limbsValue, toNat_append_eq]
  omega

/-- Bit `i` of a value made of four limbs is bit `i % 64` of limb `i / 64`. -/
theorem ofLimbs_getLsbD (a b c d : Word64) (i : Nat) :
    (ofLimbs [a, b, c, d]).getLsbD i =
      if i < 64 then a.getLsbD i
      else if i < 128 then b.getLsbD (i - 64)
      else if i < 192 then c.getLsbD (i - 128)
      else d.getLsbD (i - 192) := by
  rw [ofLimbs_append]
  simp only [BitVec.getLsbD_append]
  split_ifs <;> first | omega | (refine congrArg _ ?_; omega)

end Sys2Proof.Machine
end

