-- ==== Sys2Proof/Laws/Magnitude.lean ====
section
/-! SUPPORT. What each magnitude primitive computes, as one equation over whole numbers
(40_datapath.md R114 to R119): the limb-wise definitions need not be unfolded again. -/

namespace Sys2Proof.Machine

theorem addCarry_length (xs ys : List Word64) (c : Nat) (h : xs.length = ys.length) :
    (addCarry xs ys c).1.length = xs.length := by
  induction xs generalizing ys c with
  | nil => cases ys <;> simp_all [addCarry]
  | cons x xs ih =>
    cases ys with
    | nil => simp at h
    | cons y ys => simp [addCarry, ih ys _ (by simpa using h)]

/-- The limbs and the carry out of a limb-wise addition make up the exact sum. -/
theorem addCarry_value (xs ys : List Word64) (c : Nat) (h : xs.length = ys.length) :
    limbsValue (addCarry xs ys c).1 + 2 ^ (64 * xs.length) * (addCarry xs ys c).2 =
      limbsValue xs + limbsValue ys + c := by
  induction xs generalizing ys c with
  | nil => cases ys <;> simp_all [addCarry, limbsValue]
  | cons x xs ih =>
    cases ys with
    | nil => simp at h
    | cons y ys =>
      have e := ih ys ((x.toNat + y.toNat + c) >>> 64) (by simpa using h)
      have p : 2 ^ (64 * (x :: xs).length) = 2 ^ 64 * 2 ^ (64 * xs.length) := by
        rw [← pow_add]; simp; ring
      rw [Nat.shiftRight_eq_div_pow] at e
      simp only [addCarry, limbsValue, BitVec.toNat_ofNat, Nat.shiftRight_eq_div_pow]
      have d := Nat.div_add_mod (x.toNat + y.toNat + c) (2 ^ 64)
      rw [p, mul_assoc]
      generalize (addCarry xs ys ((x.toNat + y.toNat + c) / 2 ^ 64)).2 = c' at e ⊢
      generalize 2 ^ (64 * xs.length) * c' = k at e ⊢
      omega

theorem getLsbD_255 (r : U256) : r.getLsbD 255 = decide (2 ^ 255 ≤ r.toNat) := by
  have h := r.isLt
  rw [BitVec.getLsbD, Nat.testBit_eq_decide_div_mod_eq, decide_eq_decide]
  omega

/-- `add_without_sign` is the exact sum, or AdditionOverflow from `2^255` on (40_datapath.md R114). -/
theorem addWithoutSign_eq (x y : U256) :
    addWithoutSign x y =
      if x.toNat + y.toNat < 2 ^ 255 then .ok (x + y) else .error .additionOverflow := by
  have hv := addCarry_value (toLimbs x) (toLimbs y) 0 (by simp [toLimbs_length])
  have hl := addCarry_length (toLimbs x) (toLimbs y) 0 (by simp [toLimbs_length])
  rw [limbsValue_toLimbs, limbsValue_toLimbs, ← ofLimbs_toNat _ hl] at hv
  have hr := (ofLimbs (addCarry (toLimbs x) (toLimbs y) 0).1).isLt
  simp only [addWithoutSign, getLsbD_255]
  generalize (addCarry (toLimbs x) (toLimbs y) 0).2 = c at *
  generalize ofLimbs (addCarry (toLimbs x) (toLimbs y) 0).1 = r at *
  rw [toLimbs_length] at hv
  by_cases hs : x.toNat + y.toNat < 2 ^ 255
  · have hc : c = 0 := by omega
    subst hc
    have hr' : r = x + y := by
      apply BitVec.eq_of_toNat_eq
      rw [BitVec.toNat_add]
      omega
    rw [if_neg (by simp), if_neg (by rw [decide_eq_true_eq]; omega), if_pos hs, hr']
  · rw [if_neg hs]
    by_cases hc : c = 0
    · rw [if_neg (by simpa using hc), if_pos (by rw [decide_eq_true_eq]; subst hc; omega)]
    · rw [if_pos hc]

theorem subBorrow_length (xs ys : List Word64) (b : Nat) (h : xs.length = ys.length) :
    (subBorrow xs ys b).1.length = xs.length := by
  induction xs generalizing ys b with
  | nil => cases ys <;> simp_all [subBorrow]
  | cons x xs ih =>
    cases ys with
    | nil => simp at h
    | cons y ys =>
      simp only [subBorrow]
      split <;> simp [ih ys _ (by simpa using h)]

/-- The limbs and the borrow out of a limb-wise subtraction make up the exact difference. -/
theorem subBorrow_value (xs ys : List Word64) (b : Nat) (hb : b ≤ 1) (h : xs.length = ys.length) :
    limbsValue (subBorrow xs ys b).1 + limbsValue ys + b =
        limbsValue xs + 2 ^ (64 * xs.length) * (subBorrow xs ys b).2 ∧
      (subBorrow xs ys b).2 ≤ 1 := by
  induction xs generalizing ys b with
  | nil => cases ys <;> simp_all [subBorrow, limbsValue]
  | cons x xs ih =>
    cases ys with
    | nil => simp at h
    | cons y ys =>
      have p : 2 ^ (64 * (x :: xs).length) = 2 ^ 64 * 2 ^ (64 * xs.length) := by
        rw [← pow_add]; simp; ring
      have hx := x.isLt
      have hy := y.isLt
      simp only [subBorrow]
      split
      · obtain ⟨e, hb'⟩ := ih ys 1 (by omega) (by simpa using h)
        refine ⟨?_, hb'⟩
        simp only [limbsValue, BitVec.toNat_ofNat]
        rw [p, mul_assoc]
        generalize 2 ^ (64 * xs.length) * (subBorrow xs ys 1).2 = k at e ⊢
        omega
      · obtain ⟨e, hb'⟩ := ih ys 0 (by omega) (by simpa using h)
        refine ⟨?_, hb'⟩
        simp only [limbsValue, BitVec.toNat_ofNat]
        rw [p, mul_assoc]
        generalize 2 ^ (64 * xs.length) * (subBorrow xs ys 0).2 = k at e ⊢
        omega

/-- `sub_without_sign` is the exact difference, or SubtractionOverflow where it is negative or from
`2^255` on (40_datapath.md R115). -/
theorem subWithoutSign_eq (x y : U256) :
    subWithoutSign x y =
      if y.toNat ≤ x.toNat ∧ x.toNat - y.toNat < 2 ^ 255 then .ok (x - y)
      else .error .subtractionOverflow := by
  obtain ⟨hv, hb⟩ := subBorrow_value (toLimbs x) (toLimbs y) 0 (by omega) (by simp [toLimbs_length])
  have hl := subBorrow_length (toLimbs x) (toLimbs y) 0 (by simp [toLimbs_length])
  rw [limbsValue_toLimbs, limbsValue_toLimbs, ← ofLimbs_toNat _ hl] at hv
  have hr := (ofLimbs (subBorrow (toLimbs x) (toLimbs y) 0).1).isLt
  have hx := x.isLt
  have hy := y.isLt
  simp only [subWithoutSign, getLsbD_255]
  generalize (subBorrow (toLimbs x) (toLimbs y) 0).2 = c at *
  generalize ofLimbs (subBorrow (toLimbs x) (toLimbs y) 0).1 = r at *
  rw [toLimbs_length] at hv
  by_cases hs : y.toNat ≤ x.toNat ∧ x.toNat - y.toNat < 2 ^ 255
  · have hc : c = 0 := by omega
    subst hc
    have hr' : r = x - y := by
      apply BitVec.eq_of_toNat_eq
      rw [BitVec.toNat_sub]
      omega
    rw [if_neg (by simp), if_neg (by rw [decide_eq_true_eq]; omega), if_pos hs, hr']
  · rw [if_neg hs]
    by_cases hc : c = 0
    · rw [if_neg (by simpa using hc), if_pos (by rw [decide_eq_true_eq]; subst hc; omega)]
    · rw [if_pos hc]

/-- `ucmp` is the unsigned order (40_datapath.md R116). -/
theorem ucmp_eq (x y : U256) :
    ucmp x y =
      if x.toNat < y.toNat then .less else if x.toNat > y.toNat then .greater else .equal := by
  have hx := limbsValue_toLimbs x
  have hy := limbsValue_toLimbs y
  simp only [toLimbs, limbsValue] at hx hy
  have := (limb x 0).isLt
  have := (limb x 1).isLt
  have := (limb x 2).isLt
  have := (limb x 3).isLt
  have := (limb y 0).isLt
  have := (limb y 1).isLt
  have := (limb y 2).isLt
  have := (limb y 3).isLt
  simp only [ucmp, toLimbs, List.reverse_cons, List.reverse_nil, List.nil_append, List.cons_append,
    lexOrder]
  rw [← hx, ← hy]
  repeat' split
  all_goals first | rfl | omega

theorem complementLimbs_length (ls : List Word64) (c : Nat) : (complementLimbs ls c).length = ls.length := by
  induction ls generalizing c with
  | nil => rfl
  | cons l ls ih => simp [complementLimbs, ih]

/-- The complemented limbs with a carry of at most 1 are the two's complement. -/
theorem complementLimbs_value (ls : List Word64) (c : Nat) (hc : c ≤ 1) :
    limbsValue (complementLimbs ls c) =
      (2 ^ (64 * ls.length) - 1 - limbsValue ls + c) % 2 ^ (64 * ls.length) := by
  induction ls generalizing c with
  | nil => simp [complementLimbs, limbsValue, Nat.mod_one]
  | cons l ls ih =>
    have hl := l.isLt
    have hls := limbsValue_lt ls
    have hcl : (~~~l).toNat = 2 ^ 64 - 1 - l.toNat := by simp
    have hc' : ((~~~l).toNat + c) >>> 64 ≤ 1 := by
      rw [Nat.shiftRight_eq_div_pow]; omega
    have p : 2 ^ (64 * (l :: ls).length) = 2 ^ 64 * 2 ^ (64 * ls.length) := by
      rw [← pow_add]; simp; ring
    have hp : 0 < 2 ^ (64 * ls.length) := by positivity
    simp only [complementLimbs, limbsValue, ih _ hc', BitVec.toNat_ofNat, p]
    rw [Nat.shiftRight_eq_div_pow, hcl]
    generalize limbsValue ls = v at *
    generalize 2 ^ (64 * ls.length) = q at *
    rw [Nat.mod_mul]
    have e : 2 ^ 64 * q - 1 - (l.toNat + 2 ^ 64 * v) + c =
        (2 ^ 64 - 1 - l.toNat + c) + 2 ^ 64 * (q - 1 - v) := by
      have : 2 ^ 64 * (q - 1 - v) = 2 ^ 64 * q - 2 ^ 64 - 2 ^ 64 * v := by
        rw [Nat.mul_sub, Nat.mul_sub, mul_one]
      have h1 : 2 ^ 64 * (v + 1) ≤ 2 ^ 64 * q := Nat.mul_le_mul_left _ hls
      omega
    rw [e, Nat.add_mul_mod_self_left, Nat.add_mul_div_left _ _ (by positivity)]
    rw [add_comm ((2 ^ 64 - 1 - l.toNat + c) / 2 ^ 64)]

/-- The pattern of a negative value is the negated magnitude; a non-negative value is unchanged
(40_datapath.md R117). -/
theorem tc_eq (a : I256) : tc a = ⟨a.neg, if a.neg then -a.mag else a.mag⟩ := by
  obtain ⟨n, m⟩ := a
  cases n with
  | false => rfl
  | true =>
    simp only [tc, if_true, I256.mk.injEq, true_and]
    apply BitVec.eq_of_toNat_eq
    have hm := m.isLt
    rw [ofLimbs_toNat _ (by simp [complementLimbs_length, toLimbs]),
      complementLimbs_value _ _ (le_refl 1), limbsValue_toLimbs, BitVec.toNat_neg]
    have : 64 * (toLimbs m).length = 256 := rfl
    rw [this]
    congr 1
    omega

/-- `tc` is its own inverse (40_datapath.md R117). -/
theorem tc_tc (a : I256) : tc (tc a) = a := by
  obtain ⟨n, m⟩ := a
  cases n <;> simp [tc_eq]

/-- `narrow` gives the product back below `2^255` and raises MultiplicationOverflow from there on
(40_datapath.md R118). -/
theorem narrow_eq (p : List Word64) (hp : p.length = 8) :
    narrow p =
      if limbsValue p < 2 ^ 255 then .ok (BitVec.ofNat 256 (limbsValue p))
      else .error .multiplicationOverflow := by
  match p, hp with
  | [a, b, c, d, e, f, g, h], _ =>
    have ha := a.isLt
    have hb := b.isLt
    have hc := c.isLt
    have hd := d.isLt
    have bit : d.getLsbD 63 = decide (2 ^ 63 ≤ d.toNat) := by
      rw [BitVec.getLsbD, Nat.testBit_eq_decide_div_mod_eq, decide_eq_decide]
      omega
    have z : ∀ w : Word64, w ≠ 0 ↔ w.toNat ≠ 0 := fun w => by
      rw [ne_eq, ne_eq, ← BitVec.toNat_inj]; rfl
    have any : ([e, f, g, h].any (· ≠ 0)) = true ↔ ¬ (e.toNat = 0 ∧ f.toNat = 0 ∧ g.toNat = 0 ∧ h.toNat = 0) := by
      simp only [List.any_cons, List.any_nil, Bool.or_false, Bool.or_eq_true, decide_eq_true_eq, z]
      omega
    have value : limbsValue [a, b, c, d, e, f, g, h] =
        limbsValue [a, b, c, d] + 2 ^ 256 * limbsValue [e, f, g, h] := by
      simp only [limbsValue]; ring
    have small : limbsValue [a, b, c, d] < 2 ^ 255 ↔ ¬ 2 ^ 63 ≤ d.toNat := by
      simp only [limbsValue]; omega
    have high : limbsValue [e, f, g, h] = 0 ↔ e.toNat = 0 ∧ f.toNat = 0 ∧ g.toNat = 0 ∧ h.toNat = 0 := by
      simp only [limbsValue]; omega
    show (if [e, f, g, h].any (· ≠ 0) = true then _ else
      if d.getLsbD 63 = true then _ else Except.ok (ofLimbs [a, b, c, d])) = _
    rw [bit, value, ofLimbs]
    generalize limbsValue [a, b, c, d] = lo at *
    generalize limbsValue [e, f, g, h] = hi at *
    by_cases h0 : hi = 0
    · rw [if_neg (by rw [any, ← high, not_not]; exact h0), h0]
      by_cases ht : 2 ^ 63 ≤ d.toNat
      · rw [if_pos (by simpa using ht), if_neg (by omega)]
      · rw [if_neg (by simpa using ht), if_pos (by omega), mul_zero, add_zero]
    · rw [if_pos (by rw [any, ← high]; exact h0), if_neg (by omega)]

theorem addAt_length (ls : List Word64) (k v : Nat) : (addAt ls k v).length = ls.length := by
  induction ls generalizing k v with
  | nil => rfl
  | cons l ls ih => cases k <;> simp [addAt, ih]

/-- Adding into limb `k` adds `v * 2^(64 k)`, up to the carry out of the last limb. -/
theorem addAt_value (ls : List Word64) (k v : Nat) :
    limbsValue (addAt ls k v) = (limbsValue ls + v * 2 ^ (64 * k)) % 2 ^ (64 * ls.length) := by
  induction ls generalizing k v with
  | nil => simp [addAt, limbsValue, Nat.mod_one]
  | cons l ls ih =>
    have p : 2 ^ (64 * (l :: ls).length) = 2 ^ 64 * 2 ^ (64 * ls.length) := by
      rw [← pow_add]; simp; ring
    have hl := l.isLt
    cases k with
    | zero =>
      simp only [addAt, limbsValue, ih, BitVec.toNat_ofNat, p, Nat.shiftRight_eq_div_pow, mul_zero,
        pow_zero, mul_one]
      rw [Nat.mod_mul]
      have e : l.toNat + 2 ^ 64 * limbsValue ls + v = (l.toNat + v) + 2 ^ 64 * limbsValue ls := by ring
      rw [e, Nat.add_mul_mod_self_left, Nat.add_mul_div_left _ _ (by positivity), add_comm (limbsValue ls)]
    | succ k =>
      simp only [addAt, limbsValue, ih, p]
      rw [Nat.mod_mul]
      have e : l.toNat + 2 ^ 64 * limbsValue ls + v * 2 ^ (64 * (k + 1)) =
          l.toNat + 2 ^ 64 * (limbsValue ls + v * 2 ^ (64 * k)) := by
        rw [show 64 * (k + 1) = 64 + 64 * k by ring, pow_add]; ring
      rw [e, Nat.add_mul_mod_self_left, Nat.add_mul_div_left _ _ (by positivity),
        Nat.mod_eq_of_lt hl, Nat.div_eq_of_lt hl, zero_add]

theorem accumulatePair_length (x y : U256) (acc : List Word64) (ij : Nat × Nat) :
    (accumulatePair x y acc ij).length = acc.length := by
  simp [accumulatePair, addAt_length]

/-- One step of the schoolbook product adds the limb product at its place. -/
theorem accumulatePair_value (x y : U256) (acc : List Word64) (ij : Nat × Nat) :
    limbsValue (accumulatePair x y acc ij) =
      (limbsValue acc + (limb x ij.1).toNat * (limb y ij.2).toNat * 2 ^ (64 * (ij.1 + ij.2))) %
        2 ^ (64 * acc.length) := by
  simp only [accumulatePair, addAt_value, addAt_length, Nat.shiftRight_eq_div_pow]
  rw [Nat.mod_add_mod]
  refine congrArg (· % 2 ^ (64 * acc.length)) ?_
  rw [show 64 * (ij.1 + ij.2 + 1) = 64 + 64 * (ij.1 + ij.2) by ring, pow_add, add_assoc]
  refine congrArg (limbsValue acc + ·) ?_
  generalize (limb x ij.1).toNat * (limb y ij.2).toNat = q
  generalize 2 ^ (64 * (ij.1 + ij.2)) = z
  calc q % 2 ^ 64 * z + q / 2 ^ 64 * (2 ^ 64 * z) = (q % 2 ^ 64 + 2 ^ 64 * (q / 2 ^ 64)) * z := by ring
    _ = q * z := by rw [Nat.mod_add_div]

theorem dmul_length (x y : U256) : (dmul x y).length = 8 := by
  simp [dmul, limbPairs, accumulatePair_length]

/-- The limb product a pair of indices contributes, at its place. -/
def pairValue (x y : U256) (ij : Nat × Nat) : Nat :=
  (limb x ij.1).toNat * (limb y ij.2).toNat * 2 ^ (64 * (ij.1 + ij.2))

/-- The accumulator after some pairs holds the sum of their products. -/
theorem foldl_accumulatePair_value (x y : U256) (n : Nat) (ps : List (Nat × Nat)) (acc : List Word64)
    (ha : acc.length = n) :
    limbsValue (ps.foldl (accumulatePair x y) acc) =
      (limbsValue acc + (ps.map (pairValue x y)).sum) % 2 ^ (64 * n) := by
  induction ps generalizing acc with
  | nil =>
    have := limbsValue_lt acc
    rw [ha] at this
    rw [List.foldl_nil, List.map_nil, List.sum_nil, add_zero, Nat.mod_eq_of_lt this]
  | cons p ps ih =>
    rw [List.foldl_cons, ih _ (by rw [accumulatePair_length, ha]), accumulatePair_value, ha,
      List.map_cons, List.sum_cons, ← add_assoc, Nat.mod_add_mod, pairValue]

/-- Schoolbook multiplication in any base. -/
theorem schoolbook (z : Nat) (a b : Nat → Nat) :
    (limbPairs.map (fun ij => a ij.1 * b ij.2 * z ^ (ij.1 + ij.2))).sum =
      (a 0 + z * (a 1 + z * (a 2 + z * a 3))) * (b 0 + z * (b 1 + z * (b 2 + z * b 3))) := by
  simp only [limbPairs, List.map_append, List.map_cons, List.map_nil, List.sum_append, List.sum_cons,
    List.sum_nil]
  ring

/-- The limb products of all pairs add up to the product. -/
theorem limbPairs_sum (x y : U256) : (limbPairs.map (pairValue x y)).sum = x.toNat * y.toNat := by
  have e : pairValue x y =
      fun ij => (limb x ij.1).toNat * (limb y ij.2).toNat * (2 ^ 64) ^ (ij.1 + ij.2) :=
    funext fun ij => congrArg _ (pow_mul 2 64 (ij.1 + ij.2))
  rw [e, schoolbook (2 ^ 64) (fun i => (limb x i).toNat) (fun j => (limb y j).toNat),
    ← limbsValue_toLimbs x, ← limbsValue_toLimbs y]
  simp only [toLimbs, limbsValue, mul_zero, add_zero]

theorem toNat_mul_lt (x y : U256) : x.toNat * y.toNat < 2 ^ (64 * 8) := by
  have := Nat.mul_lt_mul'' x.isLt y.isLt
  rwa [← pow_add, show 256 + 256 = 64 * 8 from rfl] at this

/-- The schoolbook product is the exact product (40_datapath.md R119). -/
theorem dmul_value (x y : U256) : limbsValue (dmul x y) = x.toNat * y.toNat := by
  have start : limbsValue (List.replicate 8 (0 : Word64)) = 0 := by decide
  rw [dmul, foldl_accumulatePair_value x y 8 _ _ (List.length_replicate ..), start, zero_add,
    limbPairs_sum, Nat.mod_eq_of_lt (toNat_mul_lt x y)]

/-- MUL's magnitude step: the product below `2^255`, or MultiplicationOverflow (43_mul.md R150). -/
theorem narrow_dmul (x y : U256) :
    narrow (dmul x y) =
      if x.toNat * y.toNat < 2 ^ 255 then .ok (x * y) else .error .multiplicationOverflow := by
  rw [narrow_eq _ (dmul_length x y), dmul_value, BitVec.ofNat_mul, BitVec.ofNat_toNat, BitVec.ofNat_toNat,
    BitVec.setWidth_eq, BitVec.setWidth_eq]

/-- The limb-wise shift is the logical shift of the pattern (44_shift_or_complement.md R160). -/
theorem shiftLimbs_eq (p : U256) (n : Nat) (hn : n < 256) : shiftLimbs p n = p >>> n := by
  apply BitVec.eq_of_getLsbD_eq
  intro i hi
  have sl : ∀ j t, j ≤ 3 → t < 64 → (shiftedLimb p n j).getLsbD t = p.getLsbD (n + (64 * j + t)) := by
    intro j t hj ht
    simp only [shiftedLimb, BitVec.getLsbD_ofNat, ht, decide_true, Bool.true_and, Nat.testBit_or,
      Nat.testBit_shiftRight, Nat.testBit_shiftLeft]
    have lo : ∀ k u, (limb p k).toNat.testBit u = (decide (u < 64) && p.getLsbD (64 * k + u)) := by
      intro k u
      by_cases hu : u < 64
      · exact (limb_getLsbD p k u hu).trans (by simp [hu])
      · exact (BitVec.getLsbD_of_ge (limb p k) u (by omega)).trans (by simp [hu])
    by_cases hs : n % 64 + t < 64
    · rw [show decide (t ≥ 64 - n % 64) = false by simp; omega, Bool.false_and, Bool.or_false]
      split
      · rw [lo]
        simp only [hs, decide_true, Bool.true_and]
        exact congrArg p.getLsbD (by omega)
      · simp only [Nat.zero_testBit]
        exact (BitVec.getLsbD_of_ge p _ (by omega)).symm
    · rw [show decide (t ≥ 64 - n % 64) = true by simp; omega, Bool.true_and]
      have h1 : (if j + n / 64 ≤ 3 then (limb p (j + n / 64)).toNat else 0).testBit (n % 64 + t) = false := by
        split
        · rw [lo]; simp [hs]
        · exact Nat.zero_testBit _
      rw [h1, Bool.false_or]
      split
      · rename_i hc
        rw [lo, show decide (t - (64 - n % 64) < 64) = true by simp; omega, Bool.true_and]
        exact congrArg p.getLsbD (by omega)
      · rename_i hc
        simp only [Nat.zero_testBit]
        exact (BitVec.getLsbD_of_ge p _ (by omega)).symm
  simp only [shiftLimbs, List.map_cons, List.map_nil, ofLimbs_getLsbD, BitVec.getLsbD_ushiftRight]
  split_ifs
  · rw [sl _ _ (by omega) (by omega)]; exact congrArg p.getLsbD (by omega)
  · rw [sl _ _ (by omega) (by omega)]; exact congrArg p.getLsbD (by omega)
  · rw [sl _ _ (by omega) (by omega)]; exact congrArg p.getLsbD (by omega)
  · rw [sl _ _ (by omega) (by omega)]; exact congrArg p.getLsbD (by omega)

/-- The limb-wise OR is the OR of the patterns (44_shift_or_complement.md R161). -/
theorem orLimbs_eq (x y : U256) :
    ofLimbs (List.zipWith (· ||| ·) (toLimbs x) (toLimbs y)) = x ||| y := by
  apply BitVec.eq_of_getLsbD_eq
  intro i hi
  have at_limb : ∀ j t, t < 64 → 64 * j + t = i →
      (limb x j ||| limb y j).getLsbD t = (x.getLsbD i || y.getLsbD i) := by
    intro j t ht e
    rw [BitVec.getLsbD_or, limb_getLsbD _ _ _ ht, limb_getLsbD _ _ _ ht, e]
  simp only [toLimbs, List.zipWith_cons_cons, List.zipWith_nil_right, ofLimbs_getLsbD]
  rw [BitVec.getLsbD_or (x := x)]
  split_ifs
  · exact at_limb 0 i (by omega) (by omega)
  · exact at_limb 1 (i - 64) (by omega) (by omega)
  · exact at_limb 2 (i - 128) (by omega) (by omega)
  · exact at_limb 3 (i - 192) (by omega) (by omega)

end Sys2Proof.Machine
end

