-- ==== Sys2Proof/Laws/Substrate.lean ====
section
/-! SUPPORT. What each substrate operation computes, over whole numbers (40_datapath.md R120, R121). -/

namespace Sys2Proof.Machine

theorem toU256_ok (z : Int) (h0 : 0 ≤ z) (h1 : z < 2 ^ 256) : toU256 z = .ok (BitVec.ofNat 256 z.toNat) :=
  if_pos ⟨h0, h1⟩

theorem umul_eq (a b : U256) :
    umul a b =
      if a.toNat * b.toNat < 2 ^ 256 then .ok (BitVec.ofNat 256 (a.toNat * b.toNat))
      else .error .substrateFault := by
  rw [umul, toU256]
  by_cases h : a.toNat * b.toNat < 2 ^ 256
  · rw [if_pos h, if_pos]
    · rfl
    · exact ⟨by positivity, by exact_mod_cast h⟩
  · rw [if_neg h, if_neg]
    intro c; exact h (by exact_mod_cast c.2)

theorem uadd_eq (a b : U256) :
    uadd a b =
      if a.toNat + b.toNat < 2 ^ 256 then .ok (BitVec.ofNat 256 (a.toNat + b.toNat))
      else .error .substrateFault := by
  rw [uadd, toU256]
  by_cases h : a.toNat + b.toNat < 2 ^ 256
  · rw [if_pos h, if_pos]
    · rfl
    · exact ⟨by positivity, by exact_mod_cast h⟩
  · rw [if_neg h, if_neg]
    intro c; exact h (by exact_mod_cast c.2)

theorem ushr_toNat (a : U256) (n : Nat) : (ushr a n).toNat = a.toNat / 2 ^ n := by
  rw [ushr, BitVec.toNat_ofNat, Nat.shiftRight_eq_div_pow, Nat.mod_eq_of_lt]
  exact (Nat.div_le_self _ _).trans_lt a.isLt

theorem ushl_toNat (a : U256) (n : Nat) : (ushl a n).toNat = a.toNat * 2 ^ n % 2 ^ 256 := by
  rw [ushl, BitVec.toNat_ofNat, Nat.shiftLeft_eq]

/-- The wrapped shift is one shift by the whole amount (47_log_price.md R225). -/
theorem wrappedShift_eq (turns : Nat) (x : U256) (sh : Nat) : wrappedShift turns x sh = ushr x sh := by
  induction turns generalizing x sh with
  | zero => rfl
  | succ turns ih =>
    rw [wrappedShift]
    split
    · rw [ih]
      apply BitVec.eq_of_toNat_eq
      rw [ushr_toNat, ushr_toNat, ushr_toNat, Nat.div_div_eq_div_mul, ← pow_add,
        show 255 + (sh - 255) = sh by omega]
    · rfl

theorem ival_range (t : I64) : -2 ^ 63 ≤ ival t ∧ ival t ≤ 2 ^ 63 - 1 := by
  have h1 := BitVec.le_toInt t
  have h2 := BitVec.toInt_lt (x := t)
  rw [ival]
  norm_num at h1 h2 ⊢
  omega

/-- An integer in range is the value of its I64. -/
theorem ival_ofInt (z : Int) (h0 : -2 ^ 63 ≤ z) (h1 : z ≤ 2 ^ 63 - 1) : ival (BitVec.ofInt 64 z) = z := by
  rw [ival, BitVec.toInt_ofInt, Int.bmod_eq_of_le] <;> norm_num at * <;> omega

/-- `abs` and `as_u64` of a tick: its magnitude, or the caller's error for `-2^63`
(40_datapath.md R121). -/
theorem absI64_eq (e : AuError) (t : I64) :
    absI64 e t = if ival t = -2 ^ 63 then .error e else .ok (BitVec.ofInt 64 (ival t).natAbs) := by
  have := ival_range t
  rw [absI64, toI64]
  split <;> split <;> first | rfl | omega

theorem asU64_abs (e : AuError) (t : I64) (h : ival t ≠ -2 ^ 63) :
    asU64 e (BitVec.ofInt 64 (ival t).natAbs) = .ok (BitVec.ofNat 64 (ival t).natAbs) := by
  have := ival_range t
  rw [asU64, isNegI64, ival_ofInt _ (by omega) (by omega), if_neg (by rw [decide_eq_true_eq]; omega)]
  congr 1

theorem abs_toNat (t : I64) : (BitVec.ofNat 64 (ival t).natAbs).toNat = (ival t).natAbs := by
  have := ival_range t
  rw [BitVec.toNat_ofNat, Nat.mod_eq_of_lt]
  omega

end Sys2Proof.Machine
end

