-- ==== Sys2Proof/Laws/Errors.lean ====
section
/-! SUPPORT. Which errors each value can raise (60_exceptions.md R251). None of them is
LimbIndexOutOfRange (40_datapath.md R113). -/

namespace Sys2Proof.Machine

theorem withSign_error (n : Bool) (m : Except AuError U256) (e : AuError) :
    withSign n m = .error e ↔ m = .error e := by
  cases m <;> simp [withSign, Except.map]

theorem addWithoutSign_error (x y : U256) (e : AuError) (h : addWithoutSign x y = .error e) :
    e = .additionOverflow := by
  rw [addWithoutSign_eq] at h
  split at h <;> cases h; rfl

theorem subWithoutSign_error (x y : U256) (e : AuError) (h : subWithoutSign x y = .error e) :
    e = .subtractionOverflow := by
  rw [subWithoutSign_eq] at h
  split at h <;> cases h; rfl

theorem addValue_error (a b : I256) (e : AuError) (h : addValue a b = .error e) :
    e = .additionOverflow ∨ e = .subtractionOverflow := by
  rw [addValue] at h
  split at h
  · exact .inl (addWithoutSign_error _ _ _ ((withSign_error ..).mp h))
  · split at h <;> exact .inr (subWithoutSign_error _ _ _ ((withSign_error ..).mp h))

theorem subValue_error (a b : I256) (e : AuError) (h : subValue a b = .error e) :
    e = .additionOverflow ∨ e = .subtractionOverflow := by
  rw [subValue] at h
  split at h
  · exact .inl (addWithoutSign_error _ _ _ ((withSign_error ..).mp h))
  · split at h <;> exact .inr (subWithoutSign_error _ _ _ ((withSign_error ..).mp h))

theorem mulValue_error (a b : I256) (e : AuError) (h : mulValue a b = .error e) :
    e = .multiplicationOverflow := by
  rw [mulValue, withSign_error, narrow_dmul] at h
  split at h <;> cases h; rfl

theorem fromUValue_error (u : U256) (e : AuError) (h : fromUValue u = .error e) : e = .conversionOverflow := by
  rw [fromUValue] at h
  split at h <;> cases h; rfl

theorem fromU128Value_error (u : U256) (n : Bool) (e : AuError) (h : fromU128Value u n = .error e) :
    e = .conversionOverflow := by
  rw [fromU128Value] at h
  split at h <;> cases h; rfl

theorem toI64_error (e e' : AuError) (z : Int) (h : toI64 e z = .error e') : e' = e := by
  rw [toI64] at h
  split at h <;> cases h; rfl

theorem asI64Value_error (a : I256) (e : AuError) (h : asI64Value a = .error e) : e = .castOverflow := by
  rw [asI64Value] at h
  split at h
  · cases h; rfl
  · split at h <;> exact toI64_error _ _ _ h

theorem umul_error (a b : U256) (e : AuError) (h : umul a b = .error e) : e = .substrateFault := by
  rw [umul_eq] at h
  split at h <;> cases h; rfl

theorem uadd_error (a b : U256) (e : AuError) (h : uadd a b = .error e) : e = .substrateFault := by
  rw [uadd_eq] at h
  split at h <;> cases h; rfl

theorem udiv_error (a b : U256) (e : AuError) (h : udiv a b = .error e) : e = .substrateFault := by
  rw [udiv] at h
  split at h <;> cases h; rfl

/-- A sequence fails where its first part fails or its second does. -/
theorem bind_error {α β : Type} (x : Except AuError α) (f : α → Except AuError β) (e : AuError)
    (h : (x >>= f) = .error e) : x = .error e ∨ ∃ a, x = .ok a ∧ f a = .error e := by
  cases x with
  | error e' => cases h; exact .inl rfl
  | ok a => exact .inr ⟨a, rfl, h⟩

/-- A sequence succeeds where both its parts do. -/
theorem bind_ok {α β : Type} (x : Except AuError α) (f : α → Except AuError β) (b : β)
    (h : (x >>= f) = .ok b) : ∃ a, x = .ok a ∧ f a = .ok b := by
  cases x with
  | error e => cases h
  | ok a => exact ⟨a, rfl, h⟩

theorem sqrtRounds_error (n : Nat) (cs : List U256) (k : Nat) (acc : U256) (e : AuError)
    (h : sqrtRounds n cs k acc = .error e) : e = .substrateFault := by
  induction cs generalizing k acc with
  | nil => cases h
  | cons c cs ih =>
    rw [sqrtRounds] at h
    split at h
    · obtain h | ⟨p, -, h⟩ := bind_error _ _ _ h
      · exact umul_error _ _ _ h
      · exact ih _ _ h
    · exact ih _ _ h

theorem sqrtPrice_error (p : Params) (t : I64) (e : AuError) (h : sqrtPrice p t = .error e) :
    e = .substrateFault := by
  rw [sqrtPrice] at h
  obtain h | ⟨m, -, h⟩ := bind_error _ _ _ h
  · exact toI64_error _ _ _ h
  obtain h | ⟨w, -, h⟩ := bind_error _ _ _ h
  · rw [asU64] at h; split at h <;> cases h; rfl
  split at h
  · cases h; rfl
  obtain h | ⟨acc, -, h⟩ := bind_error _ _ _ h
  · exact sqrtRounds_error _ _ _ _ _ h
  obtain h | ⟨r, -, h⟩ := bind_error _ _ _ h
  · rw [sqrtRatio] at h
    split at h
    · exact udiv_error _ _ _ h
    · cases h
  rw [ceilShift32] at h
  split at h
  · exact uadd_error _ _ _ h
  · cases h

theorem squareStep_error (x : U256) (l2 : I256) (off : Nat) (e : AuError)
    (h : squareStep x l2 off = .error e) : e = .substrateFault := by
  rw [squareStep] at h
  obtain h | ⟨sq, -, h⟩ := bind_error _ _ _ h
  · exact umul_error _ _ _ h
  · cases h

theorem stepRounds_error (offs : List Nat) (x : U256) (l2 : I256) (e : AuError)
    (h : stepRounds offs x l2 = .error e) : e = .substrateFault := by
  induction offs generalizing x l2 with
  | nil => cases h
  | cons off offs ih =>
    rw [stepRounds] at h
    obtain h | ⟨r, -, h⟩ := bind_error _ _ _ h
    · exact squareStep_error _ _ _ _ h
    · exact ih _ _ h

/-- The errors LOGSP can raise (60_exceptions.md R251). -/
theorem logPrice_error (p : Params) (price : U256) (e : AuError) (h : logPrice p price = .error e) :
    e = .substrateFault ∨ e = .multiplicationOverflow ∨ e = .additionOverflow ∨ e = .subtractionOverflow ∨
      e = .castOverflow := by
  rw [logPrice] at h
  obtain h | ⟨b, -, h⟩ := bind_error _ _ _ h
  · rw [logBounds] at h
    obtain h | ⟨l2, -, h⟩ := bind_error _ _ _ h
    · rw [logTwo] at h
      obtain h | ⟨r, -, h⟩ := bind_error _ _ _ h
      · exact .inl (stepRounds_error _ _ _ _ h)
      · rw [stepLast] at h
        obtain h | ⟨r', -, h⟩ := bind_error _ _ _ h
        · exact .inl (squareStep_error _ _ _ _ h)
        · cases h
    obtain h | ⟨ls, -, h⟩ := bind_error _ _ _ h
    · exact .inr (.inl (mulValue_error _ _ _ h))
    obtain h | ⟨lo, -, h⟩ := bind_error _ _ _ h
    · rw [lowerBound] at h
      obtain h | ⟨d, -, h⟩ := bind_error _ _ _ h
      · rcases subValue_error _ _ _ h with h | h <;> simp [h]
      · simp [asI64Value_error _ _ h]
    obtain h | ⟨hi, -, h⟩ := bind_error _ _ _ h
    · rw [upperBound] at h
      obtain h | ⟨d, -, h⟩ := bind_error _ _ _ h
      · rcases addValue_error _ _ _ h with h | h <;> simp [h]
      · simp [asI64Value_error _ _ h]
    · cases h
  · rw [stepPick] at h
    split at h
    · cases h
    · obtain h | ⟨r, -, h⟩ := bind_error _ _ _ h
      · exact .inl (sqrtPrice_error _ _ _ h)
      · cases h

end Sys2Proof.Machine
end

