-- ==== Sys2Proof/Laws/State.lean ====
section
/-! SUPPORT. One lemma per field per update of the state, each true by unfolding, and what the register
reads give after each register write. -/

namespace Sys2Proof.Machine

/-! The fields after `State.writeS`. -/

@[simp] theorem State.writeS_sregs (s : State) (k : SIdx) (v : I256) : (s.writeS k v).sregs = s.sregs.set k v := rfl
@[simp] theorem State.writeS_uregs (s : State) (k : SIdx) (v : I256) : (s.writeS k v).uregs = s.uregs := rfl
@[simp] theorem State.writeS_tregs (s : State) (k : SIdx) (v : I256) : (s.writeS k v).tregs = s.tregs := rfl
@[simp] theorem State.writeS_ord (s : State) (k : SIdx) (v : I256) : (s.writeS k v).ord = s.ord := rfl
@[simp] theorem State.writeS_status (s : State) (k : SIdx) (v : I256) : (s.writeS k v).status = s.status := rfl
@[simp] theorem State.writeS_written (s : State) (k : SIdx) (v : I256) : (s.writeS k v).written = { s.written with sMag := s.written.sMag.set k allWritten, sNeg := s.written.sNeg.set k true } := rfl
@[simp] theorem State.writeS_script (s : State) (k : SIdx) (v : I256) : (s.writeS k v).script = s.script := rfl
@[simp] theorem State.writeS_replies (s : State) (k : SIdx) (v : I256) : (s.writeS k v).replies = s.replies := rfl
@[simp] theorem State.writeS_params (s : State) (k : SIdx) (v : I256) : (s.writeS k v).params = s.params := rfl

/-! The fields after `State.writeU`. -/

@[simp] theorem State.writeU_sregs (s : State) (k : UIdx) (v : U256) : (s.writeU k v).sregs = s.sregs := rfl
@[simp] theorem State.writeU_uregs (s : State) (k : UIdx) (v : U256) : (s.writeU k v).uregs = s.uregs.set k v := rfl
@[simp] theorem State.writeU_tregs (s : State) (k : UIdx) (v : U256) : (s.writeU k v).tregs = s.tregs := rfl
@[simp] theorem State.writeU_ord (s : State) (k : UIdx) (v : U256) : (s.writeU k v).ord = s.ord := rfl
@[simp] theorem State.writeU_status (s : State) (k : UIdx) (v : U256) : (s.writeU k v).status = s.status := rfl
@[simp] theorem State.writeU_written (s : State) (k : UIdx) (v : U256) : (s.writeU k v).written = { s.written with uLimb := s.written.uLimb.set k allWritten } := rfl
@[simp] theorem State.writeU_script (s : State) (k : UIdx) (v : U256) : (s.writeU k v).script = s.script := rfl
@[simp] theorem State.writeU_replies (s : State) (k : UIdx) (v : U256) : (s.writeU k v).replies = s.replies := rfl
@[simp] theorem State.writeU_params (s : State) (k : UIdx) (v : U256) : (s.writeU k v).params = s.params := rfl

/-! The fields after `State.writeT`. -/

@[simp] theorem State.writeT_sregs (s : State) (k : TIdx) (v : I64) : (s.writeT k v).sregs = s.sregs := rfl
@[simp] theorem State.writeT_uregs (s : State) (k : TIdx) (v : I64) : (s.writeT k v).uregs = s.uregs := rfl
@[simp] theorem State.writeT_tregs (s : State) (k : TIdx) (v : I64) : (s.writeT k v).tregs = s.tregs.set k v := rfl
@[simp] theorem State.writeT_ord (s : State) (k : TIdx) (v : I64) : (s.writeT k v).ord = s.ord := rfl
@[simp] theorem State.writeT_status (s : State) (k : TIdx) (v : I64) : (s.writeT k v).status = s.status := rfl
@[simp] theorem State.writeT_written (s : State) (k : TIdx) (v : I64) : (s.writeT k v).written = { s.written with tWord := s.written.tWord.set k true } := rfl
@[simp] theorem State.writeT_script (s : State) (k : TIdx) (v : I64) : (s.writeT k v).script = s.script := rfl
@[simp] theorem State.writeT_replies (s : State) (k : TIdx) (v : I64) : (s.writeT k v).replies = s.replies := rfl
@[simp] theorem State.writeT_params (s : State) (k : TIdx) (v : I64) : (s.writeT k v).params = s.params := rfl

/-! The fields after `State.writeOrd`. -/

@[simp] theorem State.writeOrd_sregs (s : State) (o : Order) : (s.writeOrd o).sregs = s.sregs := rfl
@[simp] theorem State.writeOrd_uregs (s : State) (o : Order) : (s.writeOrd o).uregs = s.uregs := rfl
@[simp] theorem State.writeOrd_tregs (s : State) (o : Order) : (s.writeOrd o).tregs = s.tregs := rfl
@[simp] theorem State.writeOrd_ord (s : State) (o : Order) : (s.writeOrd o).ord = o := rfl
@[simp] theorem State.writeOrd_status (s : State) (o : Order) : (s.writeOrd o).status = s.status := rfl
@[simp] theorem State.writeOrd_written (s : State) (o : Order) : (s.writeOrd o).written = { s.written with ord := true } := rfl
@[simp] theorem State.writeOrd_script (s : State) (o : Order) : (s.writeOrd o).script = s.script := rfl
@[simp] theorem State.writeOrd_replies (s : State) (o : Order) : (s.writeOrd o).replies = s.replies := rfl
@[simp] theorem State.writeOrd_params (s : State) (o : Order) : (s.writeOrd o).params = s.params := rfl

/-! The fields after `State.raise`. -/

@[simp] theorem State.raise_sregs (s : State) (e : AuError) : (s.raise e).sregs = s.sregs := rfl
@[simp] theorem State.raise_uregs (s : State) (e : AuError) : (s.raise e).uregs = s.uregs := rfl
@[simp] theorem State.raise_tregs (s : State) (e : AuError) : (s.raise e).tregs = s.tregs := rfl
@[simp] theorem State.raise_ord (s : State) (e : AuError) : (s.raise e).ord = s.ord := rfl
@[simp] theorem State.raise_status (s : State) (e : AuError) : (s.raise e).status = ⟨errorCode e, true, false⟩ := rfl
@[simp] theorem State.raise_written (s : State) (e : AuError) : (s.raise e).written = s.written := rfl
@[simp] theorem State.raise_script (s : State) (e : AuError) : (s.raise e).script = s.script := rfl
@[simp] theorem State.raise_replies (s : State) (e : AuError) : (s.raise e).replies = s.replies := rfl
@[simp] theorem State.raise_params (s : State) (e : AuError) : (s.raise e).params = s.params := rfl

/-! The fields after `State.beginCommand`. -/

@[simp] theorem State.beginCommand_sregs (s : State) : s.beginCommand.sregs = s.sregs := rfl
@[simp] theorem State.beginCommand_uregs (s : State) : s.beginCommand.uregs = s.uregs := rfl
@[simp] theorem State.beginCommand_tregs (s : State) : s.beginCommand.tregs = s.tregs := rfl
@[simp] theorem State.beginCommand_ord (s : State) : s.beginCommand.ord = s.ord := rfl
@[simp] theorem State.beginCommand_status (s : State) : s.beginCommand.status = { s.status with busy := true } := rfl
@[simp] theorem State.beginCommand_written (s : State) : s.beginCommand.written = s.written := rfl
@[simp] theorem State.beginCommand_script (s : State) : s.beginCommand.script = s.script := rfl
@[simp] theorem State.beginCommand_replies (s : State) : s.beginCommand.replies = s.replies := rfl
@[simp] theorem State.beginCommand_params (s : State) : s.beginCommand.params = s.params := rfl

/-! The fields after `State.endCommand`. -/

@[simp] theorem State.endCommand_sregs (s : State) : s.endCommand.sregs = s.sregs := rfl
@[simp] theorem State.endCommand_uregs (s : State) : s.endCommand.uregs = s.uregs := rfl
@[simp] theorem State.endCommand_tregs (s : State) : s.endCommand.tregs = s.tregs := rfl
@[simp] theorem State.endCommand_ord (s : State) : s.endCommand.ord = s.ord := rfl
@[simp] theorem State.endCommand_status (s : State) : s.endCommand.status = { s.status with busy := false } := rfl
@[simp] theorem State.endCommand_written (s : State) : s.endCommand.written = s.written := rfl
@[simp] theorem State.endCommand_script (s : State) : s.endCommand.script = s.script := rfl
@[simp] theorem State.endCommand_replies (s : State) : s.endCommand.replies = s.replies := rfl
@[simp] theorem State.endCommand_params (s : State) : s.endCommand.params = s.params := rfl

/-! The fields after `State.reply`. -/

@[simp] theorem State.reply_sregs (s : State) (r : Reply) : (s.reply r).sregs = s.sregs := rfl
@[simp] theorem State.reply_uregs (s : State) (r : Reply) : (s.reply r).uregs = s.uregs := rfl
@[simp] theorem State.reply_tregs (s : State) (r : Reply) : (s.reply r).tregs = s.tregs := rfl
@[simp] theorem State.reply_ord (s : State) (r : Reply) : (s.reply r).ord = s.ord := rfl
@[simp] theorem State.reply_status (s : State) (r : Reply) : (s.reply r).status = s.status := rfl
@[simp] theorem State.reply_written (s : State) (r : Reply) : (s.reply r).written = s.written := rfl
@[simp] theorem State.reply_script (s : State) (r : Reply) : (s.reply r).script = s.script := rfl
@[simp] theorem State.reply_replies (s : State) (r : Reply) : (s.reply r).replies = s.replies ++ [r] := rfl
@[simp] theorem State.reply_params (s : State) (r : Reply) : (s.reply r).params = s.params := rfl

/-! The fields after `State.withScript`. -/

@[simp] theorem State.withScript_sregs (s : State) (acts : List HostAction) : (s.withScript acts).sregs = s.sregs := rfl
@[simp] theorem State.withScript_uregs (s : State) (acts : List HostAction) : (s.withScript acts).uregs = s.uregs := rfl
@[simp] theorem State.withScript_tregs (s : State) (acts : List HostAction) : (s.withScript acts).tregs = s.tregs := rfl
@[simp] theorem State.withScript_ord (s : State) (acts : List HostAction) : (s.withScript acts).ord = s.ord := rfl
@[simp] theorem State.withScript_status (s : State) (acts : List HostAction) : (s.withScript acts).status = s.status := rfl
@[simp] theorem State.withScript_written (s : State) (acts : List HostAction) : (s.withScript acts).written = s.written := rfl
@[simp] theorem State.withScript_script (s : State) (acts : List HostAction) : (s.withScript acts).script = acts := rfl
@[simp] theorem State.withScript_replies (s : State) (acts : List HostAction) : (s.withScript acts).replies = s.replies := rfl
@[simp] theorem State.withScript_params (s : State) (acts : List HostAction) : (s.withScript acts).params = s.params := rfl

/-! The fields after `State.resetUnit`. -/

@[simp] theorem State.resetUnit_sregs (s : State) : s.resetUnit.sregs = State.reset.sregs := rfl
@[simp] theorem State.resetUnit_uregs (s : State) : s.resetUnit.uregs = State.reset.uregs := rfl
@[simp] theorem State.resetUnit_tregs (s : State) : s.resetUnit.tregs = State.reset.tregs := rfl
@[simp] theorem State.resetUnit_ord (s : State) : s.resetUnit.ord = .less := rfl
@[simp] theorem State.resetUnit_status (s : State) : s.resetUnit.status = ⟨0, false, false⟩ := rfl
@[simp] theorem State.resetUnit_written (s : State) : s.resetUnit.written = Written.none := rfl
@[simp] theorem State.resetUnit_script (s : State) : s.resetUnit.script = s.script := rfl
@[simp] theorem State.resetUnit_replies (s : State) : s.resetUnit.replies = s.replies := rfl
@[simp] theorem State.resetUnit_params (s : State) : s.resetUnit.params = s.params := rfl

/-! The registers as a command reads them. -/

@[simp] theorem State.readS_writeS (s : State) (k j : SIdx) (v : I256) :
    (s.writeS k v).readS j = if k = j then v else s.readS j := by
  simp [State.readS, Vector.getElem_set, Fin.ext_iff]

@[simp] theorem State.readU_writeU (s : State) (k j : UIdx) (v : U256) :
    (s.writeU k v).readU j = if k = j then v else s.readU j := by
  simp [State.readU, Vector.getElem_set, Fin.ext_iff]

@[simp] theorem State.readT_writeT (s : State) (k j : TIdx) (v : I64) :
    (s.writeT k v).readT j = if k = j then v else s.readT j := by
  simp [State.readT, Vector.getElem_set, Fin.ext_iff]

@[simp] theorem State.readU_writeS (s : State) (i : SIdx) (v : I256) (k : UIdx) : (s.writeS i v).readU k = s.readU k := rfl
@[simp] theorem State.readT_writeS (s : State) (i : SIdx) (v : I256) (k : TIdx) : (s.writeS i v).readT k = s.readT k := rfl
@[simp] theorem State.readS_writeU (s : State) (i : UIdx) (v : U256) (k : SIdx) : (s.writeU i v).readS k = s.readS k := rfl
@[simp] theorem State.readT_writeU (s : State) (i : UIdx) (v : U256) (k : TIdx) : (s.writeU i v).readT k = s.readT k := rfl
@[simp] theorem State.readS_writeT (s : State) (i : TIdx) (v : I64) (k : SIdx) : (s.writeT i v).readS k = s.readS k := rfl
@[simp] theorem State.readU_writeT (s : State) (i : TIdx) (v : I64) (k : UIdx) : (s.writeT i v).readU k = s.readU k := rfl
@[simp] theorem State.readS_writeOrd (s : State) (o : Order) (k : SIdx) : (s.writeOrd o).readS k = s.readS k := rfl
@[simp] theorem State.readU_writeOrd (s : State) (o : Order) (k : UIdx) : (s.writeOrd o).readU k = s.readU k := rfl
@[simp] theorem State.readT_writeOrd (s : State) (o : Order) (k : TIdx) : (s.writeOrd o).readT k = s.readT k := rfl
@[simp] theorem State.readS_raise (s : State) (e : AuError) (k : SIdx) : (s.raise e).readS k = s.readS k := rfl
@[simp] theorem State.readU_raise (s : State) (e : AuError) (k : UIdx) : (s.raise e).readU k = s.readU k := rfl
@[simp] theorem State.readT_raise (s : State) (e : AuError) (k : TIdx) : (s.raise e).readT k = s.readT k := rfl
@[simp] theorem State.readS_beginCommand (s : State) (k : SIdx) : s.beginCommand.readS k = s.readS k := rfl
@[simp] theorem State.readU_beginCommand (s : State) (k : UIdx) : s.beginCommand.readU k = s.readU k := rfl
@[simp] theorem State.readT_beginCommand (s : State) (k : TIdx) : s.beginCommand.readT k = s.readT k := rfl
@[simp] theorem State.readS_endCommand (s : State) (k : SIdx) : s.endCommand.readS k = s.readS k := rfl
@[simp] theorem State.readU_endCommand (s : State) (k : UIdx) : s.endCommand.readU k = s.readU k := rfl
@[simp] theorem State.readT_endCommand (s : State) (k : TIdx) : s.endCommand.readT k = s.readT k := rfl
@[simp] theorem State.readS_reply (s : State) (r : Reply) (k : SIdx) : (s.reply r).readS k = s.readS k := rfl
@[simp] theorem State.readU_reply (s : State) (r : Reply) (k : UIdx) : (s.reply r).readU k = s.readU k := rfl
@[simp] theorem State.readT_reply (s : State) (r : Reply) (k : TIdx) : (s.reply r).readT k = s.readT k := rfl
@[simp] theorem State.readS_withScript (s : State) (acts : List HostAction) (k : SIdx) : (s.withScript acts).readS k = s.readS k := rfl
@[simp] theorem State.readU_withScript (s : State) (acts : List HostAction) (k : UIdx) : (s.withScript acts).readU k = s.readU k := rfl
@[simp] theorem State.readT_withScript (s : State) (acts : List HostAction) (k : TIdx) : (s.withScript acts).readT k = s.readT k := rfl

@[simp] theorem State.readS_resetUnit (s : State) (k : SIdx) : s.resetUnit.readS k = ⟨false, 0⟩ := by
  simp [State.readS, State.reset]

@[simp] theorem State.readU_resetUnit (s : State) (k : UIdx) : s.resetUnit.readU k = 0 := by
  simp [State.readU, State.reset]

@[simp] theorem State.readT_resetUnit (s : State) (k : TIdx) : s.resetUnit.readT k = 0 := by
  simp [State.readT, State.reset]

@[simp] theorem mapNext_next (f : State → State) (s : State) : mapNext f (.next s) = .next (f s) := rfl

@[simp] theorem finishS_ok (d : SIdx) (v : I256) (s : State) : finishS d (.ok v) s = .next (s.writeS d v) := rfl

@[simp] theorem finishS_error (d : SIdx) (e : AuError) (s : State) :
    finishS d (.error e) s = .next (s.raise e) := rfl

@[simp] theorem finishU_ok (d : UIdx) (v : U256) (s : State) : finishU d (.ok v) s = .next (s.writeU d v) := rfl

@[simp] theorem finishU_error (d : UIdx) (e : AuError) (s : State) :
    finishU d (.error e) s = .next (s.raise e) := rfl

@[simp] theorem finishT_ok (d : TIdx) (v : I64) (s : State) : finishT d (.ok v) s = .next (s.writeT d v) := rfl

@[simp] theorem finishT_error (d : TIdx) (e : AuError) (s : State) :
    finishT d (.error e) s = .next (s.raise e) := rfl

end Sys2Proof.Machine
end

