-- ==== Sys2Proof/Laws/Exec.lean ====
section
/-! SUPPORT. What executing a command can do, once per kind of end and once for all commands. -/

namespace Sys2Proof.Machine

/-- A command with destination `S[d]` writes it or raises. -/
theorem finishS_cases (d : SIdx) (r : Except AuError I256) (s : State) :
    (∃ v, r = .ok v ∧ finishS d r s = .next (s.writeS d v)) ∨
      (∃ e, r = .error e ∧ finishS d r s = .next (s.raise e)) := by
  cases r with
  | ok v => exact .inl ⟨v, rfl, rfl⟩
  | error e => exact .inr ⟨e, rfl, rfl⟩

/-- A command with destination `U[d]` writes it or raises. -/
theorem finishU_cases (d : UIdx) (r : Except AuError U256) (s : State) :
    (∃ v, r = .ok v ∧ finishU d r s = .next (s.writeU d v)) ∨
      (∃ e, r = .error e ∧ finishU d r s = .next (s.raise e)) := by
  cases r with
  | ok v => exact .inl ⟨v, rfl, rfl⟩
  | error e => exact .inr ⟨e, rfl, rfl⟩

/-- A command with destination `T[d]` writes it or raises. -/
theorem finishT_cases (d : TIdx) (r : Except AuError I64) (s : State) :
    (∃ v, r = .ok v ∧ finishT d r s = .next (s.writeT d v)) ∨
      (∃ e, r = .error e ∧ finishT d r s = .next (s.raise e)) := by
  cases r with
  | ok v => exact .inl ⟨v, rfl, rfl⟩
  | error e => exact .inr ⟨e, rfl, rfl⟩

/-- The five ends a command can have: one register of its destination file written, ORD written, or an
error raised. -/
inductive Ended (s : State) : State → Prop where
  | wroteS (k : SIdx) (v : I256) : Ended s (s.writeS k v)
  | wroteU (k : UIdx) (v : U256) : Ended s (s.writeU k v)
  | wroteT (k : TIdx) (v : I64) : Ended s (s.writeT k v)
  | wroteOrd (o : Order) : Ended s (s.writeOrd o)
  | raised (e : AuError) : Ended s (s.raise e)

theorem finishS_ended (d : SIdx) (r : Except AuError I256) (s : State) :
    ∃ t, finishS d r s = .next t ∧ Ended s t := by
  obtain ⟨v, -, h⟩ | ⟨e, -, h⟩ := finishS_cases d r s
  · exact ⟨_, h, .wroteS d v⟩
  · exact ⟨_, h, .raised e⟩

theorem finishU_ended (d : UIdx) (r : Except AuError U256) (s : State) :
    ∃ t, finishU d r s = .next t ∧ Ended s t := by
  obtain ⟨v, -, h⟩ | ⟨e, -, h⟩ := finishU_cases d r s
  · exact ⟨_, h, .wroteU d v⟩
  · exact ⟨_, h, .raised e⟩

theorem finishT_ended (d : TIdx) (r : Except AuError I64) (s : State) :
    ∃ t, finishT d r s = .next t ∧ Ended s t := by
  obtain ⟨v, -, h⟩ | ⟨e, -, h⟩ := finishT_cases d r s
  · exact ⟨_, h, .wroteT d v⟩
  · exact ⟨_, h, .raised e⟩

/-! Each command as one end over its value. -/

theorem exec_cmp (a b : SIdx) (s : State) :
    exec (.cmp a b) s = .next (s.writeOrd (signedOrder (s.readS a) (s.readS b))) := by
  delta exec execCmp; rfl

theorem exec_acmp (a b : SIdx) (s : State) :
    exec (.acmp a b) s = .next (s.writeOrd (magnitudeOrder (s.readS a) (s.readS b))) := by
  delta exec execAcmp; rfl

theorem exec_add (d a b : SIdx) (s : State) :
    exec (.add d a b) s = finishS d (addValue (s.readS a) (s.readS b)) s := by
  delta exec execAdd; rfl

theorem exec_sub (d a b : SIdx) (s : State) :
    exec (.sub d a b) s = finishS d (subValue (s.readS a) (s.readS b)) s := by
  delta exec execSub; rfl

theorem exec_mul (d a b : SIdx) (s : State) :
    exec (.mul d a b) s = finishS d (mulValue (s.readS a) (s.readS b)) s := by
  delta exec execMul; rfl

theorem exec_shr (d a : SIdx) (n : BitVec 8) (s : State) :
    exec (.shr d a n) s = finishS d (.ok (shrValue (s.readS a) n.toNat)) s := by
  delta exec execShr; rfl

theorem exec_or (d a b : SIdx) (s : State) :
    exec (.or d a b) s = finishS d (.ok (orValue (s.readS a) (s.readS b))) s := by
  delta exec execOr; rfl

theorem exec_compl (d a : SIdx) (s : State) :
    exec (.compl d a) s = finishS d (.ok (complValue (s.readS a))) s := by
  delta exec execCompl; rfl

theorem exec_zero (d : SIdx) (s : State) :
    exec (.zero d) s = finishS d (.ok ⟨false, 0#256⟩) s := by
  delta exec execZero; rfl

theorem exec_fromu (d : SIdx) (a : UIdx) (s : State) :
    exec (.fromu d a) s = finishS d (fromUValue (s.readU a)) s := by
  delta exec execFromu; rfl

theorem exec_fromun (d : SIdx) (a : UIdx) (s : State) :
    exec (.fromun d a) s = finishS d (.ok (norm ⟨false, s.readU a⟩)) s := by
  delta exec execFromun; rfl

theorem exec_fromu128 (d : SIdx) (a : UIdx) (n : Bool) (s : State) :
    exec (.fromu128 d a n) s = finishS d (fromU128Value (s.readU a) n) s := by
  delta exec execFromu128; rfl

theorem exec_asi64 (d : TIdx) (a : SIdx) (s : State) :
    exec (.asi64 d a) s = finishT d (asI64Value (s.readS a)) s := by
  delta exec execAsi64; rfl

theorem exec_sqrtp (d : UIdx) (a : TIdx) (s : State) :
    exec (.sqrtp d a) s = finishU d (sqrtPrice s.params (s.readT a)) s := by
  delta exec execSqrtp; rfl

theorem exec_logsp (d : TIdx) (a : UIdx) (s : State) :
    exec (.logsp d a) s = finishT d (logPrice s.params (s.readU a)) s := by
  delta exec execLogsp; rfl

/-- Every command ends in one of the five ways (40_datapath.md R110). -/
theorem exec_ended (i : Instr) (s : State) : ∃ t, exec i s = .next t ∧ Ended s t := by
  cases i with
  | cmp a b => exact ⟨_, exec_cmp a b s, .wroteOrd _⟩
  | acmp a b => exact ⟨_, exec_acmp a b s, .wroteOrd _⟩
  | add d a b => rw [exec_add]; exact finishS_ended ..
  | sub d a b => rw [exec_sub]; exact finishS_ended ..
  | mul d a b => rw [exec_mul]; exact finishS_ended ..
  | shr d a n => rw [exec_shr]; exact finishS_ended ..
  | or d a b => rw [exec_or]; exact finishS_ended ..
  | compl d a => rw [exec_compl]; exact finishS_ended ..
  | zero d => rw [exec_zero]; exact finishS_ended ..
  | fromu d a => rw [exec_fromu]; exact finishS_ended ..
  | fromun d a => rw [exec_fromun]; exact finishS_ended ..
  | fromu128 d a n => rw [exec_fromu128]; exact finishS_ended ..
  | asi64 d a => rw [exec_asi64]; exact finishT_ended ..
  | sqrtp d a => rw [exec_sqrtp]; exact finishU_ended ..
  | logsp d a => rw [exec_logsp]; exact finishT_ended ..

end Sys2Proof.Machine
end

