-- ==== Sys2Proof/Laws/Values.lean ====
section
/-! SUPPORT. I256 values: the integer of a pair, the canonical pair of an integer, normalisation, and
two's-complement patterns (00_scope.md R8, R10, 10_state.md R37, 40_datapath.md R112, R117). -/

namespace Sys2Proof.Machine

open Sys2Proof.Safety

theorem mag_eq_zero_iff (m : U256) : m = 0#256 ↔ m.toNat = 0 := by
  rw [← BitVec.toNat_inj]; rfl

theorem valOf_canonical (z : Int) (h : z.natAbs < 2 ^ 256) : valOf (canonical z) = z := by
  have e : (BitVec.ofNat 256 z.natAbs).toNat = z.natAbs := by
    rw [BitVec.toNat_ofNat, Nat.mod_eq_of_lt h]
  simp only [valOf, canonical, e, decide_eq_true_eq]
  split <;> omega

theorem canonical_mag (z : Int) (h : z.natAbs < 2 ^ 256) : (canonical z).mag.toNat = z.natAbs := by
  rw [canonical, BitVec.toNat_ofNat, Nat.mod_eq_of_lt h]

theorem canonical_valid (z : Int) (h : z.natAbs < 2 ^ 255) : Valid (canonical z) := by
  have hm := canonical_mag z (by omega)
  refine ⟨by omega, fun h0 => ?_⟩
  rw [mag_eq_zero_iff, hm] at h0
  simp only [canonical, decide_eq_false_iff_not]
  omega

theorem natAbs_valOf (a : I256) : (valOf a).natAbs = a.mag.toNat := by
  rw [valOf]; split <;> omega

/-- Normalisation gives the one representation of the value (40_datapath.md R112, 10_state.md R37). -/
theorem norm_eq_canonical (a : I256) : norm a = canonical (valOf a) := by
  obtain ⟨n, m⟩ := a
  have hz := mag_eq_zero_iff m
  have e : BitVec.ofNat 256 m.toNat = m := by simp
  by_cases h : m = 0#256
  · subst h
    cases n <;> simp [norm, canonical, valOf]
  · have h0 : m.toNat ≠ 0 := fun c => h (hz.mpr c)
    cases n
    · simp only [norm, canonical, valOf, h, if_false, Bool.false_eq_true, Int.natAbs_natCast, e]
      simp
    · simp only [norm, canonical, valOf, h, if_false, if_true, Int.natAbs_neg, Int.natAbs_natCast, e]
      simp only [I256.mk.injEq, and_true]
      exact (decide_eq_true (by omega)).symm

/-- A valid value is canonical: it has one representation (10_state.md R37). -/
theorem canonical_valOf (a : I256) (h : Valid a) : canonical (valOf a) = a := by
  rw [← norm_eq_canonical, norm]
  split
  · rename_i h0
    obtain ⟨n, m⟩ := a
    simp_all [Valid]
  · rfl

theorem valOf_norm (a : I256) : valOf (norm a) = valOf a := by
  rw [norm_eq_canonical, valOf_canonical _ (by rw [natAbs_valOf]; exact a.mag.isLt)]

theorem norm_mag (a : I256) : (norm a).mag = a.mag := by
  rw [norm]; split
  · rename_i h; exact h.symm
  · rfl

/-- A normalised value is valid as soon as bit 255 of its magnitude is 0. -/
theorem norm_valid (a : I256) (h : a.mag.toNat < 2 ^ 255) : Valid (norm a) := by
  rw [norm_eq_canonical]
  exact canonical_valid _ (by rwa [natAbs_valOf])

/-- A normalised value is not negative zero. -/
theorem norm_ne_negativeZero (a : I256) : norm a ≠ ⟨true, 0⟩ := by
  rw [norm]; split
  · simp
  · rename_i h; intro c; exact h (by rw [c]; rfl)

/-- `tc` gives the pattern and keeps the sign (40_datapath.md R117). -/
theorem tc_eq_patternOf (a : I256) : tc a = ⟨a.neg, patternOf a⟩ := by
  rw [tc_eq, patternOf]
  refine congrArg (I256.mk a.neg) (ite_congr rfl (fun _ => ?_) (fun _ => rfl))
  apply BitVec.eq_of_toNat_eq
  rw [BitVec.toNat_neg, BitVec.toNat_ofNat]

end Sys2Proof.Machine
end

