-- ==== Sys2Proof/Laws/LogPrice.lean ====
section
/-! SUPPORT. What LOGSP's bit injection computes: OR of bits into the zeros below an aligned value is
addition (47_log_price.md R225, 44_shift_or_complement.md R161). -/

namespace Sys2Proof.Machine

/-- OR of a value into the zero bits below an aligned pattern adds it. -/
theorem or_below (c b k : Nat) (hb : b < 2 ^ k) : (2 ^ k * c) ||| b = 2 ^ k * c + b :=
  (Nat.two_pow_add_eq_or_of_lt hb c).symm

/-- OR of `b` into a valid multiple of `2^k` above `b`, of either sign, adds `b`. -/
theorem orValue_aligned (a : I256) (k b : Nat) (ha : Valid a) (hd : (2 ^ k : Int) ∣ valOf a) (hb : b < 2 ^ k)
    (hk : k ≤ 254) : orValue a (canonical (b : Int)) = canonical (valOf a + b) := by
  have hb' : b < 2 ^ 255 := lt_of_lt_of_le hb (Nat.pow_le_pow_right (by omega) (by omega))
  have hc : canonical (b : Int) = ⟨false, BitVec.ofNat 256 b⟩ := by simp [canonical]
  have hm : a.mag.toNat < 2 ^ 255 := ha.1
  obtain ⟨n, m⟩ := a
  simp only at hm
  rw [orValue, hc, norm_eq_canonical]
  congr 1
  simp only [tc_eq, orLimbs_eq, Bool.or_false, if_false, Bool.false_eq_true]
  obtain ⟨c, hc⟩ : 2 ^ k ∣ m.toNat := by cases n <;> simpa [valOf, ← Int.natCast_dvd_natCast] using hd
  cases n with
  | false =>
    simp only [valOf, if_false, Bool.false_eq_true, BitVec.toNat_or, BitVec.toNat_ofNat]
    rw [Nat.mod_eq_of_lt (show b < 2 ^ 256 by omega), hc, or_below _ _ _ hb, Nat.cast_add]
  | true =>
    have h0 : m.toNat ≠ 0 := fun h => by simpa using ha.2 ((mag_eq_zero_iff m).mpr h)
    have hcb : b < m.toNat := lt_of_lt_of_le hb (Nat.le_of_dvd (by omega) ⟨c, hc⟩)
    obtain ⟨e, he⟩ : 2 ^ k ∣ 2 ^ 256 - m.toNat := Nat.dvd_sub (Nat.pow_dvd_pow 2 (by omega)) ⟨c, hc⟩
    simp only [valOf, if_true, BitVec.toNat_neg, BitVec.toNat_or, BitVec.toNat_ofNat]
    rw [Nat.mod_eq_of_lt (show b < 2 ^ 256 by omega),
      Nat.mod_eq_of_lt (show 2 ^ 256 - m.toNat < 2 ^ 256 by omega), he, or_below _ _ _ hb, ← he]
    omega

end Sys2Proof.Machine
end

