-- ==== Sys2Proof/Laws/PerInstr.lean ====
section
/-! SUPPORT. What holds of every command as syntax, one lemma per constructor: the word the encoder
gives is legal by the format table of 30_encoding.md R84 and the list of R86. -/

namespace Sys2Proof.Laws.EncodesLegal

/-- The encoded word meets the format table. -/
def Statement (i : Instr) : Prop := (fieldsOf (encode i)).wellFormed = true

/-- Reduced to the fields the encoder lays out. -/
theorem of_fields (i : Instr) (h : i.fields.wellFormed = true) : Statement i := by
  rw [Statement, encode, fieldsOf_pack]; exact h

theorem cmp (a b : SIdx) : Statement (.cmp a b) := of_fields _ (by revert a b; decide)

theorem acmp (a b : SIdx) : Statement (.acmp a b) := of_fields _ (by revert a b; decide)

theorem add (d a b : SIdx) : Statement (.add d a b) := of_fields _ (by revert d a b; decide)

theorem sub (d a b : SIdx) : Statement (.sub d a b) := of_fields _ (by revert d a b; decide)

theorem mul (d a b : SIdx) : Statement (.mul d a b) := of_fields _ (by revert d a b; decide)

theorem shr (d a : SIdx) (shift : BitVec 8) : Statement (.shr d a shift) :=
  of_fields _ (by
    have e : (Instr.shr d a shift).fields.wellFormed = (Instr.shr d a 0#8).fields.wellFormed := rfl
    rw [e]; clear e; revert d a; decide)

theorem or (d a b : SIdx) : Statement (.or d a b) := of_fields _ (by revert d a b; decide)

theorem compl (d a : SIdx) : Statement (.compl d a) := of_fields _ (by revert d a; decide)

theorem zero (d : SIdx) : Statement (.zero d) := of_fields _ (by revert d; decide)

theorem fromu (d : SIdx) (a : UIdx) : Statement (.fromu d a) := of_fields _ (by revert d a; decide)

theorem fromun (d : SIdx) (a : UIdx) : Statement (.fromun d a) := of_fields _ (by revert d a; decide)

theorem fromu128 (d : SIdx) (a : UIdx) (isNegative : Bool) : Statement (.fromu128 d a isNegative) :=
  of_fields _ (by revert d a isNegative; decide)

theorem asi64 (d : TIdx) (a : SIdx) : Statement (.asi64 d a) := of_fields _ (by revert d a; decide)

theorem sqrtp (d : UIdx) (a : TIdx) : Statement (.sqrtp d a) := of_fields _ (by revert d a; decide)

theorem logsp (d : TIdx) (a : UIdx) : Statement (.logsp d a) := of_fields _ (by revert d a; decide)

end Sys2Proof.Laws.EncodesLegal
end

