-- ==== Sys2Proof/Laws/Run.lean ====
section
/-! SUPPORT. What the checked step and a run can do (10_state.md R43, 70_reset_and_hazards.md R285). -/

namespace Sys2Proof.Machine

/-- The checked step either stops on the model fault its guard names, or is the step. -/
theorem checkedStep_cases (s : State) :
    (∃ f, modelFault s = some f ∧ checkedStep s = .fault f) ∨
      (modelFault s = none ∧ checkedStep s = step s) := by
  cases h : modelFault s with
  | some f => exact .inl ⟨f, rfl, by rw [checkedStep, h]⟩
  | none => exact .inr ⟨rfl, by rw [checkedStep, h]⟩

/-- A run goes on from a checked step that answers a next state. -/
theorem runSteps_next (n : Nat) (s t : State) (h : checkedStep s = .next t) :
    runSteps (n + 1) s = runSteps n t := by rw [runSteps, h]

/-- A run that reaches a model fault ends in it. -/
theorem runSteps_fault (n : Nat) (s : State) (f : Fault) (h : checkedStep s = .fault f) :
    runSteps (n + 1) s = .fault f := by rw [runSteps, h]

/-- A run that reaches a refusal ends in it. -/
theorem runSteps_refused (n : Nat) (s : State) (r : Refusal) (h : checkedStep s = .refused r) :
    runSteps (n + 1) s = .refused r := by rw [runSteps, h]

/-- A run that meets a model fault has no observation. -/
theorem runObservation_fault (p : Params) (acts : List HostAction) (f : Fault)
    (h : runScript p acts = .fault f) : runObservation p acts = none := by rw [runObservation, h]

end Sys2Proof.Machine
end

