-- ==== Sys2Proof/Laws/Window.lean ====
section
/-! SUPPORT. The window: its map and its inverse, and read after write (20_memory.md R61, R65, R66). -/

namespace Sys2Proof.Machine

theorem windowWord_sMagAddr (i : SIdx) (j : Fin 4) : windowWord (sMagAddr i j) = .sMag i j := by
  revert i j; decide

theorem windowWord_sNegAddr (i : SIdx) : windowWord (sNegAddr i) = .sNeg i := by
  revert i; decide

theorem windowWord_uLimbAddr (i : UIdx) (j : Fin 4) : windowWord (uLimbAddr i j) = .uLimb i j := by
  revert i j; decide

theorem windowWord_tWordAddr (i : TIdx) : windowWord (tWordAddr i) = .tWord i := by
  revert i; decide

theorem windowWord_cmdAddr : windowWord cmdAddr = .cmd := by decide

theorem windowWord_statusAddr : windowWord statusAddr = .status := by decide

theorem windowWord_ordAddr : windowWord ordAddr = .ord := by decide

/-- The address of a word that is not reserved; reserved words get an address of no meaning. -/
def addrOfWord : WindowWord → WordAddr
  | .sMag i j => sMagAddr i j
  | .sNeg i => sNegAddr i
  | .uLimb i j => uLimbAddr i j
  | .tWord i => tWordAddr i
  | .cmd => cmdAddr
  | .status => statusAddr
  | .ord => ordAddr
  | .reserved => 0xFF

theorem addrOfWord_windowWord (a : WordAddr) (h : windowWord a ≠ .reserved) : addrOfWord (windowWord a) = a := by
  have all : ∀ n : Fin 256, windowWord (BitVec.ofFin n) = .reserved ∨
      addrOfWord (windowWord (BitVec.ofFin n)) = BitVec.ofFin n := by decide +kernel
  exact (all a.toFin).resolve_left h

/-- No two addresses name the same word, reserved ones apart (20_memory.md R61). -/
theorem windowWord_injective (a b : WordAddr) (h : windowWord a = windowWord b)
    (hr : windowWord a ≠ .reserved) : a = b := by
  rw [← addrOfWord_windowWord a hr, h, addrOfWord_windowWord b (h ▸ hr)]

theorem limb_ofLimbs (a b c d : Word64) (j : Fin 4) : limb (ofLimbs [a, b, c, d]) j.val = [a, b, c, d][j] := by
  apply BitVec.eq_of_getLsbD_eq
  intro t ht
  rw [limb_getLsbD _ _ _ ht, ofLimbs_getLsbD]
  match j with
  | 0 => rw [if_pos (by simp; omega)]; simp
  | 1 => rw [if_neg (by simp), if_pos (by simp; omega)]; simp
  | 2 => rw [if_neg (by simp; omega), if_neg (by simp), if_pos (by simp; omega)]; simp
  | 3 => rw [if_neg (by simp; omega), if_neg (by simp; omega), if_neg (by simp)]; simp

/-- A limb read after a limb write (40_datapath.md R113). -/
theorem limb_setLimb (m : U256) (j k : Fin 4) (w : Word64) :
    limb (setLimb m j w) k.val = if k = j then w else limb m k.val := by
  match j with
  | 0 => rw [setLimb, toLimbs]; exact (limb_ofLimbs _ _ _ _ k).trans (by revert k; simp [Fin.forall_fin_succ])
  | 1 => rw [setLimb, toLimbs]; exact (limb_ofLimbs _ _ _ _ k).trans (by revert k; simp [Fin.forall_fin_succ])
  | 2 => rw [setLimb, toLimbs]; exact (limb_ofLimbs _ _ _ _ k).trans (by revert k; simp [Fin.forall_fin_succ])
  | 3 => rw [setLimb, toLimbs]; exact (limb_ofLimbs _ _ _ _ k).trans (by revert k; simp [Fin.forall_fin_succ])

/-! The registers after a host write. -/

@[simp] theorem readS_storeWord_sMag (s : State) (i k : SIdx) (j : Fin 4) (w : Word64) :
    (s.storeWord (.sMag i j) w).readS k =
      if i = k then { s.readS i with mag := setLimb (s.readS i).mag j w } else s.readS k := by
  simp [State.storeWord, State.readS, Vector.getElem_set, Fin.ext_iff]

@[simp] theorem readS_storeWord_sNeg (s : State) (i k : SIdx) (w : Word64) :
    (s.storeWord (.sNeg i) w).readS k =
      if i = k then { s.readS i with neg := w.getLsbD 0 } else s.readS k := by
  simp [State.storeWord, State.readS, Vector.getElem_set, Fin.ext_iff]

@[simp] theorem readU_storeWord_uLimb (s : State) (i k : UIdx) (j : Fin 4) (w : Word64) :
    (s.storeWord (.uLimb i j) w).readU k = if i = k then setLimb (s.readU i) j w else s.readU k := by
  simp [State.storeWord, State.readU, Vector.getElem_set, Fin.ext_iff]

@[simp] theorem readT_storeWord_tWord (s : State) (i k : TIdx) (w : Word64) :
    (s.storeWord (.tWord i) w).readT k = if i = k then w else s.readT k := by
  simp [State.storeWord, State.readT, Vector.getElem_set, Fin.ext_iff]

/-- A host write of a word of another file leaves the S registers alone. -/
theorem readS_storeWord_other (s : State) (x : WindowWord) (k : SIdx) (w : Word64)
    (h1 : ∀ i j, x ≠ .sMag i j) (h2 : ∀ i, x ≠ .sNeg i) : (s.storeWord x w).readS k = s.readS k := by
  cases x <;> first | rfl | exact absurd rfl (h1 _ _) | exact absurd rfl (h2 _)

/-- A host write of a word of another file leaves the U registers alone. -/
theorem readU_storeWord_other (s : State) (x : WindowWord) (k : UIdx) (w : Word64)
    (h : ∀ i j, x ≠ .uLimb i j) : (s.storeWord x w).readU k = s.readU k := by
  cases x <;> first | rfl | exact absurd rfl (h _ _)

/-- A host write of a word of another file leaves the T registers alone. -/
theorem readT_storeWord_other (s : State) (x : WindowWord) (k : TIdx) (w : Word64)
    (h : ∀ i, x ≠ .tWord i) : (s.storeWord x w).readT k = s.readT k := by
  cases x <;> first | rfl | exact absurd rfl (h _)

/-! What a host write leaves alone beside the registers. -/

@[simp] theorem storeWord_ord (s : State) (x : WindowWord) (w : Word64) : (s.storeWord x w).ord = s.ord := by
  cases x <;> rfl

@[simp] theorem storeWord_status (s : State) (x : WindowWord) (w : Word64) :
    (s.storeWord x w).status = s.status := by
  cases x <;> rfl

@[simp] theorem storeWord_script (s : State) (x : WindowWord) (w : Word64) :
    (s.storeWord x w).script = s.script := by
  cases x <;> rfl

@[simp] theorem storeWord_replies (s : State) (x : WindowWord) (w : Word64) :
    (s.storeWord x w).replies = s.replies := by
  cases x <;> rfl

@[simp] theorem storeWord_params (s : State) (x : WindowWord) (w : Word64) :
    (s.storeWord x w).params = s.params := by
  cases x <;> rfl

/-- A host write leaves every other word as it reads (20_memory.md R62). -/
theorem readWord_storeWord_ne (s : State) (x y : WindowWord) (w : Word64) (h : y ≠ x) :
    (s.storeWord x w).readWord y = s.readWord y := by
  cases x <;> cases y <;> first
    | rfl
    | (simp only [State.readWord, readS_storeWord_sMag, readS_storeWord_sNeg, readU_storeWord_uLimb,
        readT_storeWord_tWord]
       split_ifs with e
       · subst e; simp_all [limb_setLimb]
       · rfl)

/-- A host write leaves the written-ness of every other word (20_memory.md R66). -/
theorem wordWritten_storeWord_ne (s : State) (x y : WindowWord) (w : Word64) (h : y ≠ x) :
    (s.storeWord x w).wordWritten y = s.wordWritten y := by
  cases x <;> cases y <;> first
    | rfl
    | (simp only [State.wordWritten, State.storeWord, Fin.getElem_fin, Vector.getElem_set, Fin.val_inj]
       split_ifs with e
       · subst e; simp_all [Fin.val_inj, eq_comm]
       · rfl)

/-- A host write makes its word written, if it is a register word (20_memory.md R66). -/
theorem wordWritten_storeWord_self (s : State) (x : WindowWord) (w : Word64) (h : x ≠ .ord) :
    (s.storeWord x w).wordWritten x = true := by
  cases x <;> first
    | rfl
    | exact absurd rfl h
    | simp [State.wordWritten, State.storeWord]

end Sys2Proof.Machine
end

