-- ==== Sys2Proof/Laws/Step.lean ====
section
/-! SUPPORT. What a step can do, said once (20_memory.md R72, 40_datapath.md R110). -/

namespace Sys2Proof.Machine

/-- The ways a step that answers a next state can end. -/
inductive Stepped (s : State) : State → Prop where
  /-- nothing left to do -/
  | idle (h : s.script = []) : Stepped s s
  /-- the host drove reset -/
  | wasReset (rest : List HostAction) (h : s.script = .reset :: rest) : Stepped s (s.withScript rest).resetUnit
  /-- the host read a word, directly or through the bridge -/
  | replied (act : HostAction) (rest : List HostAction) (r : Reply) (h : s.script = act :: rest)
      (hr : act ≠ .reset) : Stepped s ((s.withScript rest).reply r)
  /-- the host wrote a word other than CMD -/
  | stored (act : HostAction) (rest : List HostAction) (x : WindowWord) (w : Word64)
      (h : s.script = act :: rest) (hr : act ≠ .reset) (hx : x ≠ .cmd) :
      Stepped s ((s.withScript rest).storeWord x w)
  /-- a command written while FAULTED -/
  | ignored (act : HostAction) (rest : List HostAction) (h : s.script = act :: rest) (hr : act ≠ .reset)
      (hf : s.status.fault = true) : Stepped s (s.withScript rest)
  /-- an illegal command -/
  | illegal (act : HostAction) (rest : List HostAction) (h : s.script = act :: rest) (hr : act ≠ .reset)
      (hf : s.status.fault = false) : Stepped s ((s.withScript rest).raise .illegalCommand)
  /-- a legal command, run between BUSY set and BUSY cleared -/
  | ran (act : HostAction) (rest : List HostAction) (i : Instr) (u : State) (h : s.script = act :: rest)
      (hr : act ≠ .reset) (hf : s.status.fault = false)
      (hu : exec i (s.withScript rest).beginCommand = .next u) : Stepped s u.endCommand

theorem writeAccess_of_ne_cmd (a : WordAddr) (w : Word64) (s : State) (h : windowWord a ≠ .cmd) :
    writeAccess a w s = .next (s.storeWord (windowWord a) w) := by
  rw [writeAccess]
  split
  · rename_i hc; exact absurd hc h
  · rfl

theorem writeAccess_of_cmd (a : WordAddr) (w : Word64) (s : State) (h : windowWord a = .cmd) :
    writeAccess a w s = commandCycle w s := by
  rw [writeAccess, h]

/-- A host write that goes on is one of the last four ways. -/
theorem writeAccess_stepped (s t : State) (act : HostAction) (rest : List HostAction) (a : WordAddr)
    (w : Word64) (h : s.script = act :: rest) (hr : act ≠ .reset)
    (ht : writeAccess a w (s.withScript rest) = .next t) : Stepped s t := by
  by_cases hc : windowWord a = .cmd
  · rw [writeAccess_of_cmd _ _ _ hc, commandCycle, State.withScript_status] at ht
    by_cases hf : s.status.fault = true
    · rw [if_pos hf] at ht
      cases ht
      exact .ignored act rest h hr hf
    · rw [if_neg hf] at ht
      rw [Bool.not_eq_true] at hf
      cases hd : decode w with
      | error e =>
        rw [hd] at ht
        cases ht
        exact .illegal act rest h hr hf
      | ok i =>
        rw [hd] at ht
        obtain ⟨u, hu, -⟩ := exec_ended i (s.withScript rest).beginCommand
        simp only [hu, mapNext_next] at ht
        cases ht
        exact .ran act rest i u h hr hf hu
  · rw [writeAccess_of_ne_cmd _ _ _ hc] at ht
    cases ht
    exact .stored act rest _ w h hr hc

/-- Every step that answers a next state ends in one of these ways. -/
theorem step_stepped (s t : State) (ht : step s = .next t) : Stepped s t := by
  rw [step, nextAction] at ht
  cases h : s.script with
  | nil =>
    rw [h] at ht
    cases ht
    exact .idle h
  | cons act rest =>
    rw [h] at ht
    cases act with
    | reset => cases ht; exact .wasReset rest h
    | read a => cases ht; exact .replied _ rest _ h (by simp)
    | write a w => exact writeAccess_stepped s t _ rest a w h (by simp) ht
    | busRead byteAddr len =>
      simp only [performAction] at ht
      split at ht
      · cases ht; exact .replied _ rest _ h (by simp)
      · cases ht
    | busWrite byteAddr bytes =>
      simp only [performAction] at ht
      split at ht
      · exact writeAccess_stepped s t _ rest _ _ h (by simp) ht
      · cases ht

end Sys2Proof.Machine
end

