-- ==== Sys2Proof/Tests/Slice0.lean ====
section
/-! SUPPORT. Tests of the model against 95_test_vectors.md and 30_encoding.md, ill-formed words refused,
and for every statement with hypotheses a state and operands that meet them. -/

namespace Sys2Proof.Tests

open Sys2Proof Sys2Proof.Machine Sys2Proof.Safety

/-! Helpers. -/

/-- The next state of a result, if it has one. -/
def answer : Result → Option State
  | .next s => some s
  | .fault _ => none
  | .refused _ => none

theorem next_of_answer (r : Result) (t : State) (h : answer r = some t) : r = .next t := by
  cases r <;> simp_all [answer]

/-- Whether a result is a next state with a property. -/
def gives (r : Result) (p : State → Bool) : Bool := ((answer r).map p).getD false

/-- A value of the spec's vectors: `I(z)`. -/
def int (z : Int) : I256 := canonical z

/-- A pair `(n, m)` of the spec's vectors. -/
def pair (n : Bool) (m : Nat) : I256 := ⟨n, BitVec.ofNat 256 m⟩

/-- `s0` and `s1` written. -/
def twoS (a b : I256) : State := (State.reset.writeS 0 a).writeS 1 b

/-- `u1` written. -/
def oneU (n : Nat) : State := State.reset.writeU 1 (BitVec.ofNat 256 n)

/-- `t1` written. -/
def oneT (z : Int) : State := State.reset.writeT 1 (BitVec.ofInt 64 z)

/-- A host script waiting. -/
def waiting (acts : List HostAction) : State := State.reset.withScript acts

/-- A FAULTED unit with a host script waiting. -/
def faulted (acts : List HostAction) : State := (waiting acts).raise .additionOverflow

/-- The parameters with `SQRTP_WIDE_TICK = fault`. -/
def wideFault (s : State) : State := { s with params := { s.params with wideTick := .fault } }

/-- Parameters whose constants make every accumulator of an odd tick 0. -/
def zeroBase (s : State) : State := { s with params := { s.params with sqrtBaseOdd := 0 } }

/-- Parameters whose lower error bound is beyond the spec's range. -/
def wildBound (s : State) : State :=
  { s with params := { s.params with logErrLo := BitVec.ofNat 256 (2 ^ 255) } }

/-- Whether `s2` holds a value. -/
def s2Is (v : I256) (t : State) : Bool := t.readS 2 == v

/-- Whether STATUS shows an error code with FAULT 1 and BUSY 0. -/
def raised (c : BitVec 4) (t : State) : Bool := t.status == ⟨c, true, false⟩

/-! Ill-formed fields, one for each check of `CmdFields.wellFormed` (30_encoding.md R86). -/

theorem test_wf_add : (⟨0, 0, 0, 1, 0, 2, 3⟩ : CmdFields).wellFormed = true := by decide
theorem test_wf_high_bits : (⟨1, 0, 0, 1, 0, 2, 3⟩ : CmdFields).wellFormed = false := by decide
theorem test_wf_reserved : (⟨0, 1, 0, 1, 0, 2, 3⟩ : CmdFields).wellFormed = false := by decide
theorem test_wf_opcode_zero : (⟨0, 0, 0, 0, 0, 0, 0⟩ : CmdFields).wellFormed = false := by decide
theorem test_wf_opcode_above : (⟨0, 0, 0, 0, 0, 0, 0x10⟩ : CmdFields).wellFormed = false := by decide
theorem test_wf_s_index : (⟨0, 0, 0, 1, 8, 2, 3⟩ : CmdFields).wellFormed = false := by decide
theorem test_wf_u_index : (⟨0, 0, 0, 0, 4, 2, 0x0A⟩ : CmdFields).wellFormed = false := by decide
theorem test_wf_t_index : (⟨0, 0, 0, 0, 0, 4, 0x0D⟩ : CmdFields).wellFormed = false := by decide
theorem test_wf_unused_rd : (⟨0, 0, 0, 1, 0, 1, 1⟩ : CmdFields).wellFormed = false := by decide
theorem test_wf_unused_rs1 : (⟨0, 0, 0, 0, 1, 0, 9⟩ : CmdFields).wellFormed = false := by decide
theorem test_wf_unused_rs2 : (⟨0, 0, 0, 1, 0, 2, 8⟩ : CmdFields).wellFormed = false := by decide
theorem test_wf_unused_imm : (⟨0, 0, 1, 1, 0, 2, 3⟩ : CmdFields).wellFormed = false := by decide
theorem test_wf_sign_immediate : (⟨0, 0, 2, 0, 0, 2, 0x0C⟩ : CmdFields).wellFormed = false := by decide

/-! The decoder on words written out from 30_encoding.md R81 and R85: RSV, IMM8, RS2, RS1, RD, OP. -/

theorem test_decode_cmp : decodeTableWord 32 0b0000_00000000_0100_0010_0000_00000001 = some (.cmp 2 4) := by
  decide
theorem test_decode_acmp : decodeTableWord 32 0b0000_00000000_0010_0001_0000_00000010 = some (.acmp 1 2) := by
  decide
theorem test_decode_add : decodeTableWord 32 0b0000_00000000_0001_0000_0010_00000011 = some (.add 2 0 1) := by
  decide
theorem test_decode_sub : decodeTableWord 32 0b0000_00000000_0000_0001_0100_00000100 = some (.sub 4 1 0) := by
  decide
theorem test_decode_mul : decodeTableWord 32 0b0000_00000000_0111_0101_0110_00000101 = some (.mul 6 5 7) := by
  decide
theorem test_decode_shr : decodeTableWord 32 0b0000_11111111_0000_0010_0011_00000110 = some (.shr 3 2 255) := by
  decide
theorem test_decode_or : decodeTableWord 32 0b0000_00000000_0001_0000_0010_00000111 = some (.or 2 0 1) := by
  decide
theorem test_decode_compl : decodeTableWord 32 0b0000_00000000_0000_0010_0011_00001000 = some (.compl 3 2) := by
  decide
theorem test_decode_zero : decodeTableWord 32 0b0000_00000000_0000_0000_0111_00001001 = some (.zero 7) := by
  decide
theorem test_decode_fromu : decodeTableWord 32 0b0000_00000000_0000_0001_0001_00001010 = some (.fromu 1 1) := by
  decide
theorem test_decode_fromun : decodeTableWord 32 0b0000_00000000_0000_0011_0101_00001011 = some (.fromun 5 3) := by
  decide
theorem test_decode_fromu128 :
    decodeTableWord 32 0b0000_00000001_0000_0001_0000_00001100 = some (.fromu128 0 1 true) := by decide
theorem test_decode_asi64 : decodeTableWord 32 0b0000_00000000_0000_0010_0000_00001101 = some (.asi64 0 2) := by
  decide
theorem test_decode_sqrtp : decodeTableWord 32 0b0000_00000000_0000_0000_0011_00001110 = some (.sqrtp 3 0) := by
  decide
theorem test_decode_logsp : decodeTableWord 32 0b0000_00000000_0000_0000_0001_00001111 = some (.logsp 1 0) := by
  decide

/-- Illegal words (95_test_vectors.md V-DEC). -/
theorem test_decode_illegal : decodeTableWord 32 0x00000000 = none ∧ decodeTableWord 32 0x00000010 = none ∧
    decodeTableWord 32 0x00018203 = none ∧ decodeTableWord 32 0x10010203 = none ∧
    decodeTableWord 32 0x0020100C = none ∧ decodeTableWord 33 0x100010203 = none := by decide

/-- The assembler syntax (30_encoding.md R89). -/
theorem test_asm : asm (.shr 3 2 255) = "shr s3, s2, #255" ∧ asm (.fromu128 0 1 true) = "fromu128 s0, u1, neg" := by
  decide

/-! One command each, as the first step after reset or on registers a helper wrote
(95_test_vectors.md, the table named). -/

/-- V-CMP: two negatives compare by reversed magnitude. -/
theorem test_cmp_negatives : gives (exec (.cmp 0 1) (twoS (int (-5)) (int (-3)))) (·.ord == .less) = true := by
  decide +kernel
/-- V-CMP: negative zero is less than zero. -/
theorem test_cmp_negative_zero : gives (exec (.cmp 0 1) (twoS (pair true 0) (int 0))) (·.ord == .less) = true := by
  decide +kernel
/-- V-CMP: the signs are ignored. -/
theorem test_acmp : gives (exec (.acmp 0 1) (twoS (int (-5)) (int (-3)))) (·.ord == .greater) = true := by
  decide +kernel
/-- V-ADD: a sum that reaches `2^255`. -/
theorem test_add_overflow : gives (exec (.add 2 0 1) (twoS (int (2 ^ 254)) (int (2 ^ 254)))) (raised 3) = true := by
  decide +kernel
/-- V-ADD: opposites make plain zero. -/
theorem test_add_to_zero : gives (exec (.add 2 0 1) (twoS (int 5) (int (-5)))) (s2Is (pair false 0)) = true := by
  decide +kernel
/-- V-SUB: the second magnitude is larger. -/
theorem test_sub_flips : gives (exec (.sub 2 0 1) (twoS (int 3) (int 10))) (s2Is (int (-7))) = true := by
  decide +kernel
/-- V-SUB: an operand the host made invalid. -/
theorem test_sub_invalid : gives (exec (.sub 2 0 1) (twoS (pair false (2 ^ 255)) (int 0))) (raised 4) = true := by
  decide +kernel
/-- V-MUL: the largest product tested that fits. -/
theorem test_mul_fits : gives (exec (.mul 2 0 1) (twoS (int (2 ^ 255 - 1)) (int (-1))))
    (s2Is (int (-(2 ^ 255 - 1)))) = true := by decide +kernel
/-- V-MUL: a product of magnitude `2^255`. -/
theorem test_mul_overflow : gives (exec (.mul 2 0 1) (twoS (int (-2 ^ 127)) (int (2 ^ 128)))) (raised 5) = true := by
  decide +kernel
/-- V-SHR: rounding is towards minus infinity, across limbs. -/
theorem test_shr_floor : gives (exec (.shr 2 0 64) (twoS (int (-(2 ^ 64 + 1))) (int 0))) (s2Is (int (-2))) = true := by
  decide +kernel
/-- V-SHR: negative zero gains the mask. -/
theorem test_shr_negative_zero : gives (exec (.shr 2 0 1) (twoS (pair true 0) (int 0)))
    (s2Is (pair true (2 ^ 255))) = true := by decide +kernel
/-- V-OR: a mask put into a negative value. -/
theorem test_or_mask : gives (exec (.or 2 0 1) (twoS (int (-(128 * 2 ^ 64))) (int (2 ^ 63))))
    (s2Is (int (-2351959869397967831040))) = true := by decide +kernel
/-- V-OR: two negatives. -/
theorem test_or_negatives : gives (exec (.or 2 0 1) (twoS (int (-8)) (int (-3)))) (s2Is (int (-3))) = true := by
  decide +kernel
/-- V-COMPL: limb 3 `0x8000000000000000`, limb 0 `1`. -/
theorem test_compl : gives (exec (.compl 2 0) (twoS (int (-(2 ^ 255 - 1))) (int 0)))
    (s2Is (pair true (2 ^ 255 + 1))) = true := by decide +kernel
/-- V-COMPL: negative zero. -/
theorem test_compl_negative_zero : gives (exec (.compl 2 0) (twoS (pair true 0) (int 0)))
    (s2Is (pair false 0)) = true := by decide +kernel
/-- V-CONV: ZERO reads nothing, so it runs as the first command after reset. -/
theorem test_zero_first : gives (step (State.reset.withFetchWord 32 0x00000209))
    (fun t => s2Is (pair false 0) t && t.writtenS 2) = true := by decide +kernel
/-- V-CONV: bit 255 is refused. -/
theorem test_fromu_overflow : gives (exec (.fromu 2 1) (oneU (2 ^ 255))) (raised 2) = true := by decide +kernel
/-- V-CONV: the largest that fits. -/
theorem test_fromu_fits : gives (exec (.fromu 2 1) (oneU (2 ^ 255 - 1))) (s2Is (int (2 ^ 255 - 1))) = true := by
  decide +kernel
/-- V-CONV: bit 255 is not checked. -/
theorem test_fromun : gives (exec (.fromun 2 1) (oneU (2 ^ 256 - 1))) (s2Is (pair false (2 ^ 256 - 1))) = true := by
  decide +kernel
/-- V-CONV: the widest source, negative. -/
theorem test_fromu128_fits : gives (exec (.fromu128 2 1 true) (oneU (2 ^ 128 - 1)))
    (s2Is (int (-(2 ^ 128 - 1)))) = true := by decide +kernel
/-- V-CONV: one above. -/
theorem test_fromu128_overflow : gives (exec (.fromu128 2 1 false) (oneU (2 ^ 128))) (raised 2) = true := by
  decide +kernel
/-- V-CONV: a negative value. -/
theorem test_asi64 : gives (exec (.asi64 1 0) (twoS (int (-106875)) (int 0)))
    (fun t => t.readT 1 == 0xFFFFFFFFFFFE5E85) = true := by decide +kernel
/-- V-CONV: limbs 1 to 3 are zero but the value does not fit. -/
theorem test_asi64_overflow : gives (exec (.asi64 1 0) (twoS (int (2 ^ 63)) (int 0))) (raised 6) = true := by
  decide +kernel
/-- V-SQ: a negative tick, so no inversion. -/
theorem test_sqrtp : gives (exec (.sqrtp 0 1) (oneT (-887272))) (fun t => (t.readU 0).toNat == 4295128739) = true := by
  decide +kernel
/-- V-SQ: the one tick that raises under both settings. -/
theorem test_sqrtp_lowest : gives (exec (.sqrtp 0 1) (oneT (-2 ^ 63))) (raised 7) = true := by decide +kernel
/-- V-LOG: the tie-break takes the upper bound. -/
theorem test_logsp : gives (exec (.logsp 0 1) (oneU 79232123823359799118286999568))
    (fun t => ival (t.readT 0) == 1) = true := by decide +kernel
/-- V-LOG: a price that wraps to 0. -/
theorem test_logsp_wraps : gives (exec (.logsp 0 1) (oneU (2 ^ 224)))
    (fun t => ival (t.readT 0) == -1774545) = true := by decide +kernel

/-- SQRTP and LOGSP run as the first command after reset. -/
theorem test_prices_first :
    gives (step (State.reset.withFetchWord 32 0x0000000E)) (fun t => t.status == ⟨0, false, false⟩) = true ∧
    gives (step (State.reset.withFetchWord 32 0x0000000F)) (fun t => t.status == ⟨0, false, false⟩) = true := by
  decide +kernel

/-- 70_reset_and_hazards.md R285: a run that reads an unwritten source, or an unwritten word, has no
observation; one that writes first has. -/
theorem test_run_observation :
    runObservation referenceParams [issue (.compl 0 0)] = none ∧
    runObservation referenceParams [.read 0x50] = none ∧
    runObservation referenceParams [.write 0x50 5] = some ⟨[(0x50, 5)], none, 0, false⟩ := by decide +kernel

/-! For each statement with hypotheses, a concrete case that meets them. -/

theorem witness_LegalWordIsItsCommandsEncoding : decode 0x00010203 = .ok (.add 2 0 1) := by decide

theorem witness_DecoderAgreesWithOpcodeMap :
    (∃ r ∈ opcodeTable, r.selects 0x00010203 = true) ∧ (∀ r ∈ opcodeTable, r.selects 0 = false) := by
  decide

theorem witness_IllegalWordRaisesIllegalCommand :
    (waiting [.write cmdAddr 0]).script = .write cmdAddr 0 :: [] ∧
    (waiting [.write cmdAddr 0]).status.fault = false ∧ (fieldsOf 0).wellFormed = false := by decide

theorem witness_StepRunsTheDecodedCommand :
    (waiting [.write cmdAddr 0x00000209]).script = .write cmdAddr 0x00000209 :: [] ∧
    (waiting [.write cmdAddr 0x00000209]).status.fault = false ∧ decode 0x00000209 = .ok (.zero 2) := by decide

theorem witness_FaultedUnitIgnoresCommandsUntilReset :
    (faulted [.write cmdAddr 9]).script = .write cmdAddr 9 :: [] ∧
    (faulted [.write cmdAddr 9]).status.fault = true ∧
    (faulted [.write 0x53 9]).script = .write 0x53 9 :: [] ∧ (0x53 : WordAddr) ≠ cmdAddr ∧
    (faulted [.write 0x53 9]).status.fault = true ∧
    (faulted [.read 0x61]).script = .read 0x61 :: [] ∧ HostAction.read 0x61 ≠ .reset ∧
    (faulted [.read 0x61]).status.fault = true ∧
    (faulted [.reset]).script = .reset :: [] := by decide

theorem witness_faulted_steps :
    ∃ t, step (faulted [.read 0x61]) = .next t ∧ t.status.fault = true := by
  exact ⟨_, rfl, rfl⟩

theorem witness_ErrorChangesStatusAlone :
    State.reset.status.fault = false ∧ (fieldsOf 0x100010203).wellFormed = false := by decide

theorem witness_EveryStepKeepsStatusOk :
    StatusOk (waiting [.write cmdAddr 0]) ∧
    ∃ t, step (waiting [.write cmdAddr 0]) = .next t ∧ t.status = ⟨8, true, false⟩ := by
  exact ⟨by decide, _, next_of_answer _ _ rfl, by decide⟩

theorem witness_NoStepChangesTheParameters : ∃ t, step (waiting [.reset]) = .next t := ⟨_, rfl⟩

theorem witness_NoCommandWritesNegativeZero :
    destS (.zero 3) = some 3 ∧
    ∃ t, exec (.zero 3) (twoS (pair true 0) (int 0)) = .next t ∧ t.readS 0 = ⟨true, 0⟩ := by
  exact ⟨rfl, _, rfl, by decide +kernel⟩

theorem witness_CommandsKeepTheInvariant :
    AllValid (twoS (int (-5)) (int (2 ^ 255 - 1))) ∧
    (∃ t, exec (.or 2 0 1) (twoS (int (-5)) (int (2 ^ 255 - 1))) = .next t) ∧
    (∀ d a, Instr.or 2 0 1 ≠ .fromun d a) ∧ (∀ d a, Instr.or 2 0 1 ≠ .compl d a) := by
  exact ⟨by decide +kernel, ⟨_, rfl⟩, by decide, by decide⟩

theorem witness_IdleUnitKeepsEverything : State.reset.script = [] := rfl

theorem witness_FrameOfCommandsThatWriteS :
    destS (.add 2 0 1) = some 2 ∧
    (∃ t, exec (.add 2 0 1) (twoS (int 5) (int (-5))) = .next t) ∧
    ∃ t, exec (.add 2 0 1) (twoS (int (2 ^ 254)) (int (2 ^ 254))) = .next t ∧ t.status.fault = true :=
  ⟨rfl, ⟨_, next_of_answer _ (State.writeS (twoS (int 5) (int (-5))) 2 (int 0)) (by decide +kernel)⟩,
    ⟨State.raise (twoS (int (2 ^ 254)) (int (2 ^ 254))) .additionOverflow,
      next_of_answer _ _ (by decide +kernel), rfl⟩⟩

theorem witness_FrameOfCommandsThatWriteUAndT :
    exec (.sqrtp 0 1) (oneT (-2 ^ 63)) = .next ((oneT (-2 ^ 63)).raise .substrateFault) ∧
    exec (.logsp 3 1) (oneU 0) = .next ((oneU 0).writeT 3 (BitVec.ofInt 64 (-1774546))) ∧
    exec (.asi64 0 0) (twoS (int 7) (int 0)) = .next ((twoS (int 7) (int 0)).writeT 0 7) :=
  ⟨next_of_answer _ _ (by decide +kernel), next_of_answer _ _ (by decide +kernel),
    next_of_answer _ _ (by decide +kernel)⟩

theorem witness_FrameOfCompares :
    (∃ t, exec (.cmp 0 1) (twoS (int 1) (int 2)) = .next t) ∧
    ∃ t, exec (.acmp 0 0) (twoS (int 1) (int 2)) = .next t := ⟨⟨_, rfl⟩, ⟨_, rfl⟩⟩

/-- The four sign pairs, at equal and at unequal magnitudes. -/
theorem witness_CmpWritesTheSignedOrder :
    (let s := twoS (pair true 0) (pair false 0)
     (s.readS 0).neg = true ∧ (s.readS 1).neg = false) ∧
    (let s := twoS (pair false 0) (pair true 0)
     (s.readS 0).neg = false ∧ (s.readS 1).neg = true) ∧
    (let s := twoS (pair false 3) (pair false 3)
     (s.readS 0).neg = false ∧ (s.readS 1).neg = false) ∧
    (let s := twoS (pair true 3) (pair true (2 ^ 256 - 1))
     (s.readS 0).neg = true ∧ (s.readS 1).neg = true) := by decide +kernel

theorem witness_CmpOfValidOperandsIsTheIntegerOrder :
    Valid ((twoS (int (-(2 ^ 255 - 1))) (int (2 ^ 255 - 1))).readS 0) ∧
    Valid ((twoS (int (-(2 ^ 255 - 1))) (int (2 ^ 255 - 1))).readS 1) ∧
    Valid (int (-2)) ∧ Valid (int 0) ∧ Valid (int 2) ∧
    signedOrder (int (-2)) (int 0) = .less ∧ signedOrder (int 0) (int 2) = .less := by decide +kernel

/-- Each clause of ADD at the edge of its range. -/
theorem witness_AddWritesTheSumOrRaises :
    (let s := twoS (pair false (2 ^ 255 - 2)) (pair false 1)
     (s.readS 0).neg = (s.readS 1).neg ∧ (s.readS 0).mag.toNat + (s.readS 1).mag.toNat = 2 ^ 255 - 1) ∧
    (let s := twoS (pair true (2 ^ 255 - 1)) (pair true 1)
     (s.readS 0).neg = (s.readS 1).neg ∧ (s.readS 0).mag.toNat + (s.readS 1).mag.toNat = 2 ^ 255) ∧
    (let s := twoS (pair false (2 ^ 255)) (pair true 1)
     (s.readS 0).neg ≠ (s.readS 1).neg ∧ (s.readS 0).mag.toNat - (s.readS 1).mag.toNat = 2 ^ 255 - 1) ∧
    (let s := twoS (pair false (2 ^ 255)) (pair true 0)
     (s.readS 0).neg ≠ (s.readS 1).neg ∧ (s.readS 0).mag.toNat - (s.readS 1).mag.toNat = 2 ^ 255) ∧
    (let s := twoS (pair false 0) (pair true (2 ^ 255 - 1))
     (s.readS 0).neg ≠ (s.readS 1).neg ∧ (s.readS 1).mag.toNat - (s.readS 0).mag.toNat = 2 ^ 255 - 1) ∧
    (let s := twoS (pair true 0) (pair false (2 ^ 255))
     (s.readS 0).neg ≠ (s.readS 1).neg ∧ (s.readS 1).mag.toNat - (s.readS 0).mag.toNat = 2 ^ 255) := by
  decide +kernel

theorem witness_AddOfValidOperandsIsExact :
    Valid (int (2 ^ 255 - 1)) ∧ Valid (int 1) ∧ Valid (int (-1)) ∧
    (valOf ((twoS (int (2 ^ 255 - 1)) (int (-1))).readS 0) +
      valOf ((twoS (int (2 ^ 255 - 1)) (int (-1))).readS 1)).natAbs < 2 ^ 255 ∧
    2 ^ 255 ≤ (valOf ((twoS (int (2 ^ 255 - 1)) (int 1)).readS 0) +
      valOf ((twoS (int (2 ^ 255 - 1)) (int 1)).readS 1)).natAbs := by decide +kernel

/-- Each clause of SUB at the edge of its range. -/
theorem witness_SubWritesTheDifferenceOrRaises :
    (let s := twoS (pair false (2 ^ 255 - 2)) (pair true 1)
     (s.readS 0).neg ≠ (s.readS 1).neg ∧ (s.readS 0).mag.toNat + (s.readS 1).mag.toNat = 2 ^ 255 - 1) ∧
    (let s := twoS (pair true (2 ^ 255 - 1)) (pair false 1)
     (s.readS 0).neg ≠ (s.readS 1).neg ∧ (s.readS 0).mag.toNat + (s.readS 1).mag.toNat = 2 ^ 255) ∧
    (let s := twoS (pair false (2 ^ 255)) (pair false 1)
     (s.readS 0).neg = (s.readS 1).neg ∧ (s.readS 0).mag.toNat - (s.readS 1).mag.toNat = 2 ^ 255 - 1) ∧
    (let s := twoS (pair false (2 ^ 255)) (pair false 0)
     (s.readS 0).neg = (s.readS 1).neg ∧ (s.readS 0).mag.toNat - (s.readS 1).mag.toNat = 2 ^ 255) ∧
    (let s := twoS (pair true 0) (pair true (2 ^ 255 - 1))
     (s.readS 0).neg = (s.readS 1).neg ∧ (s.readS 1).mag.toNat - (s.readS 0).mag.toNat = 2 ^ 255 - 1) ∧
    (let s := twoS (pair true 0) (pair true (2 ^ 255))
     (s.readS 0).neg = (s.readS 1).neg ∧ (s.readS 1).mag.toNat - (s.readS 0).mag.toNat = 2 ^ 255) := by
  decide +kernel

theorem witness_SubOfValidOperandsIsExact :
    Valid (int (2 ^ 255 - 1)) ∧ Valid (int 1) ∧ Valid (int (-1)) ∧
    (valOf ((twoS (int (2 ^ 255 - 1)) (int 1)).readS 0) -
      valOf ((twoS (int (2 ^ 255 - 1)) (int 1)).readS 1)).natAbs < 2 ^ 255 ∧
    2 ^ 255 ≤ (valOf ((twoS (int (2 ^ 255 - 1)) (int (-1))).readS 0) -
      valOf ((twoS (int (2 ^ 255 - 1)) (int (-1))).readS 1)).natAbs := by decide +kernel

theorem witness_AddAndSubLaws : Valid (int (-7)) ∧ Valid (int 3) := by decide +kernel

theorem witness_MulWritesTheProductOrRaises :
    (let s := twoS (pair true (2 ^ 255 - 1)) (pair false 1)
     (s.readS 0).mag.toNat * (s.readS 1).mag.toNat = 2 ^ 255 - 1) ∧
    (let s := twoS (pair true (2 ^ 127)) (pair false (2 ^ 128))
     (s.readS 0).mag.toNat * (s.readS 1).mag.toNat = 2 ^ 255) := by decide +kernel

theorem witness_MulLaws :
    Valid (int (2 ^ 254)) ∧ Valid (int 2) ∧ Valid (int (-1)) ∧
    (valOf (int (2 ^ 254)) * valOf (int (-1))).natAbs < 2 ^ 255 ∧
    2 ^ 255 ≤ (valOf (int (2 ^ 254)) * valOf (int 2)).natAbs := by decide +kernel

/-- Both signs, at the shifts 0 and 255; the equation for `q` has a solution for every operand. -/
theorem witness_ShrWritesTheArithmeticShift :
    ((twoS (pair true 0) (pair false (2 ^ 256 - 1))).readS 0).neg = true ∧
    ((twoS (pair true 0) (pair false (2 ^ 256 - 1))).readS 1).neg = false ∧
    (patternOf (pair true 1)).toNat / 2 ^ (255#8).toNat + (2 ^ (255#8).toNat - 1) * 2 ^ (256 - (255#8).toNat) =
      2 ^ 256 - 1 ∧
    (patternOf (pair true 0)).toNat / 2 ^ (0#8).toNat + (2 ^ (0#8).toNat - 1) * 2 ^ (256 - (0#8).toNat) = 0 := by
  decide +kernel

theorem witness_ShrOfValidOperandIsFloorDivision :
    Valid ((twoS (int (-(2 ^ 255 - 1))) (int 0)).readS 0) ∧ Valid (int (-(2 ^ 255 - 1))) ∧ 255 < 256 ∧
      100 + 155 < 256 := by decide +kernel

theorem witness_OrWritesTheOrOfThePatterns :
    ((twoS (pair false 1) (pair false 2)).readS 0).neg = false ∧
    ((twoS (pair false 1) (pair false 2)).readS 1).neg = false ∧
    ((twoS (pair false 1) (pair true 0)).readS 1).neg = true := by decide +kernel

theorem witness_OrOfValidOperandsIsTwosComplementOr : Valid (int (-8)) ∧ Valid (int 3) := by decide +kernel

theorem witness_ComplWritesThePattern :
    ((twoS (pair true 1) (pair false 2)).readS 1).neg = false ∧
    ((twoS (pair true 1) (pair false 2)).readS 0).neg = true ∧
    ((twoS (pair true 1) (pair false 2)).readS 0).mag ≠ 0 ∧
    (twoS (pair true 0) (pair false 2)).readS 0 = ⟨true, 0⟩ := by decide +kernel

theorem witness_ComplTwiceIsTheIdentity : pair true 1 ≠ ⟨true, 0⟩ ∧ pair false 0 ≠ ⟨true, 0⟩ := by decide +kernel

theorem witness_FromuWritesTheValueOrRaises :
    ((oneU (2 ^ 255 - 1)).readU 1).toNat < 2 ^ 255 ∧ 2 ^ 255 ≤ ((oneU (2 ^ 255)).readU 1).toNat := by
  decide +kernel

theorem witness_Fromu128WritesTheSignedValueOrRaises :
    ((oneU (2 ^ 128 - 1)).readU 1).toNat < 2 ^ 128 ∧ 2 ^ 128 ≤ ((oneU (2 ^ 128)).readU 1).toNat := by
  decide +kernel

theorem witness_Asi64WritesTheValueOrRaises :
    (-2 ^ 63 ≤ valOf ((twoS (int (-2 ^ 63)) (int (2 ^ 63 - 1))).readS 0) ∧
      valOf ((twoS (int (-2 ^ 63)) (int (2 ^ 63 - 1))).readS 1) ≤ 2 ^ 63 - 1) ∧
    valOf ((twoS (int (-2 ^ 63 - 1)) (int (2 ^ 63))).readS 0) < -2 ^ 63 ∧
    2 ^ 63 - 1 < valOf ((twoS (int (-2 ^ 63 - 1)) (int (2 ^ 63))).readS 1) := by decide +kernel

theorem witness_ConversionLaws :
    (BitVec.ofNat 256 (2 ^ 63 - 1)).toNat < 2 ^ 63 ∧ Valid (int (-2 ^ 63)) ∧ -2 ^ 63 ≤ valOf (int (-2 ^ 63)) ∧
    valOf (int (-2 ^ 63)) ≤ 2 ^ 63 - 1 ∧ (BitVec.ofNat 256 (2 ^ 128 - 1)).toNat < 2 ^ 128 := by decide +kernel

/-- A negative and a positive tick with the reference constants, under both settings, and a constant
set whose accumulator of tick 1 is 0. -/
theorem witness_SqrtpWritesTheRoundedRatio :
    ConstantsInRange (oneT (-1)).params ∧ ival ((oneT (-1)).readT 1) < 0 ∧
    (ival ((oneT (-1)).readT 1)).natAbs < 2 ^ 20 ∧ (oneT (-1)).params.wideTick = .ignore ∧
    0 ≤ ival ((oneT (2 ^ 63 - 1)).readT 1) ∧ (ival ((oneT (2 ^ 63 - 1)).readT 1)).natAbs < 2 ^ 63 ∧
    0 < sqrtAccumulator (oneT (2 ^ 63 - 1)).params (2 ^ 63 - 1) ∧
    ConstantsInRange (zeroBase (oneT 1)).params ∧ 0 ≤ ival ((zeroBase (oneT 1)).readT 1) ∧
    sqrtAccumulator (zeroBase (oneT 1)).params 1 = 0 ∧
    (ival ((wideFault (oneT (2 ^ 20 - 1))).readT 1)).natAbs < 2 ^ 20 ∧
    (ival ((oneT (-2 ^ 63)).readT 1)).natAbs = 2 ^ 63 ∧ (wideFault (oneT (2 ^ 20))).params.wideTick = .fault ∧
    (ival ((wideFault (oneT (-2 ^ 20))).readT 1)).natAbs = 2 ^ 20 := by decide +kernel

theorem witness_SqrtpOfTickZeroIsOne : (oneT 0).readT 1 = 0 := by decide +kernel

theorem witness_SqrtpWideTicks :
    ival ((oneT (-2 ^ 63)).readT 1) = -2 ^ 63 ∧
    (wideFault (oneT (2 ^ 20))).params.wideTick = .fault ∧
    2 ^ 20 ≤ (ival ((wideFault (oneT (2 ^ 20))).readT 1)).natAbs ∧
    referenceParams.wideTick = .ignore ∧ ival 0x100001 ≠ -2 ^ 63 ∧ ival 0x1 ≠ -2 ^ 63 ∧
    (ival 0x100001 < 0 ↔ ival 0x1 < 0) ∧
    (ival 0x100001).natAbs % 2 ^ 20 = (ival 0x1).natAbs % 2 ^ 20 := by decide +kernel

theorem witness_SqrtpCompletesUnderReferenceConstants :
    ReferenceConstants (oneT (2 ^ 63 - 1)).params ∧ ival ((oneT (2 ^ 63 - 1)).readT 1) ≠ -2 ^ 63 ∧
    (oneT (2 ^ 63 - 1)).params.wideTick = .ignore ∧
    ReferenceConstants (wideFault (oneT (1 - 2 ^ 20))).params ∧
    (ival ((wideFault (oneT (1 - 2 ^ 20))).readT 1)).natAbs < 2 ^ 20 := by decide +kernel

theorem witness_LogspSeedIsNormalised : (1#256 : U256) ≠ 0 ∧ (0#256 : U256) = 0 := by decide

theorem witness_LogspRoundExtractsOneBit : (BitVec.ofNat 256 (2 ^ 128 - 1)).toNat < 2 ^ 128 := by decide +kernel

/-- The two ends of the logarithm's range. -/
theorem witness_LogspBoundsAreRoundedDown :
    ConstantsInRange referenceParams ∧ Valid (int (-2 ^ 71)) ∧ (valOf (int (-2 ^ 71))).natAbs ≤ 2 ^ 71 ∧
    Valid (int (2 ^ 71)) ∧ (valOf (int (2 ^ 71))).natAbs ≤ 2 ^ 71 := by decide +kernel

/-- Bounds that raise, equal bounds, and unequal bounds with the upper price below, above and an error. -/
theorem witness_LogspPicksABoundByTheRecomputedPrice :
    (let s := wildBound (oneU (2 ^ 96))
     logBounds s.params (s.readU 1) = .error .subtractionOverflow) ∧
    (let s := oneU 79249950258955760286382174922
     logBounds s.params (s.readU 1) = .ok (5, 5)) ∧
    (let s := oneU 79232123823359799118286999568
     logBounds s.params (s.readU 1) = .ok (0, 1) ∧ sqrtPrice s.params 1 = .ok (s.readU 1)) ∧
    (let s := oneU 79232123823359799118286999567
     logBounds s.params (s.readU 1) = .ok (0, 1) ∧
       sqrtPrice s.params 1 = .ok (BitVec.ofNat 256 ((s.readU 1).toNat + 1))) ∧
    (let s := wideFault (oneU 0)
     logBounds s.params (s.readU 1) = .ok (BitVec.ofInt 64 (-1774546), BitVec.ofInt 64 (-1774545)) ∧
       sqrtPrice s.params (BitVec.ofInt 64 (-1774545)) = .error .substrateFault) := by
  decide +kernel

theorem witness_LogspCompletesUnderReferenceConstants :
    ReferenceConstants (oneU (2 ^ 256 - 1)).params ∧ (oneU (2 ^ 256 - 1)).params.wideTick = .ignore := by
  decide +kernel

theorem witness_StatusRegisterReadsAndResets :
    (waiting [.write statusAddr 7]).script = .write statusAddr 7 :: [] ∧
    (faulted [.write cmdAddr 9]).script = .write cmdAddr 9 :: [] ∧ HostAction.write cmdAddr 9 ≠ .reset ∧
    (faulted [.write cmdAddr 9]).status.fault = true ∧
    answer (step (faulted [.write cmdAddr 9])) = some (faulted []) := by decide +kernel

theorem witness_OrdRegisterIsTheComparesAlone :
    (waiting [.write ordAddr 2]).script = .write ordAddr 2 :: [] ∧
    (∀ a b, Instr.zero 3 ≠ .cmp a b) ∧ (∀ a b, Instr.zero 3 ≠ .acmp a b) ∧
    (answer (exec (.zero 3) State.reset)).isSome = true := by decide +kernel

theorem witness_WindowSideEffects :
    (waiting [.write cmdAddr 9]).script = .write cmdAddr 9 :: [] ∧
    windowWord 0x61 = .status ∧ windowWord 0x62 = .ord ∧ windowWord 0x05 = .reserved ∧ windowWord 0xFF = .reserved ∧
    windowWord 0x60 = .cmd ∧ (waiting [.read 0x54]).script = .read 0x54 :: [] ∧
    (waiting [.write (sNegAddr 7) 3]).script = .write (sNegAddr 7) 3 :: [] := by decide

theorem witness_HostWriteIsReadBackInPlace :
    (waiting [.write (sMagAddr 7 3) 5]).script = .write 0x3B 5 :: [] ∧
    (waiting [.write (uLimbAddr 3 3) 5]).script = .write 0x4F 5 :: [] ∧
    (waiting [.write (tWordAddr 3) 5]).script = .write 0x53 5 :: [] ∧
    (waiting [.write (sNegAddr 7) 3]).script = .write 0x3C 3 :: [] := by decide

theorem witness_HostWriteTouchesOneWord :
    (waiting [.write 0x40 5]).script = .write 0x40 5 :: [] ∧ windowWord 0x40 ≠ .cmd ∧ windowWord 0x40 ≠ .ord ∧
    (0x41 : WordAddr) ≠ 0x40 := by decide

theorem witness_ResetClearsStatusAndMakesAllUnwritten :
    (faulted [.reset, .read 0x61]).script = .reset :: [.read 0x61] := by decide

theorem witness_StateAfterReset :
    WindowWord.sNeg 0 ≠ .cmd ∧ WindowWord.sNeg 0 ≠ .status ∧ WindowWord.sNeg 0 ≠ .reserved := by decide

/-- A source written and not, and both kinds of read. -/
theorem witness_UnwrittenReadIsAModelFault :
    decode 0x00000008 = .ok (.compl 0 0) ∧ (waiting [.write cmdAddr 8]).status.fault = false ∧
    ((waiting [.write cmdAddr 8]).writeS 0 (int 1)).status.fault = false ∧
    (waiting [.read 0x00]).script = .read 0x00 :: [] ∧ (waiting [.read 0x61]).script = .read 0x61 :: [] ∧
    (waiting [.write cmdAddr 8]).script = .write cmdAddr 8 :: [] ∧
    (waiting [.write cmdAddr 8]).sourcesWritten (.compl 0 0) = false ∧
    ((waiting [.write cmdAddr 8]).writeS 0 (int 1)).sourcesWritten (.compl 0 0) = true ∧
    ((waiting [.write cmdAddr 8]).writeS 0 (int 1)).script = .write cmdAddr 8 :: [] ∧
    (waiting [.read 0x00]).wordWritten (windowWord 0x00) = false ∧
    (waiting [.read 0x61]).wordWritten (windowWord 0x61) = true := by decide +kernel

/-- Two states that differ in a register which is not written. -/
theorem witness_UnwrittenContentsNeverMatter :
    AgreeOnWritten State.reset { State.reset with tregs := State.reset.tregs.set 0 5 } ∧
    State.reset ≠ { State.reset with tregs := State.reset.tregs.set 0 5 } := by decide +kernel

theorem witness_WholeWordBusAccessIsTheWindowAccess :
    (waiting [.busWrite (0 + 8 * (0xFF#8).toNat) (wordToBus .little 0x0102030405060708)]).script =
      .busWrite 2040 [8, 7, 6, 5, 4, 3, 2, 1] :: [] ∧
    (waiting [.busRead (0 + 8 * (0x61#8).toNat) 8]).script = .busRead 776 8 :: [] := by decide

theorem witness_PartialWordAccessIsRefused :
    (waiting [.busWrite 2047 [1]]).script = .busWrite (0 + 2047) [1] :: [] ∧ 2047 < 8 * 256 ∧ 2047 % 8 ≠ 0 ∧
    (waiting [.busRead 8 4]).script = .busRead (0 + 8) 4 :: [] ∧ 4 ≠ 8 := by decide

theorem witness_PseudoInstructionsDoWhatTheyName :
    (0 : SIdx) ≠ 1 ∧ Valid ((twoS (int 0) (int (-5))).readS 1) := by decide +kernel

end Sys2Proof.Tests
end

section
/-! What the host's reads and writes of ORD and CMD do, which commands write ORD, and what is written after
reset (10_state.md R34, R36, R44). -/

namespace Sys2Proof.Machine

/-! ## The window words -/

theorem readWindow_cmdAddr (s : State) : s.readWindow cmdAddr = 0 := by
  rw [State.readWindow, windowWord_cmdAddr]; rfl

theorem readWindow_ordAddr (s : State) : s.readWindow ordAddr = orderWord s.ord := by
  rw [State.readWindow, windowWord_ordAddr]; rfl

/-- The step of a host write is the access it makes, with the script moved on (20_memory.md R72). -/
theorem step_write (s : State) (a : WordAddr) (w : Word64) (rest : List HostAction)
    (h : s.script = .write a w :: rest) : step s = writeAccess a w (s.withScript rest) := by
  rw [step, nextAction, h]; rfl

/-- A host write of any word but CMD stores it (20_memory.md R65). -/
theorem step_write_of_ne_cmd (s : State) (a : WordAddr) (w : Word64) (rest : List HostAction)
    (h : s.script = .write a w :: rest) (ha : windowWord a ≠ .cmd) :
    step s = .next ((s.withScript rest).storeWord (windowWord a) w) := by
  rw [step_write s a w rest h, writeAccess_of_ne_cmd a w _ ha]

@[simp] theorem storeWord_ord_word (s : State) (w : Word64) : s.storeWord .ord w = s := rfl

/-- While every word is unwritten, only the words that hold no register count as written
(20_memory.md R65, R66). -/
theorem wordWritten_of_written_none (s : State) (hs : s.written = Written.none) (x : WindowWord)
    (hc : x ≠ .cmd) (ht : x ≠ .status) (hr : x ≠ .reserved) : s.wordWritten x = false := by
  cases x with
  | sMag i j => simp [State.wordWritten, hs, Written.none]
  | sNeg i => simp [State.wordWritten, hs, Written.none]
  | uLimb i j => simp [State.wordWritten, hs, Written.none]
  | tWord i => simp [State.wordWritten, hs, Written.none]
  | cmd => exact absurd rfl hc
  | status => exact absurd rfl ht
  | ord => simp [State.wordWritten, hs, Written.none]
  | reserved => exact absurd rfl hr

/-! ## The commands that leave ORD -/

theorem finishS_ord (d : SIdx) (r : Except AuError I256) (s t : State) (h : finishS d r s = .next t) :
    t.ord = s.ord := by
  cases r <;> cases h <;> rfl

theorem finishU_ord (d : UIdx) (r : Except AuError U256) (s t : State) (h : finishU d r s = .next t) :
    t.ord = s.ord := by
  cases r <;> cases h <;> rfl

theorem finishT_ord (d : TIdx) (r : Except AuError I64) (s t : State) (h : finishT d r s = .next t) :
    t.ord = s.ord := by
  cases r <;> cases h <;> rfl

/-- A command that ends by writing a register or raising leaves ORD, so only the compares write it
(10_state.md R34). -/
theorem exec_ord_of_ne_compare (i : Instr) (s t : State) (hc : ∀ a b, i ≠ .cmp a b)
    (ha : ∀ a b, i ≠ .acmp a b) (h : exec i s = .next t) : t.ord = s.ord := by
  cases i with
  | cmp a b => exact absurd rfl (hc a b)
  | acmp a b => exact absurd rfl (ha a b)
  | add d a b => exact finishS_ord _ _ s t (exec_add d a b s ▸ h)
  | sub d a b => exact finishS_ord _ _ s t (exec_sub d a b s ▸ h)
  | mul d a b => exact finishS_ord _ _ s t (exec_mul d a b s ▸ h)
  | shr d a n => exact finishS_ord _ _ s t (exec_shr d a n s ▸ h)
  | or d a b => exact finishS_ord _ _ s t (exec_or d a b s ▸ h)
  | compl d a => exact finishS_ord _ _ s t (exec_compl d a s ▸ h)
  | zero d => exact finishS_ord _ _ s t (exec_zero d s ▸ h)
  | fromu d a => exact finishS_ord _ _ s t (exec_fromu d a s ▸ h)
  | fromun d a => exact finishS_ord _ _ s t (exec_fromun d a s ▸ h)
  | fromu128 d a n => exact finishS_ord _ _ s t (exec_fromu128 d a n s ▸ h)
  | asi64 d a => exact finishT_ord _ _ s t (exec_asi64 d a s ▸ h)
  | sqrtp d a => exact finishU_ord _ _ s t (exec_sqrtp d a s ▸ h)
  | logsp d a => exact finishT_ord _ _ s t (exec_logsp d a s ▸ h)

/-! ## The obligations -/

/-- Settles O49: ORD's word by its three values, the ignored host write by the window's store, and the
frame by the end of each command. -/
theorem ordRegisterIsTheComparesAlone : Obligations.OrdRegisterIsTheComparesAlone := by
  unfold Obligations.OrdRegisterIsTheComparesAlone
  refine ⟨fun s => ?_, fun s w rest h => ?_, exec_ord_of_ne_compare⟩
  · rw [readWindow_ordAddr]
    cases s.ord <;> rfl
  · have hne : windowWord ordAddr ≠ .cmd := by decide
    rw [step_write_of_ne_cmd s ordAddr w rest h hne, windowWord_ordAddr, storeWord_ord_word]

/-- Settles O54: the reset state has STATUS 0 and every register word unwritten. -/
theorem stateAfterReset : Obligations.StateAfterReset :=
  ⟨rfl, by decide, readWindow_cmdAddr State.reset, wordWritten_of_written_none State.reset rfl⟩

end Sys2Proof.Machine
end

section
/-! The decoder and its two other descriptions, the format table and the opcode map, and the step on an
illegal word (30_encoding.md R82 to R87). -/

namespace Sys2Proof

/-! ## What each reader of the decoder accepts -/

theorem bind_eq_ok_iff {ε α β : Type} (x : Except ε α) (f : α → Except ε β) (b : β) :
    (x >>= f) = .ok b ↔ ∃ a, x = .ok a ∧ f a = .ok b := by
  cases x <;> simp [bind, Except.bind]

theorem exists_bind_eq_ok_iff {ε α β : Type} (x : Except ε α) (f : α → Except ε β) :
    (∃ b, (x >>= f) = .ok b) ↔ ∃ a, x = .ok a ∧ ∃ b, f a = .ok b := by
  cases x <;> simp [bind, Except.bind]

@[simp] theorem sIndex_eq_ok_iff (f : BitVec 4) (k : SIdx) : sIndex f = .ok k ↔ f = indexField k := by
  revert f k; decide

@[simp] theorem utIndex_eq_ok_iff (f : BitVec 4) (k : Fin 4) : utIndex f = .ok k ↔ f = indexField k := by
  revert f k; decide

@[simp] theorem unused_eq_ok_iff {n : Nat} (f : BitVec n) (u : Unit) : unused f = .ok u ↔ f = 0 := by
  rw [unused, ← BitVec.toNat_inj, BitVec.ofNat_eq_ofNat, BitVec.toNat_zero]
  split <;> simp [*]

@[simp] theorem signFlag_eq_ok_iff (f : BitVec 8) (b : Bool) :
    signFlag f = .ok b ↔ f = if b then 1 else 0 := by
  revert f b; decide

/-- The decoder answers a command only on the very fields the encoder lays out for it: an index is read
back from its field, and every field the format leaves out is 0 (30_encoding.md R87). -/
theorem fields_of_decodeFields (f : CmdFields) (i : Instr) (h : decodeFields f = .ok i) :
    f = i.fields := by
  obtain ⟨high, rsv, imm8, rs2, rs1, rd, op⟩ := f
  rw [decodeFields] at h
  split_ifs at h with hh hr
  obtain ⟨-, rfl⟩ := BitVec.toNat_eq_nat.mp (not_not.mp hh)
  obtain ⟨-, rfl⟩ := BitVec.toNat_eq_nat.mp (not_not.mp hr)
  split at h
  case h_16 => cases h
  all_goals
    rename_i hop
    obtain ⟨-, rfl⟩ := BitVec.toNat_eq_nat.mp hop
    simp only [bind_eq_ok_iff, pure, Except.pure, sIndex_eq_ok_iff, utIndex_eq_ok_iff,
      unused_eq_ok_iff, signFlag_eq_ok_iff, Except.ok.injEq, exists_const] at h
  -- The goals are numbered by opcode; what is left differs in how many fields are unused and read.
  case h_6 => obtain ⟨rfl, d, rfl, a, rfl, rfl⟩ := h; rfl
  case h_9 => obtain ⟨rfl, rfl, rfl, d, rfl, rfl⟩ := h; rfl
  case h_3 | h_4 | h_5 | h_7 | h_12 => obtain ⟨rfl, d, rfl, a, rfl, b, rfl, rfl⟩ := h; rfl
  all_goals obtain ⟨rfl, rfl, a, rfl, b, rfl, rfl⟩ := h; rfl

/-! ## The decoder and the format table -/

/-- The operand fields meet a row of the format table (30_encoding.md R84). -/
def Format.Admits (fmt : Format) (f : CmdFields) : Prop :=
  fmt.rd.admits f.rd = true ∧ fmt.rs1.admits f.rs1 = true ∧ fmt.rs2.admits f.rs2 = true ∧
    fmt.imm.admits f.imm8 = true

theorem wellFormed_iff (f : CmdFields) :
    f.wellFormed = true ↔ f.high = 0 ∧ f.rsv = 0 ∧ ∃ fmt, formatOf f.op = some fmt ∧ fmt.Admits f := by
  rw [CmdFields.wellFormed]
  cases formatOf f.op <;> simp [Format.Admits, and_assoc]

@[simp] theorem mustBeZero_admits_iff (f : BitVec 4) : IndexUse.mustBeZero.admits f = true ↔ f = 0 :=
  beq_iff_eq

@[simp] theorem sFile_admits_iff (f : BitVec 4) :
    IndexUse.sFile.admits f = true ↔ ∃ k : SIdx, f = indexField k := by
  revert f; decide

@[simp] theorem uFile_admits_iff (f : BitVec 4) :
    IndexUse.uFile.admits f = true ↔ ∃ k : UIdx, f = indexField k := by
  revert f; decide

@[simp] theorem tFile_admits_iff (f : BitVec 4) :
    IndexUse.tFile.admits f = true ↔ ∃ k : TIdx, f = indexField k := by
  revert f; decide

@[simp] theorem imm_mustBeZero_admits_iff (f : BitVec 8) : ImmUse.mustBeZero.admits f = true ↔ f = 0 :=
  beq_iff_eq

@[simp] theorem shiftAmount_admits (f : BitVec 8) : ImmUse.shiftAmount.admits f = true := rfl

@[simp] theorem signFlag_admits_iff (f : BitVec 8) :
    ImmUse.signFlag.admits f = true ↔ ∃ b : Bool, f = if b then 1 else 0 := by
  revert f; decide

/-- The decoder accepts exactly the fields of the format table: opcode by opcode, a reader accepts a field
when the table admits it (30_encoding.md R86). -/
theorem exists_decodeFields_iff (f : CmdFields) :
    (∃ i, decodeFields f = .ok i) ↔ f.wellFormed = true := by
  rw [wellFormed_iff, decodeFields]
  split_ifs with hh hr
  · simp [← BitVec.toNat_inj, hh]
  · simp [← BitVec.toNat_inj, hr]
  have hhigh : f.high = 0 := BitVec.eq_of_toNat_eq (not_not.mp hh)
  have hrsv : f.rsv = 0 := BitVec.eq_of_toNat_eq (not_not.mp hr)
  rw [formatOf]
  split
  case h_16 => simp [*]
  all_goals
    rename_i hop
    simp [hhigh, hrsv, hop, Format.Admits, exists_bind_eq_ok_iff, pure, Except.pure, and_assoc, and_comm,
      and_left_comm]

theorem exists_decode_iff (w : Word64) : (∃ i, decode w = .ok i) ↔ (fieldsOf w).wellFormed = true :=
  exists_decodeFields_iff (fieldsOf w)

theorem exists_decode_error_iff (w : Word64) :
    (∃ e, decode w = .error e) ↔ (fieldsOf w).wellFormed = false := by
  rw [← Bool.not_eq_true, ← exists_decode_iff]
  cases decode w <;> simp

/-! ## The format table and the rows of the opcode map -/

/-- The bits of an index field that its use fixes at 0 (30_encoding.md R82). -/
def IndexUse.mask : IndexUse → BitVec 4
  | .mustBeZero => 0xF
  | .sFile => 0x8
  | .uFile | .tFile => 0xC

/-- The bits of IMM8 that its use fixes at 0 (30_encoding.md R83). -/
def ImmUse.mask : ImmUse → BitVec 8
  | .mustBeZero => 0xFF
  | .shiftAmount => 0x00
  | .signFlag => 0xFE

theorem index_admits_iff (u : IndexUse) (f : BitVec 4) : u.admits f = true ↔ f &&& u.mask = 0 := by
  cases u <;> revert f <;> decide

theorem imm_admits_iff (u : ImmUse) (f : BitVec 8) : u.admits f = true ↔ f &&& u.mask = 0 := by
  cases u <;> revert f <;> decide

/-- The bits of the low half that a row of the format table fixes, RSV and OP whole. -/
def Format.mask (fmt : Format) : CmdFields :=
  ⟨0, 0xF, fmt.imm.mask, fmt.rs2.mask, fmt.rs1.mask, fmt.rd.mask, 0xFF⟩

/-- The fields below `high`: bits 31:0 of the word (30_encoding.md R81). -/
def CmdFields.low (f : CmdFields) : BitVec (4 + (8 + (4 + (4 + (4 + 8))))) :=
  f.rsv ++ (f.imm8 ++ (f.rs2 ++ (f.rs1 ++ (f.rd ++ f.op))))

theorem extractLsb'_eq_low (w : Word64) : w.extractLsb' 0 32 = (fieldsOf w).low := by
  conv_lhs => rw [← pack_fieldsOf w]
  exact BitVec.extractLsb'_append_eq_right

theorem append_eq_append_iff {m n : Nat} (x x' : BitVec m) (y y' : BitVec n) :
    x ++ y = x' ++ y' ↔ x = x' ∧ y = y' := by
  refine ⟨fun h => ⟨?_, ?_⟩, fun ⟨hx, hy⟩ => hx ▸ hy ▸ rfl⟩
  · rw [← BitVec.extractLsb'_append_eq_left (a := x) (b := y), h, BitVec.extractLsb'_append_eq_left]
  · rw [← BitVec.extractLsb'_append_eq_right (a := x) (b := y), h, BitVec.extractLsb'_append_eq_right]

/-- The masked low half of a word equals an opcode alone exactly when the format admits the fields. -/
theorem low_and_mask_eq_iff (f : CmdFields) (fmt : Format) (op : BitVec 8) :
    f.low &&& fmt.mask.low = CmdFields.low ⟨0, 0, 0, 0, 0, 0, op⟩ ↔
      f.rsv = 0 ∧ fmt.Admits f ∧ f.op = op := by
  have hrsv : f.rsv &&& 0xF = f.rsv := BitVec.and_allOnes
  have hop : f.op &&& 0xFF = f.op := BitVec.and_allOnes
  simp only [CmdFields.low, BitVec.and_append, append_eq_append_iff, Format.mask, hrsv, hop,
    Format.Admits, index_admits_iff, imm_admits_iff]
  tauto

/-- The opcode of a row of the opcode map, bits 7:0 of its match. -/
def OpcodeRow.opcode (r : OpcodeRow) : BitVec 8 := r.matchBits.extractLsb' 0 8

/-- Every row's mask is that of its opcode's format, and its match is the opcode alone
(30_encoding.md R84, R85). -/
theorem format_of_mem_opcodeTable (r : OpcodeRow) (hr : r ∈ opcodeTable) :
    ∃ fmt, formatOf r.opcode = some fmt ∧ r.mask = fmt.mask.low ∧
      r.matchBits = CmdFields.low ⟨0, 0, 0, 0, 0, 0, r.opcode⟩ := by
  have hrows : ∀ r ∈ opcodeTable, (formatOf r.opcode).map (·.mask.low) = some r.mask ∧
      r.matchBits = CmdFields.low ⟨0, 0, 0, 0, 0, 0, r.opcode⟩ := by decide
  obtain ⟨hmask, hmatch⟩ := hrows r hr
  obtain ⟨fmt, hfmt, hm⟩ := Option.map_eq_some_iff.mp hmask
  exact ⟨fmt, hfmt, hm.symm, hmatch⟩

/-- A word selects a row exactly when it carries the row's opcode and its fields meet the format table. -/
theorem selects_iff (w : Word64) (r : OpcodeRow) (hr : r ∈ opcodeTable) :
    r.selects w = true ↔ (fieldsOf w).op = r.opcode ∧ (fieldsOf w).wellFormed = true := by
  obtain ⟨fmt, hfmt, hmask, hmatch⟩ := format_of_mem_opcodeTable r hr
  have hselects : r.selects w = true ↔
      (fieldsOf w).low &&& fmt.mask.low = CmdFields.low ⟨0, 0, 0, 0, 0, 0, r.opcode⟩ ∧
        (fieldsOf w).high = 0 := by
    rw [OpcodeRow.selects, extractLsb'_eq_low, hmask, hmatch, Bool.and_eq_true, beq_iff_eq, beq_iff_eq]
    rfl
  rw [hselects, low_and_mask_eq_iff, wellFormed_iff]
  constructor
  · rintro ⟨⟨hrsv, hadm, hop⟩, hhigh⟩
    exact ⟨hop, hhigh, hrsv, fmt, hop ▸ hfmt, hadm⟩
  · rintro ⟨hop, hhigh, hrsv, fmt', hfmt', hadm⟩
    rw [hop, hfmt, Option.some.injEq] at hfmt'
    exact ⟨⟨hrsv, hfmt' ▸ hadm, hop⟩, hhigh⟩

/-! ## The decoder and the rows of the opcode map -/

/-- A row has a command's mnemonic exactly when it has its opcode: neither stands in two rows. -/
theorem mnemonic_eq_iff (i : Instr) (r : OpcodeRow) (hr : r ∈ opcodeTable) :
    i.mnemonic = r.mnemonic ↔ i.fields.op = r.opcode := by
  revert r
  cases i <;> · simp only [Instr.mnemonic, Instr.fields]; decide

theorem exists_row_of_instr (i : Instr) : ∃ r ∈ opcodeTable, i.mnemonic = r.mnemonic := by
  cases i <;> · simp only [Instr.mnemonic]; decide

theorem selects_iff_decode (w : Word64) (r : OpcodeRow) (hr : r ∈ opcodeTable) :
    r.selects w = true ↔ ∃ i, decode w = .ok i ∧ i.mnemonic = r.mnemonic := by
  rw [selects_iff w r hr, ← exists_decode_iff, and_comm, ← exists_and_right]
  refine exists_congr fun i => and_congr_right fun h => ?_
  rw [mnemonic_eq_iff i r hr, ← fields_of_decodeFields _ i h]

/-- Settles O4: by the format table, which the decoder and the rows of the opcode map both agree with. -/
theorem decoderAgreesWithOpcodeMap : Obligations.DecoderAgreesWithOpcodeMap := by
  unfold Obligations.DecoderAgreesWithOpcodeMap
  refine ⟨selects_iff_decode, fun w hw => ?_⟩
  cases h : decode w with
  | error e => exact ⟨e, rfl⟩
  | ok i =>
    obtain ⟨r, hr, hm⟩ := exists_row_of_instr i
    have hs : r.selects w = true := (selects_iff_decode w r hr).mpr ⟨i, h, hm⟩
    exact absurd hs (by simp [hw r hr])

end Sys2Proof

/-! ## The step on an illegal word -/

namespace Sys2Proof.Machine

theorem step_write_cmd (s : State) (w : Word64) (rest : List HostAction)
    (h : s.script = .write cmdAddr w :: rest) : step s = commandCycle w (s.withScript rest) := by
  rw [step_write s cmdAddr w rest h, writeAccess_of_cmd _ _ _ windowWord_cmdAddr]

/-- An illegal word raises IllegalCommand before any register is read (60_exceptions.md R254). -/
theorem commandCycle_of_not_wellFormed (s : State) (w : Word64) (hf : s.status.fault = false)
    (hw : (fieldsOf w).wellFormed = false) : commandCycle w s = .next (s.raise .illegalCommand) := by
  obtain ⟨e, he⟩ := (exists_decode_error_iff w).mpr hw
  rw [commandCycle, hf, he]; rfl

/-- Settles O5: the decoder rejects exactly what the format table does, and a rejected word's cycle is the
error action. -/
theorem illegalWordRaisesIllegalCommand : Obligations.IllegalWordRaisesIllegalCommand := by
  unfold Obligations.IllegalWordRaisesIllegalCommand
  refine ⟨exists_decode_error_iff, fun s w rest h hf hw => ?_⟩
  rw [step_write_cmd s w rest h]
  exact commandCycle_of_not_wellFormed (s.withScript rest) w hf hw

end Sys2Proof.Machine
end

section
/-! Normalisation: every value a command writes to an S register comes out of `norm`
(40_datapath.md R112). -/

namespace Sys2Proof.Machine

open Sys2Proof.Safety

/-- A command's value is normalised: where it is no error, it came out of `norm`
(40_datapath.md R112). -/
def Normalised (r : Except AuError I256) : Prop := ∀ v, r = .ok v → ∃ w, v = norm w

/-! ## The values of the commands -/

theorem normalised_ok_norm (w : I256) : Normalised (.ok (norm w)) := by
  rintro v ⟨⟩
  exact ⟨w, rfl⟩

theorem normalised_error (e : AuError) : Normalised (.error e) := nofun

theorem normalised_withSign (n : Bool) (m : Except AuError U256) : Normalised (withSign n m) := by
  cases m with
  | error e => exact normalised_error e
  | ok x => exact normalised_ok_norm ⟨n, x⟩

theorem normalised_addValue (a b : I256) : Normalised (addValue a b) := by
  rw [addValue]
  split_ifs <;> exact normalised_withSign _ _

theorem normalised_subValue (a b : I256) : Normalised (subValue a b) := by
  rw [subValue]
  split_ifs <;> exact normalised_withSign _ _

theorem normalised_mulValue (a b : I256) : Normalised (mulValue a b) := normalised_withSign _ _

theorem normalised_fromUValue (u : U256) : Normalised (fromUValue u) := by
  rw [fromUValue]
  split_ifs
  · exact normalised_error _
  · exact normalised_ok_norm _

theorem normalised_fromU128Value (u : U256) (n : Bool) : Normalised (fromU128Value u n) := by
  rw [fromU128Value]
  split_ifs
  · exact normalised_error _
  · exact normalised_ok_norm _

/-! ## The commands that write the S file, and those that do not -/

/-- A command with an S destination ends by writing a normalised value there, or by raising its error. -/
theorem exec_eq_finishS_normalised (i : Instr) (d : SIdx) (s : State) (hd : destS i = some d) :
    ∃ r, exec i s = finishS d r s ∧ Normalised r := by
  cases i <;> cases hd
  case add a b => exact ⟨_, exec_add d a b s, normalised_addValue _ _⟩
  case sub a b => exact ⟨_, exec_sub d a b s, normalised_subValue _ _⟩
  case mul a b => exact ⟨_, exec_mul d a b s, normalised_mulValue _ _⟩
  case shr a n => exact ⟨_, exec_shr d a n s, normalised_ok_norm _⟩
  case or a b => exact ⟨_, exec_or d a b s, normalised_ok_norm _⟩
  case compl a => exact ⟨_, exec_compl d a s, normalised_ok_norm _⟩
  case zero => exact ⟨_, exec_zero d s, normalised_ok_norm ⟨false, 0⟩⟩
  case fromu a => exact ⟨_, exec_fromu d a s, normalised_fromUValue _⟩
  case fromun a => exact ⟨_, exec_fromun d a s, normalised_ok_norm _⟩
  case fromu128 a n => exact ⟨_, exec_fromu128 d a n s, normalised_fromU128Value _ _⟩

/-- A command with an S destination raises an error or writes a value that came out of `norm`. -/
theorem exec_raises_or_writes_norm (i : Instr) (d : SIdx) (s t : State) (hd : destS i = some d)
    (h : exec i s = .next t) : (∃ e, t = s.raise e) ∨ ∃ v, t = s.writeS d (norm v) := by
  obtain ⟨r, hr, hn⟩ := exec_eq_finishS_normalised i d s hd
  rw [hr] at h
  cases r with
  | error e => cases h; exact .inl ⟨e, rfl⟩
  | ok v =>
    obtain ⟨w, rfl⟩ := hn v rfl
    cases h; exact .inr ⟨w, rfl⟩

theorem finishU_readS (d : UIdx) (r : Except AuError U256) (s t : State) (h : finishU d r s = .next t)
    (k : SIdx) : t.readS k = s.readS k := by
  cases r <;> cases h <;> rfl

theorem finishT_readS (d : TIdx) (r : Except AuError I64) (s t : State) (h : finishT d r s = .next t)
    (k : SIdx) : t.readS k = s.readS k := by
  cases r <;> cases h <;> rfl

/-- A command without an S destination leaves every S register. -/
theorem exec_readS_of_destS_none (i : Instr) (s t : State) (hd : destS i = none)
    (h : exec i s = .next t) (k : SIdx) : t.readS k = s.readS k := by
  cases i <;> cases hd
  case cmp a b => rw [exec_cmp] at h; cases h; rfl
  case acmp a b => rw [exec_acmp] at h; cases h; rfl
  case asi64 d a => exact finishT_readS _ _ s t (exec_asi64 d a s ▸ h) k
  case sqrtp d a => exact finishU_readS _ _ s t (exec_sqrtp d a s ▸ h) k
  case logsp d a => exact finishT_readS _ _ s t (exec_logsp d a s ▸ h) k

/-! ## The obligation -/

/-- An S register that holds negative zero after a command held it before: the destination holds a
normalised value, and every other S register is as it was. -/
theorem readS_negativeZero_of_exec (i : Instr) (s t : State) (h : exec i s = .next t) (k : SIdx)
    (hk : t.readS k = ⟨true, 0⟩) : s.readS k = ⟨true, 0⟩ := by
  cases hd : destS i with
  | none => rwa [exec_readS_of_destS_none i s t hd h k] at hk
  | some d =>
    obtain ⟨e, rfl⟩ | ⟨v, rfl⟩ := exec_raises_or_writes_norm i d s t hd h
    · rwa [State.readS_raise] at hk
    · rw [State.readS_writeS] at hk
      split_ifs at hk
      · exact absurd hk (norm_ne_negativeZero v)
      · exact hk

/-- Settles O11: each command's value comes out of `norm`, whose results are never negative zero. -/
theorem noCommandWritesNegativeZero : Obligations.NoCommandWritesNegativeZero := by
  unfold Obligations.NoCommandWritesNegativeZero
  exact ⟨fun _ => rfl, exec_raises_or_writes_norm, readS_negativeZero_of_exec⟩

end Sys2Proof.Machine
end

section
/-! The encoding of a command and its row of the opcode map, and the orders the compares write
(30_encoding.md R84, R85; 41_compare.md). -/

namespace Sys2Proof.Machine

open Sys2Proof.Safety

/-! ## The encoding of a command -/

@[simp] theorem fieldsOf_encode (i : Instr) : fieldsOf (encode i) = i.fields := fieldsOf_pack i.fields

/-- A command is encoded by its own fields and text, in the row of the opcode map that has its mnemonic. -/
theorem encodedAs_fields_asm (i : Instr) (row : OpcodeRow) (hrow : row ∈ opcodeTable)
    (hm : i.mnemonic = row.mnemonic) : EncodedAs i i.fields row (asm i) :=
  ⟨fieldsOf_encode i, hrow, hm, rfl⟩

/-! ## The magnitude order and the signed order -/

theorem ucmp_eq_natOrder (x y : U256) : ucmp x y = natOrder x.toNat y.toNat := ucmp_eq x y

/-- The reversed order of two numbers is the order of the two numbers exchanged. -/
theorem reverseOrder_natOrder (x y : Nat) : reverseOrder (natOrder x y) = natOrder y x := by
  obtain h | rfl | h := Nat.lt_trichotomy x y
  · simp [natOrder, h, h.not_gt, reverseOrder]
  · simp [natOrder, reverseOrder]
  · simp [natOrder, h, h.not_gt, reverseOrder]

theorem magnitudeOrder_eq_natOrder (a b : I256) :
    magnitudeOrder a b = natOrder a.mag.toNat b.mag.toNat := ucmp_eq_natOrder a.mag b.mag

theorem signedOrder_of_neg_of_nonneg (a b : I256) (ha : a.neg = true) (hb : b.neg = false) :
    signedOrder a b = .less := by
  simp [signedOrder, ha, hb]

theorem signedOrder_of_nonneg_of_neg (a b : I256) (ha : a.neg = false) (hb : b.neg = true) :
    signedOrder a b = .greater := by
  simp [signedOrder, ha, hb]

theorem signedOrder_of_nonneg (a b : I256) (ha : a.neg = false) (hb : b.neg = false) :
    signedOrder a b = natOrder a.mag.toNat b.mag.toNat := by
  simp [signedOrder, ha, hb, ucmp_eq_natOrder]

theorem signedOrder_of_neg (a b : I256) (ha : a.neg = true) (hb : b.neg = true) :
    signedOrder a b = natOrder b.mag.toNat a.mag.toNat := by
  simp [signedOrder, ha, hb, ucmp_eq_natOrder, reverseOrder_natOrder]

/-! ## The obligations -/

/-- Settles O17: CMP writes the signed order, whose four sign cases are the four clauses. -/
theorem cmpWritesTheSignedOrder : Obligations.CmpWritesTheSignedOrder := by
  unfold Obligations.CmpWritesTheSignedOrder
  intro s a b
  have henc := encodedAs_fields_asm (.cmp a b) ⟨"CMP", 0x00000001, 0xFFF88FFF⟩ (by decide) rfl
  exact ⟨henc, signedOrder (s.readS a) (s.readS b), exec_cmp a b s, signedOrder_of_neg_of_nonneg _ _,
    signedOrder_of_nonneg_of_neg _ _, signedOrder_of_nonneg _ _, signedOrder_of_neg _ _⟩

/-- Settles O18: ACMP writes the magnitude order, which is the order of the magnitudes as numbers. -/
theorem acmpWritesTheMagnitudeOrder : Obligations.AcmpWritesTheMagnitudeOrder := by
  unfold Obligations.AcmpWritesTheMagnitudeOrder
  intro s a b
  have henc := encodedAs_fields_asm (.acmp a b) ⟨"ACMP", 0x00000002, 0xFFF88FFF⟩ (by decide) rfl
  refine ⟨henc, ?_⟩
  rw [exec_acmp, magnitudeOrder_eq_natOrder]

end Sys2Proof.Machine
end

section
/-! ADD and SUB by the signs and the order of the magnitudes (42_add_sub.md R140, R141). SUB is ADD with the
second operand's sign flipped, so its three cases are ADD's. -/

namespace Sys2Proof.Machine

open Sys2Proof.Safety

/-! ## The magnitude primitives with a sign, over whole numbers -/

/-- A sum of magnitudes under a sign: the exact sum below `2^255`, AdditionOverflow from there on. -/
theorem withSign_addWithoutSign (n : Bool) (x y : U256) :
    withSign n (addWithoutSign x y) =
      if x.toNat + y.toNat < 2 ^ 255 then .ok (norm ⟨n, BitVec.ofNat 256 (x.toNat + y.toNat)⟩)
      else .error .additionOverflow := by
  have hadd : BitVec.ofNat 256 (x.toNat + y.toNat) = x + y := by
    simp only [BitVec.ofNat_add, BitVec.ofNat_toNat, BitVec.setWidth_eq]
  rw [addWithoutSign_eq, hadd]
  split_ifs <;> rfl

/-- A difference of magnitudes under a sign, the larger first: the exact difference below `2^255`,
SubtractionOverflow from there on. -/
theorem withSign_subWithoutSign_of_le (n : Bool) (x y : U256) (h : y.toNat ≤ x.toNat) :
    withSign n (subWithoutSign x y) =
      if x.toNat - y.toNat < 2 ^ 255 then .ok (norm ⟨n, BitVec.ofNat 256 (x.toNat - y.toNat)⟩)
      else .error .subtractionOverflow := by
  have hsub : BitVec.ofNat 256 (x.toNat - y.toNat) = x - y := by
    rw [← BitVec.toNat_sub_of_le (BitVec.le_def.mpr h), BitVec.ofNat_toNat, BitVec.setWidth_eq]
  rw [subWithoutSign_eq, hsub]
  simp only [h, true_and]
  split_ifs <;> rfl

/-! ## The three cases of the value -/

theorem ucmp_eq_less_iff (x y : U256) : ucmp x y = .less ↔ x.toNat < y.toNat := by
  rw [ucmp_eq_natOrder, natOrder]
  split_ifs <;> simp [*]

/-- ADD of equal signs is the magnitudes' sum with that sign (R140, first branch). -/
theorem addValue_of_neg_eq (a b : I256) (h : a.neg = b.neg) :
    addValue a b = withSign a.neg (addWithoutSign a.mag b.mag) := by
  rw [addValue, if_pos h]

/-- ADD of signs that differ keeps the first sign where the first magnitude is at least the second
(R140, second branch). -/
theorem addValue_of_neg_ne_of_le (a b : I256) (h : a.neg ≠ b.neg) (hle : b.mag.toNat ≤ a.mag.toNat) :
    addValue a b = withSign a.neg (subWithoutSign a.mag b.mag) := by
  rw [addValue, if_neg h, if_pos (by rwa [Ne, ucmp_eq_less_iff, not_lt])]

/-- ADD of signs that differ takes the second sign where the second magnitude is larger
(R140, third branch). -/
theorem addValue_of_neg_ne_of_lt (a b : I256) (h : a.neg ≠ b.neg) (hlt : a.mag.toNat < b.mag.toNat) :
    addValue a b = withSign b.neg (subWithoutSign b.mag a.mag) := by
  rw [addValue, if_neg h, if_neg (by rwa [not_not, ucmp_eq_less_iff])]

/-- SUB is ADD with the second operand's sign flipped, on every operand (R141 against R140). -/
theorem subValue_eq_addValue_flip (a b : I256) : subValue a b = addValue a ⟨!b.neg, b.mag⟩ := by
  by_cases h : a.neg = b.neg
  · simp [subValue, addValue, h]
  · simp [subValue, addValue, Bool.eq_not_of_ne h]

/-! ## The end of a command over a bounded value -/

/-- A command whose value is in range below a bound and an error from it on writes the value below the
bound and raises the error from it on. -/
theorem finishS_of_eq_ite_lt {r : Except AuError I256} {x bound : Nat} {v : I256} {e : AuError}
    (h : r = if x < bound then .ok v else .error e) (d : SIdx) (s : State) :
    (x < bound → finishS d r s = .next (s.writeS d v)) ∧
      (bound ≤ x → finishS d r s = .next (s.raise e)) := by
  subst h
  exact ⟨fun hx => by rw [if_pos hx, finishS_ok], fun hx => by rw [if_neg hx.not_gt, finishS_error]⟩

/-- ADD's three cases, each with its value and its error (R140). -/
theorem finishS_addValue_by_signs (a b : I256) (d : SIdx) (s : State) :
    (a.neg = b.neg →
      (a.mag.toNat + b.mag.toNat < 2 ^ 255 → finishS d (addValue a b) s =
        .next (s.writeS d (norm ⟨a.neg, BitVec.ofNat 256 (a.mag.toNat + b.mag.toNat)⟩))) ∧
      (2 ^ 255 ≤ a.mag.toNat + b.mag.toNat →
        finishS d (addValue a b) s = .next (s.raise .additionOverflow))) ∧
    (a.neg ≠ b.neg → b.mag.toNat ≤ a.mag.toNat →
      (a.mag.toNat - b.mag.toNat < 2 ^ 255 → finishS d (addValue a b) s =
        .next (s.writeS d (norm ⟨a.neg, BitVec.ofNat 256 (a.mag.toNat - b.mag.toNat)⟩))) ∧
      (2 ^ 255 ≤ a.mag.toNat - b.mag.toNat →
        finishS d (addValue a b) s = .next (s.raise .subtractionOverflow))) ∧
    (a.neg ≠ b.neg → a.mag.toNat < b.mag.toNat →
      (b.mag.toNat - a.mag.toNat < 2 ^ 255 → finishS d (addValue a b) s =
        .next (s.writeS d (norm ⟨b.neg, BitVec.ofNat 256 (b.mag.toNat - a.mag.toNat)⟩))) ∧
      (2 ^ 255 ≤ b.mag.toNat - a.mag.toNat →
        finishS d (addValue a b) s = .next (s.raise .subtractionOverflow))) := by
  refine ⟨fun h => finishS_of_eq_ite_lt ?_ d s, fun h hle => finishS_of_eq_ite_lt ?_ d s,
    fun h hlt => finishS_of_eq_ite_lt ?_ d s⟩
  · rw [addValue_of_neg_eq a b h, withSign_addWithoutSign]
  · rw [addValue_of_neg_ne_of_le a b h hle, withSign_subWithoutSign_of_le _ _ _ hle]
  · rw [addValue_of_neg_ne_of_lt a b h hlt, withSign_subWithoutSign_of_le _ _ _ hlt.le]

/-! ## The obligations -/

/-- Settles O20: each sign case is one magnitude primitive, which is exact below `2^255`. -/
theorem addWritesTheSumOrRaises : Obligations.AddWritesTheSumOrRaises := by
  unfold Obligations.AddWritesTheSumOrRaises
  rintro s d a b _ _ rfl rfl
  have henc := encodedAs_fields_asm (.add d a b) ⟨"ADD", 0x00000003, 0xFFF888FF⟩ (by decide) rfl
  refine ⟨henc, ?_⟩
  rw [exec_add]
  exact finishS_addValue_by_signs (s.readS a) (s.readS b) d s

/-- Settles O22: SUB's cases are ADD's with the second sign flipped, so unequal signs add and equal signs
subtract. -/
theorem subWritesTheDifferenceOrRaises : Obligations.SubWritesTheDifferenceOrRaises := by
  unfold Obligations.SubWritesTheDifferenceOrRaises
  rintro s d a b _ _ rfl rfl
  have henc := encodedAs_fields_asm (.sub d a b) ⟨"SUB", 0x00000004, 0xFFF888FF⟩ (by decide) rfl
  obtain ⟨hsum, hfirst, hsecond⟩ :=
    finishS_addValue_by_signs (s.readS a) ⟨!(s.readS b).neg, (s.readS b).mag⟩ d s
  rw [exec_sub, subValue_eq_addValue_flip]
  refine ⟨henc, fun h => hsum (Bool.eq_not_of_ne h), fun h => hfirst (by simp [h]), fun h => ?_⟩
  rw [h]
  exact hsecond (by simp [h])

end Sys2Proof.Machine
end

section
/-! MUL by the size of the product of the magnitudes (43_mul.md R150). -/

namespace Sys2Proof.Machine

/-- MUL's value over whole numbers: the narrowed double-width product is exact below `2^255` and
MultiplicationOverflow from there on. -/
theorem mulValue_eq_ite (a b : I256) :
    mulValue a b =
      if a.mag.toNat * b.mag.toNat < 2 ^ 255 then
        .ok (norm ⟨a.neg ^^ b.neg, BitVec.ofNat 256 (a.mag.toNat * b.mag.toNat)⟩)
      else .error .multiplicationOverflow := by
  have hmul : BitVec.ofNat 256 (a.mag.toNat * b.mag.toNat) = a.mag * b.mag := by
    simp only [BitVec.ofNat_mul, BitVec.ofNat_toNat, BitVec.setWidth_eq]
  rw [mulValue, narrow_dmul, hmul]
  split_ifs <;> rfl

/-- Settles O25: MUL's value is in range exactly where the product of the magnitudes is below `2^255`. -/
theorem mulWritesTheProductOrRaises : Obligations.MulWritesTheProductOrRaises := by
  unfold Obligations.MulWritesTheProductOrRaises
  rintro s d a b _ rfl
  have henc := encodedAs_fields_asm (.mul d a b) ⟨"MUL", 0x00000005, 0xFFF888FF⟩ (by decide) rfl
  refine ⟨henc, ?_⟩
  rw [exec_mul]
  exact finishS_of_eq_ite_lt (mulValue_eq_ite (s.readS a) (s.readS b)) d s

end Sys2Proof.Machine
end

section
/-! SHR, OR and COMPL over two's-complement patterns (44_shift_or_complement.md R160, R161, R162). Each of
them takes patterns, and ends in `tc` and `norm`: the pattern is converted back and normalised. -/

namespace Sys2Proof.Machine

open Sys2Proof.Safety

/-! ## The pattern by the sign, and normalisation by the magnitude -/

theorem tc_nonneg (p : U256) : tc ⟨false, p⟩ = ⟨false, p⟩ := rfl

theorem tc_neg (p : U256) : tc ⟨true, p⟩ = ⟨true, BitVec.ofNat 256 (2 ^ 256 - p.toNat)⟩ :=
  tc_eq_patternOf ⟨true, p⟩

theorem norm_of_mag_ne_zero (a : I256) (h : a.mag ≠ 0) : norm a = a := if_neg h

theorem norm_nonneg (m : U256) : norm ⟨false, m⟩ = ⟨false, m⟩ := by
  by_cases h : m = 0
  · subst h; rfl
  · exact norm_of_mag_ne_zero _ h

/-! ## SHR -/

theorem fillMask_toNat (n : Nat) (hn : n < 256) : (fillMask n).toNat = (2 ^ n - 1) * 2 ^ (256 - n) := by
  have hpow : 2 ^ n * 2 ^ (256 - n) = 2 ^ 256 := by rw [← pow_add, Nat.add_sub_cancel' hn.le]
  have hlt : (2 ^ n - 1) * 2 ^ (256 - n) < 2 ^ 256 :=
    hpow ▸ Nat.mul_lt_mul_of_pos_right (Nat.sub_lt (by positivity) one_pos) (by positivity)
  rw [fillMask, BitVec.toNat_ofNat, Nat.shiftLeft_eq, Nat.mod_eq_of_lt hlt]

/-- The fill lies in the bits the shift vacated, so the OR with it is a sum (R160). -/
theorem ushiftRight_or_fillMask_toNat (p : U256) (n : Nat) (hn : n < 256) :
    (p >>> n ||| fillMask n).toNat = p.toNat / 2 ^ n + (2 ^ n - 1) * 2 ^ (256 - n) := by
  have hlow : p.toNat / 2 ^ n < 2 ^ (256 - n) := by
    rw [Nat.div_lt_iff_lt_mul (by positivity), ← pow_add, Nat.sub_add_cancel hn.le]
    exact p.isLt
  rw [BitVec.toNat_or, BitVec.toNat_ushiftRight, Nat.shiftRight_eq_div_pow, fillMask_toNat n hn, Nat.or_comm,
    Nat.mul_comm, or_below _ _ _ hlow, Nat.add_comm]

theorem shrValue_of_nonneg (a : I256) (n : Nat) (hn : n < 256) (ha : a.neg = false) :
    shrValue a n = norm ⟨false, BitVec.ofNat 256 ((patternOf a).toNat / 2 ^ n)⟩ := by
  have hshift : patternOf a >>> n = BitVec.ofNat 256 ((patternOf a).toNat / 2 ^ n) := by
    rw [← Nat.shiftRight_eq_div_pow, ← BitVec.toNat_ushiftRight, BitVec.ofNat_toNat, BitVec.setWidth_eq]
  simp [shrValue, tc_eq_patternOf a, ha, shiftLimbs_eq _ n hn, tc_nonneg, hshift]

theorem shrValue_of_neg (a : I256) (n : Nat) (hn : n < 256) (ha : a.neg = true) :
    shrValue a n = norm ⟨true, BitVec.ofNat 256
      (2 ^ 256 - ((patternOf a).toNat / 2 ^ n + (2 ^ n - 1) * 2 ^ (256 - n)))⟩ := by
  rw [← ushiftRight_or_fillMask_toNat (patternOf a) n hn, ← tc_neg]
  simp [shrValue, tc_eq_patternOf a, ha, shiftLimbs_eq _ n hn]

/-! ## OR -/

/-- OR is the OR of the patterns under the OR of the signs, converted back and normalised (R161). -/
theorem orValue_eq_norm_tc (a b : I256) :
    orValue a b = norm (tc ⟨a.neg || b.neg, patternOf a ||| patternOf b⟩) := by
  simp only [orValue, tc_eq_patternOf a, tc_eq_patternOf b, orLimbs_eq]

/-! ## COMPL -/

theorem complValue_nonneg (m : U256) : complValue ⟨false, m⟩ = ⟨false, m⟩ := norm_nonneg m

theorem complValue_negativeZero : complValue ⟨true, 0⟩ = ⟨false, 0⟩ := by
  rw [complValue, tc_neg]; rfl

/-- The pattern of a negative value other than negative zero is not zero, so the sign stays (R162). -/
theorem complValue_neg (m : U256) (hm : m ≠ 0) :
    complValue ⟨true, m⟩ = ⟨true, BitVec.ofNat 256 (2 ^ 256 - m.toNat)⟩ := by
  have hpattern : BitVec.ofNat 256 (2 ^ 256 - m.toNat) ≠ 0 := by
    have hm0 : m.toNat ≠ 0 := mt (mag_eq_zero_iff m).mpr hm
    refine mt (mag_eq_zero_iff _).mp ?_
    rw [BitVec.toNat_ofNat, Nat.mod_eq_of_lt (by omega)]
    exact Nat.sub_ne_zero_of_lt m.isLt
  rw [complValue, tc_neg, norm_of_mag_ne_zero _ hpattern]

/-! ## The obligations -/

/-- Settles O27: the fill adds its mask to the shifted pattern, which is converted back by the operand's
sign. -/
theorem shrWritesTheArithmeticShift : Obligations.ShrWritesTheArithmeticShift := by
  unfold Obligations.ShrWritesTheArithmeticShift
  rintro s d a n _ rfl
  have henc := encodedAs_fields_asm (.shr d a n) ⟨"SHR", 0x00000006, 0xF00F88FF⟩ (by decide) rfl
  rw [exec_shr, finishS_ok]
  refine ⟨henc, fun ha => ?_, fun ha => ?_⟩
  · rw [shrValue_of_nonneg _ _ n.isLt ha, ha, if_neg Bool.false_ne_true, Nat.add_zero]
  · rw [shrValue_of_neg _ _ n.isLt ha, if_pos ha]

/-- Settles O29: the OR of the patterns is converted back by the OR of the signs. -/
theorem orWritesTheOrOfThePatterns : Obligations.OrWritesTheOrOfThePatterns := by
  unfold Obligations.OrWritesTheOrOfThePatterns
  rintro s d a b _ rfl
  have henc := encodedAs_fields_asm (.or d a b) ⟨"OR", 0x00000007, 0xFFF888FF⟩ (by decide) rfl
  rw [exec_or, finishS_ok, orValue_eq_norm_tc]
  refine ⟨henc, fun ha hb => ?_, fun h => ?_⟩
  · rw [ha, hb, Bool.or_self, tc_nonneg]
  · rw [Bool.or_eq_true_iff.mpr h, tc_neg]

/-- Settles O31: by the operand's sign and, for a negative one, by whether its magnitude is zero. -/
theorem complWritesThePattern : Obligations.ComplWritesThePattern := by
  unfold Obligations.ComplWritesThePattern
  intro s d a
  have henc := encodedAs_fields_asm (.compl d a) ⟨"COMPL", 0x00000008, 0xFFFF88FF⟩ (by decide) rfl
  refine ⟨henc, ?_⟩
  rw [exec_compl, finishS_ok]
  obtain ⟨neg, m⟩ := s.readS a
  refine ⟨?_, ?_, ?_⟩
  · rintro rfl
    rw [complValue_nonneg]
  · rintro rfl hm
    rw [complValue_neg m hm]
  · rintro ⟨⟩
    rw [complValue_negativeZero]

end Sys2Proof.Machine
end

section
/-! The constructor and narrowing commands (45_convert.md R180 to R184). A test of the high bits of a value is
a bound on the number; where it passes, the low bits are the whole value. -/

namespace Sys2Proof.Machine

open Sys2Proof.Safety

/-! ## The high and the low bits of a 256-bit value -/

/-- The bits from `n` up are all zero exactly where the number is below `2 ^ n`. -/
theorem extractLsb'_high_eq_zero_iff (u : U256) {n k : Nat} (hnk : k + n = 256) :
    u.extractLsb' n k = 0#k ↔ u.toNat < 2 ^ n := by
  have hhigh : u.toNat / 2 ^ n < 2 ^ k := by
    rw [Nat.div_lt_iff_lt_mul (by positivity), ← pow_add, hnk]
    exact u.isLt
  have hval : (u.extractLsb' n k).toNat = u.toNat / 2 ^ n := by
    rw [BitVec.extractLsb'_toNat, Nat.shiftRight_eq_div_pow, Nat.mod_eq_of_lt hhigh]
  rw [← BitVec.toNat_inj, hval, BitVec.toNat_ofNat, Nat.zero_mod, Nat.div_eq_zero_iff_lt (by positivity)]

/-- A number below `2 ^ 128` is the zero extension of its low half. -/
theorem fromU128_extractLsb'_of_lt (u : U256) (h : u.toNat < 2 ^ 128) : fromU128 (u.extractLsb' 0 128) = u := by
  apply BitVec.eq_of_toNat_eq
  rw [fromU128, BitVec.toNat_setWidth_of_le (by decide), BitVec.extractLsb'_toNat, Nat.shiftRight_zero,
    Nat.mod_eq_of_lt h]

/-- A number below `2 ^ 64` is its limb 0. -/
theorem limb_zero_toNat_of_lt (u : U256) (h : u.toNat < 2 ^ 64) : (limb u 0).toNat = u.toNat := by
  rw [limb_toNat, Nat.mul_zero, pow_zero, Nat.div_one, Nat.mod_eq_of_lt h]

/-! ## The values over whole numbers -/

theorem fromUValue_eq_ite (u : U256) :
    fromUValue u = if u.toNat < 2 ^ 255 then .ok ⟨false, u⟩ else .error .conversionOverflow := by
  simp only [fromUValue, getLsbD_255, decide_eq_true_eq, ← not_lt, ite_not, norm_nonneg]

theorem fromU128Value_eq_ite (u : U256) (neg : Bool) :
    fromU128Value u neg =
      if u.toNat < 2 ^ 128 then .ok (norm ⟨neg, u⟩) else .error .conversionOverflow := by
  simp only [fromU128Value, ne_eq, extractLsb'_high_eq_zero_iff u (n := 128) rfl, ite_not]
  split_ifs with h
  · rw [fromU128_extractLsb'_of_lt u h]
  · rfl

theorem toI64_ok (e : AuError) (z : Int) (h0 : -2 ^ 63 ≤ z) (h1 : z ≤ 2 ^ 63 - 1) :
    toI64 e z = .ok (BitVec.ofInt 64 z) :=
  if_pos ⟨h0, h1⟩

theorem toI64_of_out_of_range (e : AuError) (z : Int) (h : z < -2 ^ 63 ∨ 2 ^ 63 - 1 < z) :
    toI64 e z = .error e :=
  if_neg (by omega)

/-- ASI64's two checks, of the limbs above limb 0 and of limb 0 under the sign, are one range check of the
value: a magnitude from `2 ^ 64` on is out of range under either sign (R184). -/
theorem asI64Value_eq_toI64 (a : I256) : asI64Value a = toI64 .castOverflow (valOf a) := by
  simp only [asI64Value, ne_eq, extractLsb'_high_eq_zero_iff a.mag (n := 64) rfl, ite_not]
  split_ifs with hmag hneg
  · rw [i64NegFrom, limb_zero_toNat_of_lt _ hmag, valOf, if_pos hneg]
  · rw [i64From, limb_zero_toNat_of_lt _ hmag, valOf, if_neg hneg]
  · have habs := natAbs_valOf a
    exact (toI64_of_out_of_range _ _ (by omega)).symm

/-! ## The obligations -/

/-- Settles O34: bit 255 is clear exactly below `2 ^ 255`, and a value that is not negative is its own
normal form. -/
theorem fromuWritesTheValueOrRaises : Obligations.FromuWritesTheValueOrRaises := by
  unfold Obligations.FromuWritesTheValueOrRaises
  intro s d a
  have henc := encodedAs_fields_asm (.fromu d a) ⟨"FROMU", 0x0000000A, 0xFFFFC8FF⟩ (by decide) rfl
  refine ⟨henc, ?_⟩
  rw [exec_fromu]
  exact finishS_of_eq_ite_lt (fromUValue_eq_ite (s.readU a)) d s

/-- Settles O35: the high half is zero exactly below `2 ^ 128`, and the low half is then the value. -/
theorem fromu128WritesTheSignedValueOrRaises : Obligations.Fromu128WritesTheSignedValueOrRaises := by
  unfold Obligations.Fromu128WritesTheSignedValueOrRaises
  intro s d a neg
  have henc := encodedAs_fields_asm (.fromu128 d a neg) ⟨"FROMU128", 0x0000000C, 0xFFEFC8FF⟩ (by decide) rfl
  refine ⟨henc, ?_⟩
  rw [exec_fromu128]
  exact finishS_of_eq_ite_lt (fromU128Value_eq_ite (s.readU a) neg) d s

/-- Settles O36: ASI64 is the range check of the operand's value, on every pattern. -/
theorem asi64WritesTheValueOrRaises : Obligations.Asi64WritesTheValueOrRaises := by
  unfold Obligations.Asi64WritesTheValueOrRaises
  intro s d a
  have henc := encodedAs_fields_asm (.asi64 d a) ⟨"ASI64", 0x0000000D, 0xFFFF8CFF⟩ (by decide) rfl
  rw [exec_asi64, asI64Value_eq_toI64]
  refine ⟨henc, fun hlo hhi => ?_, fun hout => ?_⟩
  · rw [toI64_ok _ _ hlo hhi, finishT_ok]
  · rw [toI64_of_out_of_range _ _ hout, finishT_error]

/-- Settles O33: both commands end in a value that is no error, and FROMUN's is already normal. -/
theorem zeroAndFromunWriteUnchecked : Obligations.ZeroAndFromunWriteUnchecked := by
  unfold Obligations.ZeroAndFromunWriteUnchecked
  refine ⟨fun s d => ?_, fun s d a => ?_⟩
  · have henc := encodedAs_fields_asm (.zero d) ⟨"ZERO", 0x00000009, 0xFFFFF8FF⟩ (by decide) rfl
    exact ⟨henc, exec_zero d s⟩
  · have henc := encodedAs_fields_asm (.fromun d a) ⟨"FROMUN", 0x0000000B, 0xFFFFC8FF⟩ (by decide) rfl
    refine ⟨henc, ?_⟩
    rw [exec_fromun, norm_nonneg, finishS_ok]

end Sys2Proof.Machine
end

section
/-! SQRTP: what its stages compute over whole numbers, and which bits of the tick's magnitude they read
(46_sqrt_price.md R202, R203, R206). -/

namespace Sys2Proof.Machine

open Sys2Proof.Safety

/-! ## The multiply rounds -/

/-- One multiply round in whole numbers: the constant of bit `ck.2` of the magnitude, where that bit is set
(46_sqrt_price.md R202). -/
def multiplyRound (n acc : Nat) (ck : U256 × Nat) : Nat :=
  if n.testBit ck.2 then acc * ck.1.toNat / 2 ^ 128 else acc

/-- From an accumulator of at most `2 ^ 128`, rounds with constants below `2 ^ 128` do not overflow: each
keeps the bound (46_sqrt_price.md R203). -/
theorem sqrtRounds_ok (n : Nat) (cs : List U256) (k : Nat) (acc : U256) (hcs : ∀ c ∈ cs, c.toNat < 2 ^ 128)
    (hacc : acc.toNat ≤ 2 ^ 128) :
    ∃ r, sqrtRounds n cs k acc = .ok r ∧ r.toNat = (cs.zipIdx k).foldl (multiplyRound n) acc.toNat := by
  induction cs generalizing k acc with
  | nil => exact ⟨acc, rfl, rfl⟩
  | cons c cs ih =>
    obtain ⟨hc, hcs⟩ := List.forall_mem_cons.mp hcs
    rw [List.zipIdx_cons, List.foldl_cons, sqrtRounds, multiplyRound]
    split_ifs with hbit
    · have hprod : acc.toNat * c.toNat ≤ 2 ^ 128 * (2 ^ 128 - 1) := Nat.mul_le_mul hacc (by omega)
      have hround : (ushr (BitVec.ofNat 256 (acc.toNat * c.toNat)) 128).toNat =
          acc.toNat * c.toNat / 2 ^ 128 := by
        rw [ushr_toNat, BitVec.toNat_ofNat, Nat.mod_eq_of_lt (by omega)]
      rw [umul_eq, if_pos (by omega), ← hround]
      exact ih (k + 1) _ hcs (by rw [hround]; omega)
    · exact ih (k + 1) acc hcs hacc

/-- The rounds read one bit of the magnitude for each constant, and none from `k + cs.length` on
(46_sqrt_price.md R206). -/
theorem sqrtRounds_congr (n n' : Nat) (cs : List U256) (k : Nat) (acc : U256)
    (h : ∀ j < k + cs.length, n.testBit j = n'.testBit j) :
    sqrtRounds n cs k acc = sqrtRounds n' cs k acc := by
  induction cs generalizing k acc with
  | nil => rfl
  | cons c cs ih =>
    rw [List.length_cons] at h
    have hrest : ∀ acc, sqrtRounds n cs (k + 1) acc = sqrtRounds n' cs (k + 1) acc :=
      fun acc => ih (k + 1) acc fun j hj => h j (by omega)
    simp only [sqrtRounds, h k (by omega), hrest]

/-! ## The accumulator -/

/-- The start value: the constant for bit 0 of the magnitude (46_sqrt_price.md R202). -/
def sqrtStart (p : Params) (n : Nat) : U256 := if n.testBit 0 then p.sqrtBaseOdd else sqrtBaseEven

theorem sqrtStart_toNat (p : Params) (n : Nat) :
    (sqrtStart p n).toNat = if n.testBit 0 then p.sqrtBaseOdd.toNat else 2 ^ 128 := by
  rw [sqrtStart]
  split_ifs <;> rfl

theorem sqrtStart_le (p : Params) (n : Nat) (h : p.sqrtBaseOdd.toNat ≤ 2 ^ 128) :
    (sqrtStart p n).toNat ≤ 2 ^ 128 := by
  rw [sqrtStart_toNat]
  split_ifs
  exacts [h, le_rfl]

/-- The constants with the bits they stand for, `MAGIC_k` with bit `k` (46_sqrt_price.md R200). -/
theorem magic_zipIdx (magic : Vector U256 19) :
    magic.toList.zipIdx 1 = (List.finRange 19).map fun k => (magic[k], k.val + 1) := by
  apply List.ext_getElem <;> simp [Nat.add_comm]

theorem sqrtAccumulator_eq_foldl (p : Params) (n : Nat) :
    sqrtAccumulator p n = (p.magic.toList.zipIdx 1).foldl (multiplyRound n) (sqrtStart p n).toNat := by
  rw [magic_zipIdx, List.foldl_map, sqrtStart_toNat]; rfl

/-- With constants in range the rounds end without an error, in the accumulator (46_sqrt_price.md R203). -/
theorem sqrtRounds_magic (p : Params) (hp : ConstantsInRange p) (n : Nat) :
    ∃ r, sqrtRounds n p.magic.toList 1 (sqrtStart p n) = .ok r ∧ r.toNat = sqrtAccumulator p n := by
  obtain ⟨hodd, hmagic, -, -⟩ := hp
  have hcs : ∀ c ∈ p.magic.toList, c.toNat < 2 ^ 128 := by
    intro c hc
    obtain ⟨k, hk, rfl⟩ := List.getElem_of_mem hc
    exact hmagic ⟨k, by simpa using hk⟩
  rw [sqrtAccumulator_eq_foldl]
  exact sqrtRounds_ok n p.magic.toList 1 (sqrtStart p n) hcs (sqrtStart_le p n hodd)

/-! ## The inversion and the final shift -/

theorem sqrtRatio_of_neg (t : I64) (acc : U256) (h : ival t < 0) : sqrtRatio t acc = .ok acc :=
  if_neg h.not_ge

theorem sqrtRatio_of_nonneg (t : I64) (acc : U256) (h : 0 ≤ ival t) : sqrtRatio t acc = udiv maxU256 acc :=
  if_pos h

theorem sqrtRatio_congr (t t' : I64) (h : ival t < 0 ↔ ival t' < 0) : sqrtRatio t = sqrtRatio t' := by
  funext acc
  simp only [sqrtRatio, ge_iff_le, ← not_lt, h]

theorem udiv_of_eq_zero (a b : U256) (h : b.toNat = 0) : udiv a b = .error .substrateFault := if_pos h

theorem udiv_of_pos (a b : U256) (h : 0 < b.toNat) :
    ∃ q, udiv a b = .ok q ∧ q.toNat = a.toNat / b.toNat := by
  refine ⟨_, if_neg h.ne', ?_⟩
  rw [BitVec.toNat_ofNat, Nat.mod_eq_of_lt ((Nat.div_le_self _ _).trans_lt a.isLt)]

/-- The final step is the quotient by `2 ^ 32` rounded up; it cannot overflow (46_sqrt_price.md R202). -/
theorem ceilShift32_eq (r : U256) : ceilShift32 r = .ok (BitVec.ofNat 256 (ceil32 r.toNat)) := by
  have hlow : r.extractLsb' 0 32 = 0#32 ↔ r.toNat % 2 ^ 32 = 0 := by
    rw [← BitVec.toNat_inj, BitVec.extractLsb'_toNat, Nat.shiftRight_zero]; rfl
  have hr : r.toNat < 2 ^ 256 := r.isLt
  have hshift : (ushr r 32).toNat = r.toNat / 2 ^ 32 := ushr_toNat r 32
  have hone : (1#256).toNat = 1 := rfl
  rw [ceilShift32, ceil32]
  split_ifs with h
  · rw [Ne, hlow] at h
    rw [uadd_eq, hshift, hone, if_pos (by omega)]
    congr 2
    omega
  · rw [not_not, hlow] at h
    refine congrArg Except.ok (BitVec.eq_of_toNat_eq ?_)
    rw [hshift, BitVec.toNat_ofNat]
    omega

/-! ## The price of a magnitude -/

/-- SQRTP's value after its checks of the tick: the rounds, the inversion by the tick's sign, and the final
shift (46_sqrt_price.md R202). -/
def sqrtPriceOfMagnitude (p : Params) (t : I64) (n : Nat) : Except AuError U256 := do
  let acc ← sqrtRounds n p.magic.toList 1 (sqrtStart p n)
  let ratio ← sqrtRatio t acc
  ceilShift32 ratio

theorem sqrtPrice_of_least (p : Params) (t : I64) (h : ival t = -2 ^ 63) :
    sqrtPrice p t = .error .substrateFault := by
  rw [sqrtPrice, absI64_eq, if_pos h]; rfl

/-- The check of a tick other than the least is the one of its width (46_sqrt_price.md R206). -/
theorem sqrtPrice_eq_ite (p : Params) (t : I64) (h : ival t ≠ -2 ^ 63) :
    sqrtPrice p t =
      if p.wideTick = .fault ∧ 2 ^ 20 ≤ (ival t).natAbs then .error .substrateFault
      else sqrtPriceOfMagnitude p t (ival t).natAbs := by
  simp only [sqrtPrice, absI64_eq, if_neg h, asU64_abs _ t h, bind, Except.bind, abs_toNat]
  rfl

theorem sqrtPrice_of_wide (p : Params) (t : I64) (hp : p.wideTick = .fault)
    (hn : 2 ^ 20 ≤ (ival t).natAbs) : sqrtPrice p t = .error .substrateFault := by
  by_cases h : ival t = -2 ^ 63
  · exact sqrtPrice_of_least p t h
  · rw [sqrtPrice_eq_ite p t h, if_pos ⟨hp, hn⟩]

theorem sqrtPrice_of_accepted (p : Params) (t : I64) (h : ival t ≠ -2 ^ 63)
    (hn : p.wideTick = .ignore ∨ (ival t).natAbs < 2 ^ 20) :
    sqrtPrice p t = sqrtPriceOfMagnitude p t (ival t).natAbs := by
  rw [sqrtPrice_eq_ite p t h, if_neg]
  rintro ⟨hp, hwide⟩
  obtain hp' | hn := hn
  · exact absurd (hp.symm.trans hp') (by decide)
  · exact hwide.not_gt hn

/-- Magnitudes that agree below bit 20 have one price: bit 0 picks the start value, and each of the 19
rounds reads one bit (46_sqrt_price.md R206). -/
theorem sqrtPriceOfMagnitude_congr (p : Params) (t t' : I64) (n n' : Nat) (ht : ival t < 0 ↔ ival t' < 0)
    (hn : n % 2 ^ 20 = n' % 2 ^ 20) : sqrtPriceOfMagnitude p t n = sqrtPriceOfMagnitude p t' n' := by
  have hbits : ∀ j < 1 + p.magic.toList.length, n.testBit j = n'.testBit j := by
    intro j hj
    have hj20 : j < 20 := by rwa [Vector.length_toList] at hj
    have hmod : (n % 2 ^ 20).testBit j = (n' % 2 ^ 20).testBit j := by rw [hn]
    simpa only [Nat.testBit_mod_two_pow, hj20, decide_true, Bool.true_and] using hmod
  rw [sqrtPriceOfMagnitude, sqrtPriceOfMagnitude, sqrtStart, sqrtStart, hbits 0 (by omega),
    sqrtRounds_congr n n' _ 1 _ hbits, sqrtRatio_congr t t' ht]

/-! ## The price in whole numbers, with constants in range -/

section
variable (p : Params) (hp : ConstantsInRange p) (t : I64) (n : Nat)
include hp

theorem sqrtPriceOfMagnitude_eq_ratio_bind :
    ∃ acc : U256, acc.toNat = sqrtAccumulator p n ∧
      sqrtPriceOfMagnitude p t n = (sqrtRatio t acc >>= ceilShift32) := by
  obtain ⟨acc, hrounds, hacc⟩ := sqrtRounds_magic p hp n
  refine ⟨acc, hacc, ?_⟩
  rw [sqrtPriceOfMagnitude, hrounds]; rfl

theorem sqrtPriceOfMagnitude_of_neg (ht : ival t < 0) :
    sqrtPriceOfMagnitude p t n = .ok (BitVec.ofNat 256 (ceil32 (sqrtAccumulator p n))) := by
  obtain ⟨acc, hacc, hprice⟩ := sqrtPriceOfMagnitude_eq_ratio_bind p hp t n
  rw [hprice, sqrtRatio_of_neg t acc ht, ← hacc]
  exact ceilShift32_eq acc

theorem sqrtPriceOfMagnitude_of_nonneg_of_pos (ht : 0 ≤ ival t) (hpos : 0 < sqrtAccumulator p n) :
    sqrtPriceOfMagnitude p t n =
      .ok (BitVec.ofNat 256 (ceil32 ((2 ^ 256 - 1) / sqrtAccumulator p n))) := by
  obtain ⟨acc, hacc, hprice⟩ := sqrtPriceOfMagnitude_eq_ratio_bind p hp t n
  obtain ⟨q, hdiv, hq⟩ := udiv_of_pos maxU256 acc (hacc ▸ hpos)
  have hmax : maxU256.toNat = 2 ^ 256 - 1 := rfl
  rw [hprice, sqrtRatio_of_nonneg t acc ht, hdiv, ← hacc, ← hmax, ← hq]
  exact ceilShift32_eq q

theorem sqrtPriceOfMagnitude_of_nonneg_of_eq_zero (ht : 0 ≤ ival t) (hzero : sqrtAccumulator p n = 0) :
    sqrtPriceOfMagnitude p t n = .error .substrateFault := by
  obtain ⟨acc, hacc, hprice⟩ := sqrtPriceOfMagnitude_eq_ratio_bind p hp t n
  rw [hprice, sqrtRatio_of_nonneg t acc ht, udiv_of_eq_zero maxU256 acc (hacc.trans hzero)]; rfl

end

/-! ## The obligations -/

/-- Settles O38: the least tick and, with `fault`, a wide one fail the checks; for every other tick the rounds
end in the accumulator, and the tick's sign decides on the inversion. -/
theorem sqrtpWritesTheRoundedRatio : Obligations.SqrtpWritesTheRoundedRatio := by
  unfold Obligations.SqrtpWritesTheRoundedRatio
  rintro s d a _ rfl
  have henc := encodedAs_fields_asm (.sqrtp d a) ⟨"SQRTP", 0x0000000E, 0xFFFFCCFF⟩ (by decide) rfl
  have hrange := ival_range (s.readT a)
  rw [exec_sqrtp]
  refine ⟨henc, fun hn => ?_, fun hp hn => ?_, fun hp hn hw => ?_⟩
  · rw [sqrtPrice_of_least _ _ (by omega), finishU_error]
  · rw [sqrtPrice_of_wide _ _ hp hn, finishU_error]
  · rw [sqrtPrice_of_accepted _ _ (by omega) hw]
    refine ⟨fun ht => ?_, fun ht hacc => ?_, fun ht hacc => ?_⟩
    · rw [sqrtPriceOfMagnitude_of_neg _ hp _ _ ht, finishU_ok]
    · rw [sqrtPriceOfMagnitude_of_nonneg_of_pos _ hp _ _ ht hacc, finishU_ok]
    · rw [sqrtPriceOfMagnitude_of_nonneg_of_eq_zero _ hp _ _ ht hacc, finishU_error]

/-- Settles O40: the two checks of the tick, and the bits of the magnitude that the start value and the
rounds read. -/
theorem sqrtpWideTicks : Obligations.SqrtpWideTicks := by
  unfold Obligations.SqrtpWideTicks
  refine ⟨rfl, fun s d a ht => ?_, fun s d a hp hn => ?_, fun p t t' hp ht ht' hsign hmod => ?_⟩
  · rw [exec_sqrtp, sqrtPrice_of_least _ _ ht, finishU_error]
  · rw [exec_sqrtp, sqrtPrice_of_wide _ _ hp hn, finishU_error]
  · rw [sqrtPrice_of_accepted p t ht (.inl hp), sqrtPrice_of_accepted p t' ht' (.inl hp)]
    exact sqrtPriceOfMagnitude_congr p t t' _ _ hsign hmod

end Sys2Proof.Machine
end

section
/-! LOGSP's pick: which of the two bounds the recomputed price of the upper one decides for, and what an
error before the pick does (47_log_price.md R221, R228). -/

namespace Sys2Proof.Machine

open Sys2Proof.Safety

theorem ucmp_eq_greater_iff (x y : U256) : ucmp x y = .greater ↔ y.toNat < x.toNat := by
  rw [ucmp_eq_natOrder, natOrder]
  split_ifs <;> simp <;> omega

/-! ## The pick between the bounds -/

theorem stepPick_self (p : Params) (t : I64) (price : U256) : stepPick p t t price = .ok t := if_pos rfl

section
variable (p : Params) (lo hi : I64) (price : U256) (hne : lo ≠ hi)
include hne

/-- Two different bounds: the upper one's price is recomputed, and an error of SQRTP ends the pick. -/
theorem stepPick_of_ne :
    stepPick p lo hi price =
      (sqrtPrice p hi).map fun pHi => if pHi.toNat ≤ price.toNat then hi else lo := by
  rw [stepPick, if_neg hne]
  simp only [Ne, ucmp_eq_greater_iff, not_lt]
  rfl

theorem stepPick_of_price_le (pHi : U256) (h : sqrtPrice p hi = .ok pHi) (hle : pHi.toNat ≤ price.toNat) :
    stepPick p lo hi price = .ok hi := by
  rw [stepPick_of_ne p lo hi price hne, h, Except.map, if_pos hle]

theorem stepPick_of_lt_price (pHi : U256) (h : sqrtPrice p hi = .ok pHi) (hlt : price.toNat < pHi.toNat) :
    stepPick p lo hi price = .ok lo := by
  rw [stepPick_of_ne p lo hi price hne, h, Except.map, if_neg hlt.not_ge]

theorem stepPick_of_price_error (e : AuError) (h : sqrtPrice p hi = .error e) :
    stepPick p lo hi price = .error e := by
  rw [stepPick_of_ne p lo hi price hne, h, Except.map]

end

/-! ## The value from the bounds -/

theorem logPrice_of_bounds_error (p : Params) (price : U256) (e : AuError)
    (h : logBounds p price = .error e) : logPrice p price = .error e := by
  rw [logPrice, h]; rfl

theorem logPrice_of_bounds (p : Params) (price : U256) (lo hi : I64)
    (h : logBounds p price = .ok (lo, hi)) : logPrice p price = stepPick p lo hi price := by
  rw [logPrice, h]; rfl

/-! ## The obligation -/

/-- Settles O46: an error of the bounds is LOGSP's, and from two bounds LOGSP's value is the pick's. -/
theorem logspPicksABoundByTheRecomputedPrice : Obligations.LogspPicksABoundByTheRecomputedPrice := by
  unfold Obligations.LogspPicksABoundByTheRecomputedPrice
  intro s d a
  have henc := encodedAs_fields_asm (.logsp d a) ⟨"LOGSP", 0x0000000F, 0xFFFFCCFF⟩ (by decide) rfl
  rw [exec_logsp]
  refine ⟨henc, fun e hb => ?_, fun lo hi hb => ?_⟩
  · rw [logPrice_of_bounds_error _ _ e hb, finishT_error]
  · rw [logPrice_of_bounds _ _ lo hi hb]
    refine ⟨?_, fun hne p hp => ⟨fun hle => ?_, fun hlt => ?_⟩, fun hne e he => ?_⟩
    · rintro rfl
      rw [stepPick_self, finishT_ok]
    · rw [stepPick_of_price_le _ lo hi _ hne p hp hle, finishT_ok]
    · rw [stepPick_of_lt_price _ lo hi _ hne p hp hlt, finishT_ok]
    · rw [stepPick_of_price_error _ lo hi _ hne e he, finishT_error]

end Sys2Proof.Machine
end

section
/-! What an error changes, for every command, and the idle unit (60_exceptions.md R250, R252, R266). -/

namespace Sys2Proof.Machine

/-- A command's value is not the error that no command raises (40_datapath.md R113). -/
def NotIndexError {α : Type} (r : Except AuError α) : Prop := ∀ e, r = .error e → e ≠ .limbIndexOutOfRange

/-- A command run from `s` ended in a next state: with STATUS as it was, or by the error action and nothing
else (60_exceptions.md R252). -/
def KeepsStatusOrRaises (s : State) (r : Result) : Prop :=
  ∃ t, r = .next t ∧ (t.status = s.status ∨ ∃ e, e ≠ .limbIndexOutOfRange ∧ t = s.raise e)

/-! ## The values of the commands -/

theorem notIndexError_ok {α : Type} (v : α) : NotIndexError (.ok v) := nofun

/-- A value whose only error is another one. -/
theorem notIndexError_of_only {α : Type} {r : Except AuError α} {e' : AuError}
    (h : ∀ e, r = .error e → e = e') (he' : e' ≠ .limbIndexOutOfRange) : NotIndexError r := by
  intro e he
  rwa [h e he]

theorem notIndexError_addValue (a b : I256) : NotIndexError (addValue a b) := by
  intro e h
  obtain rfl | rfl := addValue_error a b e h <;> decide

theorem notIndexError_subValue (a b : I256) : NotIndexError (subValue a b) := by
  intro e h
  obtain rfl | rfl := subValue_error a b e h <;> decide

theorem notIndexError_mulValue (a b : I256) : NotIndexError (mulValue a b) :=
  notIndexError_of_only (mulValue_error a b) nofun

theorem notIndexError_fromUValue (u : U256) : NotIndexError (fromUValue u) :=
  notIndexError_of_only (fromUValue_error u) nofun

theorem notIndexError_fromU128Value (u : U256) (n : Bool) : NotIndexError (fromU128Value u n) :=
  notIndexError_of_only (fromU128Value_error u n) nofun

theorem notIndexError_asI64Value (a : I256) : NotIndexError (asI64Value a) :=
  notIndexError_of_only (asI64Value_error a) nofun

theorem notIndexError_sqrtPrice (p : Params) (t : I64) : NotIndexError (sqrtPrice p t) :=
  notIndexError_of_only (sqrtPrice_error p t) nofun

theorem notIndexError_logPrice (p : Params) (price : U256) : NotIndexError (logPrice p price) := by
  intro e h
  obtain rfl | rfl | rfl | rfl | rfl := logPrice_error p price e h <;> decide

/-! ## The ends of the commands -/

theorem writeOrd_keepsStatusOrRaises (s : State) (o : Order) :
    KeepsStatusOrRaises s (.next (s.writeOrd o)) := ⟨_, rfl, .inl rfl⟩

theorem finishS_keepsStatusOrRaises (d : SIdx) (r : Except AuError I256) (s : State) (hr : NotIndexError r) :
    KeepsStatusOrRaises s (finishS d r s) := by
  obtain ⟨v, -, h⟩ | ⟨e, he, h⟩ := finishS_cases d r s
  · exact ⟨_, h, .inl (s.writeS_status d v)⟩
  · exact ⟨_, h, .inr ⟨e, hr e he, rfl⟩⟩

theorem finishU_keepsStatusOrRaises (d : UIdx) (r : Except AuError U256) (s : State) (hr : NotIndexError r) :
    KeepsStatusOrRaises s (finishU d r s) := by
  obtain ⟨v, -, h⟩ | ⟨e, he, h⟩ := finishU_cases d r s
  · exact ⟨_, h, .inl (s.writeU_status d v)⟩
  · exact ⟨_, h, .inr ⟨e, hr e he, rfl⟩⟩

theorem finishT_keepsStatusOrRaises (d : TIdx) (r : Except AuError I64) (s : State) (hr : NotIndexError r) :
    KeepsStatusOrRaises s (finishT d r s) := by
  obtain ⟨v, -, h⟩ | ⟨e, he, h⟩ := finishT_cases d r s
  · exact ⟨_, h, .inl (s.writeT_status d v)⟩
  · exact ⟨_, h, .inr ⟨e, hr e he, rfl⟩⟩

/-- Every command ends, and changes STATUS by the error action alone, which changes nothing else
(60_exceptions.md R252). -/
theorem exec_keepsStatusOrRaises (i : Instr) (s : State) : KeepsStatusOrRaises s (exec i s) := by
  cases i with
  | cmp a b => rw [exec_cmp]; exact writeOrd_keepsStatusOrRaises s _
  | acmp a b => rw [exec_acmp]; exact writeOrd_keepsStatusOrRaises s _
  | add d a b => rw [exec_add]; exact finishS_keepsStatusOrRaises d _ s (notIndexError_addValue _ _)
  | sub d a b => rw [exec_sub]; exact finishS_keepsStatusOrRaises d _ s (notIndexError_subValue _ _)
  | mul d a b => rw [exec_mul]; exact finishS_keepsStatusOrRaises d _ s (notIndexError_mulValue _ _)
  | shr d a n => rw [exec_shr]; exact finishS_keepsStatusOrRaises d _ s (notIndexError_ok _)
  | or d a b => rw [exec_or]; exact finishS_keepsStatusOrRaises d _ s (notIndexError_ok _)
  | compl d a => rw [exec_compl]; exact finishS_keepsStatusOrRaises d _ s (notIndexError_ok _)
  | zero d => rw [exec_zero]; exact finishS_keepsStatusOrRaises d _ s (notIndexError_ok _)
  | fromu d a => rw [exec_fromu]; exact finishS_keepsStatusOrRaises d _ s (notIndexError_fromUValue _)
  | fromun d a => rw [exec_fromun]; exact finishS_keepsStatusOrRaises d _ s (notIndexError_ok _)
  | fromu128 d a n =>
    rw [exec_fromu128]
    exact finishS_keepsStatusOrRaises d _ s (notIndexError_fromU128Value _ _)
  | asi64 d a => rw [exec_asi64]; exact finishT_keepsStatusOrRaises d _ s (notIndexError_asI64Value _)
  | sqrtp d a => rw [exec_sqrtp]; exact finishU_keepsStatusOrRaises d _ s (notIndexError_sqrtPrice _ _)
  | logsp d a => rw [exec_logsp]; exact finishT_keepsStatusOrRaises d _ s (notIndexError_logPrice _ _)

/-! ## The idle unit -/

theorem step_of_script_nil (s : State) (h : s.script = []) : step s = .next s := by
  rw [step, nextAction, h]

/-! ## The obligations -/

/-- Settles O8: the end of each command over the errors its value can have, the cycle on an illegal word, and
the table of the codes. -/
theorem errorChangesStatusAlone : Obligations.ErrorChangesStatusAlone := by
  unfold Obligations.ErrorChangesStatusAlone
  exact ⟨exec_keepsStatusOrRaises, commandCycle_of_not_wellFormed, rfl⟩

/-- Settles O13: with an empty script there is no action to take. -/
theorem idleUnitKeepsEverything : Obligations.IdleUnitKeepsEverything := step_of_script_nil

end Sys2Proof.Machine
end

section
/-! The decoder and the encoder are inverse to each other (30_encoding.md R81 to R87). -/

namespace Sys2Proof

theorem signFlag_flagField (b : Bool) : signFlag (if b then 1#8 else 0#8) = .ok b :=
  (signFlag_eq_ok_iff _ b).mpr rfl

/-- The decoder reads back each operand from the field the encoder lays out for it, and finds 0 in every
field the format leaves out (30_encoding.md R84, R85). -/
theorem decodeFields_fields (i : Instr) : decodeFields i.fields = .ok i := by
  cases i <;>
    simp [Instr.fields, decodeFields, unused, sIndex_indexField, utIndex_indexField, signFlag_flagField,
      bind, Except.bind, pure, Except.pure]

theorem decode_encode (i : Instr) : decode (encode i) = .ok i := by
  rw [decode, encode, fieldsOf_pack, decodeFields_fields]

theorem encode_of_decode (w : Word64) (i : Instr) (h : decode w = .ok i) : encode i = w := by
  rw [encode, ← fields_of_decodeFields _ i h, pack_fieldsOf]

/-! ## The obligations -/

/-- Settles O2: the fields come back out of the packed word, and the operands out of the fields. -/
theorem decodeOfEncodeIsTheCommand : Obligations.DecodeOfEncodeIsTheCommand := decode_encode

/-- Settles O3: the decoder accepts only the fields the encoder lays out, and a word is the packing of its
fields. -/
theorem legalWordIsItsCommandsEncoding : Obligations.LegalWordIsItsCommandsEncoding := encode_of_decode

/-- Settles O1: each word is the encoding of the command it stands for. -/
theorem handWrittenWordsDecode : Obligations.HandWrittenWordsDecode := by
  unfold Obligations.HandWrittenWordsDecode
  exact ⟨decode_encode (.cmp 2 4), decode_encode (.acmp 1 2), decode_encode (.add 2 0 1),
    decode_encode (.sub 4 1 0), decode_encode (.mul 6 5 7), decode_encode (.shr 3 2 255),
    decode_encode (.or 2 0 1), decode_encode (.compl 3 2), decode_encode (.zero 7),
    decode_encode (.fromu 1 1), decode_encode (.fromun 5 3), decode_encode (.fromu128 0 1 true),
    decode_encode (.asi64 0 2), decode_encode (.sqrtp 3 0), decode_encode (.logsp 1 0)⟩

end Sys2Proof
end

section
/-! What every step keeps: STATUS as the spec says it reads, the parameters, and FAULTED until reset
(10_state.md R35, R45, 70_reset_and_hazards.md R280, R282). -/

namespace Sys2Proof.Machine

open Sys2Proof.Safety

/-! ## STATUS -/

/-- `StatusOk` looks at STATUS alone. -/
theorem statusOk_of_status_eq {s t : State} (h : t.status = s.status) (hs : StatusOk s) : StatusOk t := by
  rw [StatusOk, h]
  exact hs

/-- Every error but LimbIndexOutOfRange has a code from 2 to 8 (60_exceptions.md R250). -/
theorem statusOk_raise (s : State) (e : AuError) (he : e ≠ .limbIndexOutOfRange) : StatusOk (s.raise e) := by
  rw [StatusOk, State.raise_status]
  revert he
  cases e <;> decide

/-- A command run between BUSY set and BUSY cleared keeps STATUS, or ends in the error action. -/
theorem statusOk_endCommand_of_exec (i : Instr) (s u : State) (hs : StatusOk s)
    (hu : exec i s.beginCommand = .next u) : StatusOk u.endCommand := by
  obtain ⟨-, -, -, hbusy⟩ := id hs
  obtain ⟨u', hu', hkeep | ⟨e, he, rfl⟩⟩ := exec_keepsStatusOrRaises i s.beginCommand
  · cases hu.symm.trans hu'
    have hstatus : u.endCommand.status = s.status := by
      rw [State.endCommand_status, hkeep, State.beginCommand_status, ← hbusy]
    exact statusOk_of_status_eq hstatus hs
  · cases hu.symm.trans hu'
    exact statusOk_raise s.beginCommand e he

theorem step_keeps_statusOk (s t : State) (hs : StatusOk s) (h : step s = .next t) : StatusOk t := by
  cases step_stepped s t h with
  | idle => exact hs
  | wasReset => exact statusOk_of_status_eq (s := State.reset) rfl (by decide)
  | replied => exact statusOk_of_status_eq rfl hs
  | stored => exact statusOk_of_status_eq (storeWord_status ..) hs
  | ignored => exact statusOk_of_status_eq rfl hs
  | illegal => exact statusOk_raise _ _ (by decide)
  | ran _ rest i u _ _ _ hu =>
    exact statusOk_endCommand_of_exec i (s.withScript rest) u (statusOk_of_status_eq rfl hs) hu

/-- While FAULTED no action but reset changes STATUS: no command runs, and no host write reaches it
(10_state.md R35, R45). -/
theorem step_status_of_faulted (s t : State) (act : HostAction) (rest : List HostAction)
    (hs : s.script = act :: rest) (hact : act ≠ .reset) (hf : s.status.fault = true)
    (h : step s = .next t) : t.status = s.status := by
  cases step_stepped s t h with
  | idle => rfl
  | wasReset _ h' => rw [hs] at h'; cases h'; exact absurd rfl hact
  | replied => rfl
  | stored => exact storeWord_status ..
  | ignored => rfl
  | illegal _ _ _ _ hf' => rw [hf] at hf'; cases hf'
  | ran _ _ _ _ _ _ hf' => rw [hf] at hf'; cases hf'

theorem statusWord_toNat (st : Status) :
    (statusWord st).toNat = st.code.toNat + 16 * st.fault.toNat + 32 * st.busy.toNat := by
  obtain ⟨code, fault, busy⟩ := st
  simp only [statusWord, toNat_append_eq, BitVec.toNat_ofBool, BitVec.toNat_ofNat]
  omega

/-! ## The parameters -/

theorem Ended.params_eq {s t : State} (h : Ended s t) : t.params = s.params := by
  cases h <;> rfl

theorem exec_params (i : Instr) (s t : State) (h : exec i s = .next t) : t.params = s.params := by
  obtain ⟨t', ht', hend⟩ := exec_ended i s
  cases h.symm.trans ht'
  exact hend.params_eq

theorem step_params (s t : State) (h : step s = .next t) : t.params = s.params := by
  cases step_stepped s t h with
  | idle => rfl
  | wasReset => rfl
  | replied => rfl
  | stored => exact storeWord_params ..
  | ignored => rfl
  | illegal => rfl
  | ran _ rest i u _ _ _ hu => exact exec_params i (s.withScript rest).beginCommand u hu

/-! ## The steps of single actions -/

theorem step_read (s : State) (a : WordAddr) (rest : List HostAction) (h : s.script = .read a :: rest) :
    step s = .next ((s.withScript rest).reply (.word (s.readWindow a))) := by
  rw [step, nextAction, h]; rfl

theorem step_reset (s : State) (rest : List HostAction) (h : s.script = .reset :: rest) :
    step s = .next (s.withScript rest).resetUnit := by
  rw [step, nextAction, h]; rfl

theorem commandCycle_of_faulted (w : Word64) (s : State) (hf : s.status.fault = true) :
    commandCycle w s = .next s := if_pos hf

theorem commandCycle_of_decode (w : Word64) (s : State) (i : Instr) (hf : s.status.fault = false)
    (hd : decode w = .ok i) : commandCycle w s = mapNext State.endCommand (exec i s.beginCommand) := by
  rw [commandCycle, hf, hd]; rfl

/-- CMD has one address, so a host write of any other word stores it. -/
theorem step_write_of_ne_cmdAddr (s : State) (a : WordAddr) (w : Word64) (rest : List HostAction)
    (h : s.script = .write a w :: rest) (ha : a ≠ cmdAddr) :
    step s = .next ((s.withScript rest).storeWord (windowWord a) w) := by
  refine step_write_of_ne_cmd s a w rest h fun hcmd => ha ?_
  rw [← windowWord_cmdAddr] at hcmd
  exact windowWord_injective a cmdAddr hcmd (by rw [hcmd]; decide)

/-! ## The obligations -/

/-- Settles O9: every way a step can end keeps STATUS, clears it, or sets it by the error action. -/
theorem everyStepKeepsStatusOk : Obligations.EveryStepKeepsStatusOk := step_keeps_statusOk

/-- Settles O10: no way a step can end changes the parameters. -/
theorem noStepChangesTheParameters : Obligations.NoStepChangesTheParameters := step_params

/-- Settles O6: the command cycle of a unit that is not FAULTED, on a word that decodes. -/
theorem stepRunsTheDecodedCommand : Obligations.StepRunsTheDecodedCommand := by
  unfold Obligations.StepRunsTheDecodedCommand
  intro s w rest i h hf hd
  rw [step_write_cmd s w rest h]
  exact commandCycle_of_decode w _ i hf hd

/-- Settles O7: the step of each action while FAULTED, and that STATUS stays but for reset. -/
theorem faultedUnitIgnoresCommandsUntilReset : Obligations.FaultedUnitIgnoresCommandsUntilReset := by
  unfold Obligations.FaultedUnitIgnoresCommandsUntilReset
  refine ⟨fun _ _ => rfl, fun s w rest h hf => ?_, fun s a w rest h ha _ => ?_, fun s a rest h _ => ?_,
    fun s t act rest h hact hf ht => ?_, fun s rest h => ?_⟩
  · rw [step_write_cmd s w rest h]
    exact commandCycle_of_faulted w _ hf
  · exact step_write_of_ne_cmdAddr s a w rest h ha
  · exact step_read s a rest h
  · rw [step_status_of_faulted s t act rest h hact hf ht, hf]
  · exact ⟨_, step_reset s rest h, rfl⟩

/-- Settles O48: STATUS's word by its three fields, the ignored host write by the window's store, and that
only reset changes STATUS while FAULTED. -/
theorem statusRegisterReadsAndResets : Obligations.StatusRegisterReadsAndResets := by
  unfold Obligations.StatusRegisterReadsAndResets
  refine ⟨fun s => ?_, fun s w rest h => ?_, step_status_of_faulted⟩
  · rw [State.readWindow, windowWord_statusAddr]
    exact statusWord_toNat s.status
  · rw [step_write_of_ne_cmdAddr s statusAddr w rest h (by decide), windowWord_statusAddr]; rfl

/-- Settles O53: the reset unit has STATUS 0 and every register word unwritten. -/
theorem resetClearsStatusAndMakesAllUnwritten : Obligations.ResetClearsStatusAndMakesAllUnwritten := by
  unfold Obligations.ResetClearsStatusAndMakesAllUnwritten
  intro s rest h
  have hword := wordWritten_of_written_none (s.withScript rest).resetUnit rfl
  have hreg (i : SIdx) : (s.withScript rest).resetUnit.writtenS i = false := by
    simp [State.writtenS, Written.none]
  exact ⟨_, step_reset s rest h, rfl,
    fun i => ⟨hreg i, hword (.sNeg i) nofun nofun nofun, fun j => hword (.sMag i j) nofun nofun nofun⟩,
    fun i j => hword (.uLimb i j) nofun nofun nofun, fun i => hword (.tWord i) nofun nofun nofun,
    hword .ord nofun nofun nofun, rfl, rfl, rfl⟩

end Sys2Proof.Machine
end

section
/-! What each end of a command leaves alone, word by word of the window, and which words it makes written
(10_state.md R31 to R34, 20_memory.md R66, 40_datapath.md R110). -/

namespace Sys2Proof.Machine

open Sys2Proof.Safety

/-! ## The window words after a command's write -/

@[simp] theorem wordWritten_writeS (s : State) (d : SIdx) (v : I256) (x : WindowWord) :
    (s.writeS d v).wordWritten x = (ofS d x || s.wordWritten x) := by
  cases x with
  | sMag i j =>
    obtain rfl | hne := eq_or_ne i d
    · simp [State.wordWritten, ofS, allWritten]
    · simp [State.wordWritten, ofS, hne, Fin.val_ne_of_ne hne.symm]
  | sNeg i =>
    obtain rfl | hne := eq_or_ne i d
    · simp [State.wordWritten, ofS]
    · simp [State.wordWritten, ofS, hne, Fin.val_ne_of_ne hne.symm]
  | _ => rfl

@[simp] theorem wordWritten_writeU (s : State) (d : UIdx) (v : U256) (x : WindowWord) :
    (s.writeU d v).wordWritten x = (ofU d x || s.wordWritten x) := by
  cases x with
  | uLimb i j =>
    obtain rfl | hne := eq_or_ne i d
    · simp [State.wordWritten, ofU, allWritten]
    · simp [State.wordWritten, ofU, hne, Fin.val_ne_of_ne hne.symm]
  | _ => rfl

@[simp] theorem wordWritten_writeT (s : State) (d : TIdx) (v : I64) (x : WindowWord) :
    (s.writeT d v).wordWritten x = (x == .tWord d || s.wordWritten x) := by
  cases x with
  | tWord i =>
    obtain rfl | hne := eq_or_ne i d
    · simp [State.wordWritten]
    · simp [State.wordWritten, hne, Fin.val_ne_of_ne hne.symm]
  | _ => rfl

@[simp] theorem wordWritten_writeOrd (s : State) (o : Order) (x : WindowWord) :
    (s.writeOrd o).wordWritten x = (x == .ord || s.wordWritten x) := by
  cases x <;> rfl

theorem readWord_writeS_of_not_own (s : State) (d : SIdx) (v : I256) (x : WindowWord) (hx : ofS d x = false) :
    (s.writeS d v).readWord x = s.readWord x := by
  cases x with
  | sMag i j =>
    have hne : d ≠ i := fun h => by simp [ofS, h] at hx
    simp [State.readWord, hne]
  | sNeg i =>
    have hne : d ≠ i := fun h => by simp [ofS, h] at hx
    simp [State.readWord, hne]
  | _ => rfl

theorem readWord_writeU_of_not_own (s : State) (d : UIdx) (v : U256) (x : WindowWord) (hx : ofU d x = false) :
    (s.writeU d v).readWord x = s.readWord x := by
  cases x with
  | uLimb i j =>
    have hne : d ≠ i := fun h => by simp [ofU, h] at hx
    simp [State.readWord, hne]
  | _ => rfl

theorem readWord_writeT_of_ne (s : State) (d : TIdx) (v : I64) (x : WindowWord) (hx : x ≠ .tWord d) :
    (s.writeT d v).readWord x = s.readWord x := by
  cases x with
  | tWord i =>
    have hne : d ≠ i := fun h => hx (h ▸ rfl)
    simp [State.readWord, hne]
  | _ => rfl

theorem readWord_writeOrd_of_ne (s : State) (o : Order) (x : WindowWord) (hx : x ≠ .ord) :
    (s.writeOrd o).readWord x = s.readWord x := by
  cases x <;> first | rfl | exact absurd rfl hx

/-! ## The frame of each end -/

/-- The error action changes STATUS and nothing else, whatever the command's destination
(60_exceptions.md R252). -/
theorem framed_raise (own : WindowWord → Bool) (s : State) (e : AuError) : Framed own s (s.raise e) := by
  have hread (x : WindowWord) (hx : x ≠ .status) : (s.raise e).readWord x = s.readWord x := by
    cases x <;> first | rfl | exact absurd rfl hx
  have hwritten (x : WindowWord) : (s.raise e).wordWritten x = s.wordWritten x := by
    cases x <;> rfl
  exact ⟨rfl, rfl, rfl, fun x _ => hwritten x, fun x _ => hread x,
    .inr ⟨e, rfl, fun x hx => ⟨hwritten x, hread x hx⟩⟩⟩

theorem framed_writeS (s : State) (d : SIdx) (v : I256) : Framed (ofS d) s (s.writeS d v) :=
  ⟨rfl, rfl, rfl, fun x hx => by rw [wordWritten_writeS, hx, Bool.false_or],
    fun x hx _ => readWord_writeS_of_not_own s d v x hx, .inl rfl⟩

theorem framed_writeU (s : State) (d : UIdx) (v : U256) : Framed (ofU d) s (s.writeU d v) :=
  ⟨rfl, rfl, rfl, fun x hx => by rw [wordWritten_writeU, hx, Bool.false_or],
    fun x hx _ => readWord_writeU_of_not_own s d v x hx, .inl rfl⟩

theorem framed_writeT (s : State) (d : TIdx) (v : I64) :
    Framed (fun x => x == .tWord d) s (s.writeT d v) :=
  ⟨rfl, rfl, rfl, fun x hx => (wordWritten_writeT s d v x).trans (congrArg (· || s.wordWritten x) hx),
    fun x hx _ => readWord_writeT_of_ne s d v x (beq_eq_false_iff_ne.mp hx), .inl rfl⟩

theorem framed_writeOrd (s : State) (o : Order) : Framed (fun x => x == .ord) s (s.writeOrd o) :=
  ⟨rfl, rfl, rfl, fun x hx => (wordWritten_writeOrd s o x).trans (congrArg (· || s.wordWritten x) hx),
    fun x hx _ => readWord_writeOrd_of_ne s o x (beq_eq_false_iff_ne.mp hx), .inl rfl⟩

/-- A command whose destination is `U[d]` changes it, or STATUS by the error action, and nothing else. -/
theorem finishU_frame (d : UIdx) (r : Except AuError U256) (s t : State) (h : finishU d r s = .next t) :
    Framed (ofU d) s t ∧ t.sregs = s.sregs ∧ t.tregs = s.tregs ∧ t.ord = s.ord ∧
      ∀ k : UIdx, k ≠ d → t.readU k = s.readU k := by
  cases r with
  | error e =>
    cases h
    exact ⟨framed_raise _ s e, rfl, rfl, rfl, fun _ _ => rfl⟩
  | ok v =>
    cases h
    refine ⟨framed_writeU s d v, rfl, rfl, rfl, fun k hk => ?_⟩
    rw [State.readU_writeU, if_neg hk.symm]

/-- A command whose destination is `T[d]` changes it, or STATUS by the error action, and nothing else. -/
theorem finishT_frame (d : TIdx) (r : Except AuError I64) (s t : State) (h : finishT d r s = .next t) :
    Framed (fun x => x == .tWord d) s t ∧ t.sregs = s.sregs ∧ t.uregs = s.uregs ∧ t.ord = s.ord ∧
      ∀ k : TIdx, k ≠ d → t.readT k = s.readT k := by
  cases r with
  | error e =>
    cases h
    exact ⟨framed_raise _ s e, rfl, rfl, rfl, fun _ _ => rfl⟩
  | ok v =>
    cases h
    refine ⟨framed_writeT s d v, rfl, rfl, rfl, fun k hk => ?_⟩
    rw [State.readT_writeT, if_neg hk.symm]

/-! ## Written registers -/

theorem writtenS_iff (s : State) (k : SIdx) :
    s.writtenS k = true ↔ s.wordWritten (.sNeg k) = true ∧ ∀ j, s.wordWritten (.sMag k j) = true := by
  rw [State.writtenS, Bool.and_eq_true, decide_eq_true_iff, and_comm]; rfl

theorem writtenU_iff (s : State) (k : UIdx) :
    s.writtenU k = true ↔ ∀ j, s.wordWritten (.uLimb k j) = true := decide_eq_true_iff

theorem writtenT_iff (s : State) (k : TIdx) : s.writtenT k = true ↔ s.wordWritten (.tWord k) = true := Iff.rfl

/-! ## The obligations -/

/-- Settles O14: each of the ten ends in the error action or in one write of its S register. -/
theorem frameOfCommandsThatWriteS : Obligations.FrameOfCommandsThatWriteS := by
  unfold Obligations.FrameOfCommandsThatWriteS
  intro i d s t hd h
  obtain ⟨e, rfl⟩ | ⟨v, rfl⟩ := exec_raises_or_writes_norm i d s t hd h
  · exact ⟨framed_raise _ s e, rfl, rfl, rfl, fun _ _ => rfl⟩
  · refine ⟨framed_writeS s d (norm v), rfl, rfl, rfl, fun k hk => ?_⟩
    rw [State.readS_writeS, if_neg hk.symm]

/-- Settles O15: SQRTP ends over its U register, ASI64 and LOGSP over their T register. -/
theorem frameOfCommandsThatWriteUAndT : Obligations.FrameOfCommandsThatWriteUAndT := by
  unfold Obligations.FrameOfCommandsThatWriteUAndT
  refine ⟨fun d a s t h => finishU_frame d _ s t (exec_sqrtp d a s ▸ h), ?_⟩
  rintro i d s t (⟨a, rfl⟩ | ⟨a, rfl⟩) h
  · exact finishT_frame d _ s t (exec_asi64 d a s ▸ h)
  · exact finishT_frame d _ s t (exec_logsp d a s ▸ h)

/-- Settles O16: both compares end in one write of ORD. -/
theorem frameOfCompares : Obligations.FrameOfCompares := by
  unfold Obligations.FrameOfCompares
  have hframe (s : State) (o : Order) : Framed (fun x => x == .ord) s (s.writeOrd o) ∧
      (s.writeOrd o).sregs = s.sregs ∧ (s.writeOrd o).uregs = s.uregs ∧ (s.writeOrd o).tregs = s.tregs ∧
      (s.writeOrd o).status = s.status ∧ (s.writeOrd o).written.ord = true :=
    ⟨framed_writeOrd s o, rfl, rfl, rfl, rfl, rfl⟩
  rintro i s t (⟨a, b, rfl⟩ | ⟨a, b, rfl⟩) h
  · rw [exec_cmp] at h
    cases h
    exact hframe s _
  · rw [exec_acmp] at h
    cases h
    exact hframe s _

/-- Settles O55: a command's write marks each word of its register, and a register's words stand at the
addresses of the window's map. -/
theorem registerIsWrittenWhenEveryWordIs : Obligations.RegisterIsWrittenWhenEveryWordIs := by
  unfold Obligations.RegisterIsWrittenWhenEveryWordIs
  simp only [windowWord_sNegAddr, windowWord_sMagAddr, windowWord_uLimbAddr, windowWord_tWordAddr]
  refine ⟨fun s k v => ?_, fun s k v => ?_, fun s k v => ?_, writtenS_iff, writtenU_iff, writtenT_iff⟩
  · simp [writtenS_iff, ofS]
  · simp [writtenU_iff, ofU]
  · simp [writtenT_iff]

end Sys2Proof.Machine
end

section
/-! The checked step: which words and sources its guard looks at, and that the contents of words which are not
written never reach what it does (10_state.md R43, 60_exceptions.md R259). -/

namespace Sys2Proof.Machine

open Sys2Proof.Safety

/-! ## Words read after a host write of the same word -/

theorem readWord_storeWord_sMag (s : State) (i : SIdx) (j : Fin 4) (w : Word64) :
    (s.storeWord (.sMag i j) w).readWord (.sMag i j) = w := by
  simp [State.readWord, limb_setLimb]

theorem readWord_storeWord_sNeg (s : State) (i : SIdx) (w : Word64) :
    (s.storeWord (.sNeg i) w).readWord (.sNeg i) = (BitVec.ofBool (w.getLsbD 0)).setWidth 64 := by
  simp [State.readWord]

theorem readWord_storeWord_uLimb (s : State) (i : UIdx) (j : Fin 4) (w : Word64) :
    (s.storeWord (.uLimb i j) w).readWord (.uLimb i j) = w := by
  simp [State.readWord, limb_setLimb]

theorem readWord_storeWord_tWord (s : State) (i : TIdx) (w : Word64) :
    (s.storeWord (.tWord i) w).readWord (.tWord i) = w := by
  simp [State.readWord]

/-! ## A register is its words -/

theorem eq_of_limbs_eq {m m' : U256} (h : ∀ j : Fin 4, limb m j.val = limb m' j.val) : m = m' := by
  have hlimbs : toLimbs m = toLimbs m' := congrArg₂ List.cons (h 0) (congrArg₂ List.cons (h 1)
    (congrArg₂ List.cons (h 2) (congrArg₂ List.cons (h 3) rfl)))
  rw [← ofLimbs_toLimbs m, hlimbs, ofLimbs_toLimbs]

theorem readS_eq_of_words_eq {s t : State} {k : SIdx} (hneg : s.readWord (.sNeg k) = t.readWord (.sNeg k))
    (hmag : ∀ j, s.readWord (.sMag k j) = t.readWord (.sMag k j)) : s.readS k = t.readS k := by
  have hsign : (s.readS k).neg = (t.readS k).neg := by
    have hbit := congrArg (·.getLsbD 0) hneg
    simpa [State.readWord] using hbit
  have hmagnitude : (s.readS k).mag = (t.readS k).mag := eq_of_limbs_eq hmag
  calc s.readS k = ⟨(s.readS k).neg, (s.readS k).mag⟩ := rfl
    _ = t.readS k := by rw [hsign, hmagnitude]

/-! ## States alike but for unwritten words -/

theorem windowWord_addrOfWord (x : WindowWord) : windowWord (addrOfWord x) = x := by
  cases x with
  | sMag i j => exact windowWord_sMagAddr i j
  | sNeg i => exact windowWord_sNegAddr i
  | uLimb i j => exact windowWord_uLimbAddr i j
  | tWord i => exact windowWord_tWordAddr i
  | cmd => exact windowWord_cmdAddr
  | status => exact windowWord_statusAddr
  | ord => exact windowWord_ordAddr
  | reserved => decide

theorem wordWritten_congr {s t : State} (h : s.written = t.written) (x : WindowWord) :
    s.wordWritten x = t.wordWritten x := by
  cases x <;> simp [State.wordWritten, h]

theorem sourcesWritten_congr {s t : State} (h : s.written = t.written) (i : Instr) :
    s.sourcesWritten i = t.sourcesWritten i := by
  cases i <;> simp [State.sourcesWritten, State.writtenS, State.writtenU, State.writtenT, h]

/-- `AgreeOnWritten` by words in place of addresses: every word has an address. -/
theorem agreeOnWritten_iff (s t : State) :
    AgreeOnWritten s t ↔ s.written = t.written ∧ s.status = t.status ∧ s.script = t.script ∧
      s.replies = t.replies ∧ s.params = t.params ∧
      ∀ x, s.wordWritten x = true → s.readWord x = t.readWord x := by
  have hwords : (∀ a, s.wordWritten (windowWord a) = true → s.readWindow a = t.readWindow a) ↔
      ∀ x, s.wordWritten x = true → s.readWord x = t.readWord x := by
    refine ⟨fun h x hx => ?_, fun h a => h (windowWord a)⟩
    have ha := h (addrOfWord x)
    rw [State.readWindow, State.readWindow, windowWord_addrOfWord] at ha
    exact ha hx
  rw [AgreeOnWritten, hwords]

section
variable {s t : State} (h : AgreeOnWritten s t)
include h

theorem readWord_eq_of_agree {x : WindowWord} (hx : s.wordWritten x = true) : s.readWord x = t.readWord x := by
  obtain ⟨-, -, -, -, -, hwords⟩ := (agreeOnWritten_iff s t).mp h
  exact hwords x hx

theorem readS_eq_of_agree {k : SIdx} (hk : s.writtenS k = true) : s.readS k = t.readS k := by
  obtain ⟨hneg, hmag⟩ := (writtenS_iff s k).mp hk
  exact readS_eq_of_words_eq (readWord_eq_of_agree h hneg) fun j => readWord_eq_of_agree h (hmag j)

theorem readU_eq_of_agree {k : UIdx} (hk : s.writtenU k = true) : s.readU k = t.readU k :=
  eq_of_limbs_eq fun j => readWord_eq_of_agree h ((writtenU_iff s k).mp hk j)

theorem readT_eq_of_agree {k : TIdx} (hk : s.writtenT k = true) : s.readT k = t.readT k :=
  readWord_eq_of_agree h ((writtenT_iff s k).mp hk)

/-! ## What keeps two states alike -/

/-- STATUS, the script and the replies can change alike: no other word shows them. -/
theorem agree_of_host_side_eq {st st' : Status} {acts acts' : List HostAction} {rs rs' : List Reply}
    (hst : st = st') (hacts : acts = acts') (hrs : rs = rs') :
    AgreeOnWritten { s with status := st, script := acts, replies := rs }
      { t with status := st', script := acts', replies := rs' } := by
  obtain ⟨hwritten, -, -, -, hparams, hwords⟩ := (agreeOnWritten_iff s t).mp h
  refine (agreeOnWritten_iff _ _).mpr ⟨hwritten, hst, hacts, hrs, hparams, fun x hx => ?_⟩
  cases x with
  | status => exact congrArg statusWord hst
  | sMag i j => exact hwords (.sMag i j) hx
  | sNeg i => exact hwords (.sNeg i) hx
  | uLimb i j => exact hwords (.uLimb i j) hx
  | tWord i => exact hwords (.tWord i) hx
  | ord => exact hwords .ord hx
  | cmd => rfl
  | reserved => rfl

theorem agree_raise (e : AuError) : AgreeOnWritten (s.raise e) (t.raise e) := by
  obtain ⟨-, -, hscript, hreplies, -⟩ := id h
  exact agree_of_host_side_eq h rfl hscript hreplies

theorem agree_beginCommand : AgreeOnWritten s.beginCommand t.beginCommand := by
  obtain ⟨-, hstatus, hscript, hreplies, -⟩ := id h
  exact agree_of_host_side_eq h (by rw [hstatus]) hscript hreplies

theorem agree_endCommand : AgreeOnWritten s.endCommand t.endCommand := by
  obtain ⟨-, hstatus, hscript, hreplies, -⟩ := id h
  exact agree_of_host_side_eq h (by rw [hstatus]) hscript hreplies

theorem agree_withScript (acts : List HostAction) : AgreeOnWritten (s.withScript acts) (t.withScript acts) := by
  obtain ⟨-, hstatus, -, hreplies, -⟩ := id h
  exact agree_of_host_side_eq h hstatus rfl hreplies

theorem agree_reply {r r' : Reply} (hr : r = r') : AgreeOnWritten (s.reply r) (t.reply r') := by
  obtain ⟨-, hstatus, hscript, hreplies, -⟩ := id h
  exact agree_of_host_side_eq h hstatus hscript (by rw [hreplies, hr])

/-- Reset gives both states the same registers. -/
theorem agree_resetUnit : AgreeOnWritten s.resetUnit t.resetUnit := by
  obtain ⟨-, -, hscript, hreplies, hparams, -⟩ := h
  refine (agreeOnWritten_iff _ _).mpr ⟨rfl, rfl, hscript, hreplies, hparams, fun x _ => ?_⟩
  cases x <;> rfl

/-- A write of some words, which both states then read alike, with every other word as it was. -/
theorem agree_of_write (own : WindowWord → Bool) {s' t' : State} (hwritten : s'.written = t'.written)
    (hs : Framed own s s') (ht : Framed own t t') (hstatus : s'.status = t'.status)
    (hown : ∀ x, own x = true → s'.readWord x = t'.readWord x) : AgreeOnWritten s' t' := by
  obtain ⟨-, -, hscript, hreplies, hparams, hwords⟩ := (agreeOnWritten_iff s t).mp h
  obtain ⟨hscripts, hrepliess, hparamss, hwrittens, hreads, -⟩ := hs
  obtain ⟨hscriptt, hrepliest, hparamst, -, hreadt, -⟩ := ht
  refine (agreeOnWritten_iff _ _).mpr ⟨hwritten, hstatus, ?_, ?_, ?_, fun x hx => ?_⟩
  · rw [hscripts, hscriptt, hscript]
  · rw [hrepliess, hrepliest, hreplies]
  · rw [hparamss, hparamst, hparams]
  · by_cases hxs : x = .status
    · subst hxs
      exact congrArg statusWord hstatus
    · cases ho : own x with
      | true => exact hown x ho
      | false =>
        rw [hreads x ho hxs, hreadt x ho hxs]
        exact hwords x (hwrittens x ho ▸ hx)

theorem agree_writeS (d : SIdx) (v : I256) : AgreeOnWritten (s.writeS d v) (t.writeS d v) := by
  obtain ⟨hwritten, hstatus, -⟩ := id h
  refine agree_of_write h (ofS d) ?_ (framed_writeS s d v) (framed_writeS t d v) hstatus fun x hx => ?_
  · rw [State.writeS_written, State.writeS_written, hwritten]
  · cases x with
    | sMag i j =>
      obtain rfl := beq_iff_eq.mp hx
      simp [State.readWord]
    | sNeg i =>
      obtain rfl := beq_iff_eq.mp hx
      simp [State.readWord]
    | _ => cases hx

theorem agree_writeU (d : UIdx) (v : U256) : AgreeOnWritten (s.writeU d v) (t.writeU d v) := by
  obtain ⟨hwritten, hstatus, -⟩ := id h
  refine agree_of_write h (ofU d) ?_ (framed_writeU s d v) (framed_writeU t d v) hstatus fun x hx => ?_
  · rw [State.writeU_written, State.writeU_written, hwritten]
  · cases x with
    | uLimb i j =>
      obtain rfl := beq_iff_eq.mp hx
      simp [State.readWord]
    | _ => cases hx

theorem agree_writeT (d : TIdx) (v : I64) : AgreeOnWritten (s.writeT d v) (t.writeT d v) := by
  obtain ⟨hwritten, hstatus, -⟩ := id h
  refine agree_of_write h _ ?_ (framed_writeT s d v) (framed_writeT t d v) hstatus fun x hx => ?_
  · rw [State.writeT_written, State.writeT_written, hwritten]
  · obtain rfl := beq_iff_eq.mp hx
    simp [State.readWord]

theorem agree_writeOrd (o : Order) : AgreeOnWritten (s.writeOrd o) (t.writeOrd o) := by
  obtain ⟨hwritten, hstatus, -⟩ := id h
  refine agree_of_write h _ ?_ (framed_writeOrd s o) (framed_writeOrd t o) hstatus fun x hx => ?_
  · rw [State.writeOrd_written, State.writeOrd_written, hwritten]
  · obtain rfl := beq_iff_eq.mp hx
    rfl

/-- A host write keeps two states alike where they then read its word alike. -/
theorem agree_of_stored (x : WindowWord) (w : Word64)
    (hself : (s.storeWord x w).readWord x = (t.storeWord x w).readWord x) :
    AgreeOnWritten (s.storeWord x w) (t.storeWord x w) := by
  obtain ⟨hwritten, hstatus, hscript, hreplies, hparams, hwords⟩ := (agreeOnWritten_iff s t).mp h
  have hwritten' : (s.storeWord x w).written = (t.storeWord x w).written := by
    cases x <;> simp [State.storeWord, hwritten]
  refine (agreeOnWritten_iff _ _).mpr ⟨hwritten', ?_, ?_, ?_, ?_, fun y hy => ?_⟩
  · rw [storeWord_status, storeWord_status, hstatus]
  · rw [storeWord_script, storeWord_script, hscript]
  · rw [storeWord_replies, storeWord_replies, hreplies]
  · rw [storeWord_params, storeWord_params, hparams]
  · obtain rfl | hne := eq_or_ne y x
    · exact hself
    · rw [wordWritten_storeWord_ne s x y w hne] at hy
      rw [readWord_storeWord_ne s x y w hne, readWord_storeWord_ne t x y w hne]
      exact hwords y hy

/-- A host write gives its word one reading, whatever the word held; ignored writes change nothing. -/
theorem agree_storeWord (x : WindowWord) (w : Word64) : AgreeOnWritten (s.storeWord x w) (t.storeWord x w) := by
  cases x with
  | sMag i j => exact agree_of_stored h _ w (by rw [readWord_storeWord_sMag, readWord_storeWord_sMag])
  | sNeg i => exact agree_of_stored h _ w (by rw [readWord_storeWord_sNeg, readWord_storeWord_sNeg])
  | uLimb i j => exact agree_of_stored h _ w (by rw [readWord_storeWord_uLimb, readWord_storeWord_uLimb])
  | tWord i => exact agree_of_stored h _ w (by rw [readWord_storeWord_tWord, readWord_storeWord_tWord])
  | cmd => exact h
  | status => exact h
  | ord => exact h
  | reserved => exact h

end

/-! ## Commands and steps from two states alike -/

/-- Both results are next states, alike but for unwritten words. -/
def AgreeEnds (x y : Result) : Prop := ∃ s t, x = .next s ∧ y = .next t ∧ AgreeOnWritten s t

section
variable {s t : State} (h : AgreeOnWritten s t)
include h

theorem finishS_agree (d : SIdx) (r : Except AuError I256) : AgreeEnds (finishS d r s) (finishS d r t) := by
  cases r with
  | ok v => exact ⟨_, _, rfl, rfl, agree_writeS h d v⟩
  | error e => exact ⟨_, _, rfl, rfl, agree_raise h e⟩

theorem finishU_agree (d : UIdx) (r : Except AuError U256) : AgreeEnds (finishU d r s) (finishU d r t) := by
  cases r with
  | ok v => exact ⟨_, _, rfl, rfl, agree_writeU h d v⟩
  | error e => exact ⟨_, _, rfl, rfl, agree_raise h e⟩

theorem finishT_agree (d : TIdx) (r : Except AuError I64) : AgreeEnds (finishT d r s) (finishT d r t) := by
  cases r with
  | ok v => exact ⟨_, _, rfl, rfl, agree_writeT h d v⟩
  | error e => exact ⟨_, _, rfl, rfl, agree_raise h e⟩

theorem readS_pair_eq_of_agree {a b : SIdx} (hab : (s.writtenS a && s.writtenS b) = true) :
    s.readS a = t.readS a ∧ s.readS b = t.readS b := by
  obtain ⟨ha, hb⟩ := (Bool.and_eq_true_iff).mp hab
  exact ⟨readS_eq_of_agree h ha, readS_eq_of_agree h hb⟩

/-- A command whose sources are written computes one value from both states. -/
theorem exec_agree (i : Instr) (hi : s.sourcesWritten i = true) : AgreeEnds (exec i s) (exec i t) := by
  obtain ⟨-, -, -, -, hparams, -⟩ := id h
  cases i with
  | cmp a b =>
    obtain ⟨ha, hb⟩ := readS_pair_eq_of_agree h hi
    rw [exec_cmp, exec_cmp, ha, hb]
    exact ⟨_, _, rfl, rfl, agree_writeOrd h _⟩
  | acmp a b =>
    obtain ⟨ha, hb⟩ := readS_pair_eq_of_agree h hi
    rw [exec_acmp, exec_acmp, ha, hb]
    exact ⟨_, _, rfl, rfl, agree_writeOrd h _⟩
  | add d a b =>
    obtain ⟨ha, hb⟩ := readS_pair_eq_of_agree h hi
    rw [exec_add, exec_add, ha, hb]
    exact finishS_agree h d _
  | sub d a b =>
    obtain ⟨ha, hb⟩ := readS_pair_eq_of_agree h hi
    rw [exec_sub, exec_sub, ha, hb]
    exact finishS_agree h d _
  | mul d a b =>
    obtain ⟨ha, hb⟩ := readS_pair_eq_of_agree h hi
    rw [exec_mul, exec_mul, ha, hb]
    exact finishS_agree h d _
  | or d a b =>
    obtain ⟨ha, hb⟩ := readS_pair_eq_of_agree h hi
    rw [exec_or, exec_or, ha, hb]
    exact finishS_agree h d _
  | shr d a n =>
    rw [exec_shr, exec_shr, readS_eq_of_agree h hi]
    exact finishS_agree h d _
  | compl d a =>
    rw [exec_compl, exec_compl, readS_eq_of_agree h hi]
    exact finishS_agree h d _
  | zero d =>
    rw [exec_zero, exec_zero]
    exact finishS_agree h d _
  | fromu d a =>
    rw [exec_fromu, exec_fromu, readU_eq_of_agree h hi]
    exact finishS_agree h d _
  | fromun d a =>
    rw [exec_fromun, exec_fromun, readU_eq_of_agree h hi]
    exact finishS_agree h d _
  | fromu128 d a n =>
    rw [exec_fromu128, exec_fromu128, readU_eq_of_agree h hi]
    exact finishS_agree h d _
  | asi64 d a =>
    rw [exec_asi64, exec_asi64, readS_eq_of_agree h hi]
    exact finishT_agree h d _
  | sqrtp d a =>
    rw [exec_sqrtp, exec_sqrtp, readT_eq_of_agree h hi, hparams]
    exact finishU_agree h d _
  | logsp d a =>
    rw [exec_logsp, exec_logsp, readU_eq_of_agree h hi, hparams]
    exact finishT_agree h d _

end

/-! ## The guard -/

/-- The guard looks at written-ness, STATUS and the parameters alone. -/
theorem actionFault_congr {s t : State} (hw : s.written = t.written) (hs : s.status = t.status)
    (hp : s.params = t.params) (act : HostAction) : actionFault act s = actionFault act t := by
  have hread (a : WordAddr) : readFault a s = readFault a t := by
    rw [readFault, readFault, wordWritten_congr hw]
  have hwrite (a : WordAddr) (w : Word64) : writeFault a w s = writeFault a w t := by
    simp only [writeFault, hs, sourcesWritten_congr hw]
  cases act <;> simp only [actionFault, hread, hwrite, hp]

theorem writeFault_of_decode (s : State) (a : WordAddr) (w : Word64) (i : Instr) (ha : windowWord a = .cmd)
    (hf : s.status.fault = false) (hd : decode w = .ok i) :
    writeFault a w s = if s.sourcesWritten i then none else some .unwrittenSource := by
  rw [writeFault, if_pos ⟨ha, hf⟩, hd]

theorem modelFault_cons (s : State) (act : HostAction) (rest : List HostAction) (h : s.script = act :: rest) :
    modelFault s = actionFault act s := by
  rw [modelFault, h]

theorem checkedStep_of_modelFault_some (s : State) (f : Fault) (h : modelFault s = some f) :
    checkedStep s = .fault f := by
  rw [checkedStep, h]

theorem checkedStep_of_modelFault_none (s : State) (h : modelFault s = none) : checkedStep s = step s := by
  rw [checkedStep, h]

theorem wordWritten_of_readFault_none {s : State} {a : WordAddr} (h : readFault a s = none) :
    s.wordWritten (windowWord a) = true := by
  rw [readFault] at h
  split_ifs at h with hw
  exact hw

section
variable {s t : State} (h : AgreeOnWritten s t)
include h

theorem commandCycle_agree (a : WordAddr) (w : Word64) (ha : windowWord a = .cmd)
    (hg : writeFault a w s = none) : AgreeEnds (commandCycle w s) (commandCycle w t) := by
  obtain ⟨-, hstatus, -⟩ := id h
  cases hf : s.status.fault with
  | true =>
    rw [commandCycle_of_faulted w s hf, commandCycle_of_faulted w t (hstatus ▸ hf)]
    exact ⟨s, t, rfl, rfl, h⟩
  | false =>
    cases hd : decode w with
    | error e =>
      rw [commandCycle, commandCycle, ← hstatus, hf, hd]
      exact ⟨_, _, rfl, rfl, agree_raise h .illegalCommand⟩
    | ok i =>
      have hi : s.sourcesWritten i = true := by
        rw [writeFault_of_decode s a w i ha hf hd] at hg
        split_ifs at hg with hi
        exact hi
      obtain ⟨u, v, hu, hv, huv⟩ := exec_agree (agree_beginCommand h) i hi
      rw [commandCycle_of_decode w s i hf hd, commandCycle_of_decode w t i (hstatus ▸ hf) hd, hu, hv]
      exact ⟨_, _, rfl, rfl, agree_endCommand huv⟩

theorem writeAccess_agree (a : WordAddr) (w : Word64) (hg : writeFault a w s = none) :
    AgreeEnds (writeAccess a w s) (writeAccess a w t) := by
  by_cases ha : windowWord a = .cmd
  · rw [writeAccess_of_cmd a w s ha, writeAccess_of_cmd a w t ha]
    exact commandCycle_agree h a w ha hg
  · rw [writeAccess_of_ne_cmd a w s ha, writeAccess_of_ne_cmd a w t ha]
    exact ⟨_, _, rfl, rfl, agree_storeWord h (windowWord a) w⟩

theorem readWindow_eq_of_agree {a : WordAddr} (hg : readFault a s = none) : s.readWindow a = t.readWindow a :=
  readWord_eq_of_agree h (wordWritten_of_readFault_none hg)

/-- An action that meets no model fault takes both states to the same end. -/
theorem performAction_agree (act : HostAction) (hg : actionFault act s = none) :
    AgreeOutcome (performAction act s) (performAction act t) := by
  obtain ⟨-, -, -, -, hparams, -⟩ := id h
  cases act with
  | reset => exact .inl ⟨_, _, rfl, rfl, agree_resetUnit h⟩
  | read a => exact .inl ⟨_, _, rfl, rfl, agree_reply h (by rw [readWindow_eq_of_agree h hg])⟩
  | write a w => exact .inl (writeAccess_agree h a w hg)
  | busRead byteAddr len =>
    simp only [performAction, actionFault, ← hparams] at hg ⊢
    cases hb : bridgeAddr s.params byteAddr len with
    | error r => exact .inr (.inr ⟨r, rfl, rfl⟩)
    | ok a =>
      rw [hb] at hg
      exact .inl ⟨_, _, rfl, rfl, agree_reply h (by rw [readWindow_eq_of_agree h hg])⟩
  | busWrite byteAddr bytes =>
    simp only [performAction, actionFault, ← hparams] at hg ⊢
    cases hb : bridgeAddr s.params byteAddr bytes.length with
    | error r => exact .inr (.inr ⟨r, rfl, rfl⟩)
    | ok a =>
      rw [hb] at hg
      exact .inl (writeAccess_agree h a _ hg)

theorem modelFault_eq_of_agree : modelFault s = modelFault t := by
  obtain ⟨hwritten, hstatus, hscript, -, hparams, -⟩ := h
  simp only [modelFault, hscript, actionFault_congr hwritten hstatus hparams]

/-- A step that meets no model fault takes both states to the same end. -/
theorem step_agree (hg : modelFault s = none) : AgreeOutcome (step s) (step t) := by
  obtain ⟨-, -, hscript, -⟩ := id h
  cases hs : s.script with
  | nil =>
    rw [step_of_script_nil s hs, step_of_script_nil t (hscript ▸ hs)]
    exact .inl ⟨s, t, rfl, rfl, h⟩
  | cons act rest =>
    rw [modelFault_cons s act rest hs] at hg
    have hfault : actionFault act (s.withScript rest) = none :=
      (actionFault_congr rfl rfl rfl act).trans hg
    rw [step, step, nextAction, nextAction, ← hscript, hs]
    exact performAction_agree (agree_withScript h rest) act hfault

theorem checkedStep_agree : AgreeOutcome (checkedStep s) (checkedStep t) := by
  have hfault := modelFault_eq_of_agree h
  cases hg : modelFault s with
  | some f =>
    exact .inr (.inl ⟨f, checkedStep_of_modelFault_some s f hg,
      checkedStep_of_modelFault_some t f (hfault ▸ hg)⟩)
  | none =>
    rw [checkedStep_of_modelFault_none s hg, checkedStep_of_modelFault_none t (hfault ▸ hg)]
    exact step_agree h hg

end

/-! ## The obligations -/

/-- Settles O57: the guard sees no contents, and past it every value read is that of a written word. -/
theorem unwrittenContentsNeverMatter : Obligations.UnwrittenContentsNeverMatter :=
  fun _ _ h => checkedStep_agree h

/-- Settles O56: the sources by the format of each command, and the guard of a command write and of a read. -/
theorem unwrittenReadIsAModelFault : Obligations.UnwrittenReadIsAModelFault := by
  unfold Obligations.UnwrittenReadIsAModelFault
  refine ⟨?_, ?_, ?_, fun _ _ _ => Iff.rfl, fun _ _ => rfl, fun s w rest i hs hf hd => ?_, fun s a rest hs => ?_⟩
  · simp [State.sourcesWritten]
  · simp [State.sourcesWritten]
  · simp [State.sourcesWritten]
  · have hg : modelFault s = if s.sourcesWritten i then none else some .unwrittenSource :=
      (modelFault_cons s _ rest hs).trans (writeFault_of_decode s cmdAddr w i windowWord_cmdAddr hf hd)
    refine ⟨fun hi => checkedStep_of_modelFault_some s _ ?_, fun hi => checkedStep_of_modelFault_none s ?_⟩
    · rw [hg, hi]; rfl
    · rw [hg, hi]; rfl
  · have hg : modelFault s = if s.wordWritten (windowWord a) then none else some .unwrittenWord :=
      modelFault_cons s _ rest hs
    refine ⟨fun hi => checkedStep_of_modelFault_some s _ ?_, fun hi => checkedStep_of_modelFault_none s ?_⟩
    · rw [hg, hi]; rfl
    · rw [hg, hi]; rfl

end Sys2Proof.Machine
end

section
/-! ADD, SUB, MUL and CMP of valid operands as integer arithmetic: each value is the canonical pair of an integer,
or an error where the integer is out of range (41_compare.md, 42_add_sub.md, 43_mul.md). -/

namespace Sys2Proof.Machine

open Sys2Proof.Safety

/-! ## Integers and their pairs -/

/-- A sign and a magnitude make the canonical pair of the integer they stand for. -/
theorem norm_eq_canonical_of_val {neg : Bool} {m : Nat} {z : Int} (hm : m < 2 ^ 256)
    (hz : z = if neg then -(m : Int) else m) : norm ⟨neg, BitVec.ofNat 256 m⟩ = canonical z := by
  have hmag : (BitVec.ofNat 256 m).toNat = m := by rw [BitVec.toNat_ofNat, Nat.mod_eq_of_lt hm]
  rw [norm_eq_canonical, valOf, hmag, hz]

/-- The opposite sign on the same magnitude, as the integer. -/
theorem valOf_flip (a : I256) : valOf ⟨!a.neg, a.mag⟩ = -valOf a := by
  obtain ⟨neg, m⟩ := a
  cases neg <;> simp [valOf]

theorem canonical_zero : canonical 0 = ⟨false, 0#256⟩ := rfl

theorem natAbs_valOf_lt {a : I256} (ha : Valid a) : (valOf a).natAbs < 2 ^ 255 := by
  rw [natAbs_valOf]
  exact ha.1

theorem valOf_negate (a : I256) : valOf (negate a) = -valOf a := by
  have hlt := natAbs_valOf a ▸ a.mag.isLt
  rw [negate, valOf_canonical _ (by rwa [Int.natAbs_neg])]

theorem negate_mag (a : I256) : (negate a).mag.toNat = a.mag.toNat := by
  rw [← natAbs_valOf, valOf_negate, Int.natAbs_neg, natAbs_valOf]

/-! ## ADD and SUB -/

/-- A difference of magnitudes below `2^255`, the larger first, is exact under either sign. -/
theorem withSign_sub_exact {n : Bool} {x y : U256} {z : Int} {e : AuError} (hle : y.toNat ≤ x.toNat)
    (hx : x.toNat < 2 ^ 255) (hz : z = if n then -((x.toNat - y.toNat : Nat) : Int) else (x.toNat - y.toNat : Nat)) :
    withSign n (subWithoutSign x y) = if z.natAbs < 2 ^ 255 then .ok (canonical z) else .error e := by
  have hrange : z.natAbs < 2 ^ 255 := by split_ifs at hz <;> omega
  rw [withSign_subWithoutSign_of_le _ _ _ hle, if_pos (by omega), if_pos hrange,
    norm_eq_canonical_of_val (by omega) hz]

/-- ADD of magnitudes below `2^255` is exact or AdditionOverflow, negative zero among the operands: under signs
that differ the sum cannot leave the range (42_add_sub.md). -/
theorem addValue_exact (a b : I256) (ha : a.mag.toNat < 2 ^ 255) (hb : b.mag.toNat < 2 ^ 255) :
    addValue a b = if (valOf a + valOf b).natAbs < 2 ^ 255 then .ok (canonical (valOf a + valOf b))
      else .error .additionOverflow := by
  by_cases hsign : a.neg = b.neg
  · have habs : (valOf a + valOf b).natAbs = a.mag.toNat + b.mag.toNat := by
      rw [valOf, valOf, hsign]; split_ifs <;> omega
    rw [addValue_of_neg_eq a b hsign, withSign_addWithoutSign, habs]
    refine ite_congr rfl (fun hlt => congrArg _ ?_) fun _ => rfl
    exact norm_eq_canonical_of_val (by omega) (by rw [valOf, valOf, hsign]; split_ifs <;> omega)
  · have hneg : a.neg = !b.neg := Bool.eq_not_of_ne hsign
    obtain hle | hlt := le_or_gt b.mag.toNat a.mag.toNat
    · rw [addValue_of_neg_ne_of_le a b hsign hle]
      exact withSign_sub_exact hle ha (by rw [valOf, valOf, hneg]; cases b.neg <;> simp <;> omega)
    · rw [addValue_of_neg_ne_of_lt a b hsign hlt]
      exact withSign_sub_exact hlt.le hb (by rw [valOf, valOf, hneg]; cases b.neg <;> simp <;> omega)

/-- SUB is ADD of the flipped operand, so it is exact or AdditionOverflow too. -/
theorem subValue_exact (a b : I256) (ha : a.mag.toNat < 2 ^ 255) (hb : b.mag.toNat < 2 ^ 255) :
    subValue a b = if (valOf a - valOf b).natAbs < 2 ^ 255 then .ok (canonical (valOf a - valOf b))
      else .error .additionOverflow := by
  rw [subValue_eq_addValue_flip, addValue_exact a ⟨!b.neg, b.mag⟩ ha hb, valOf_flip, Int.sub_eq_add_neg]

theorem withSign_sub_of_eq (n n' : Bool) (x y : U256) (h : x.toNat = y.toNat) :
    withSign n (subWithoutSign x y) = withSign n' (subWithoutSign y x) := by
  obtain rfl := BitVec.eq_of_toNat_eq h
  rw [withSign_subWithoutSign_of_le _ _ _ le_rfl, withSign_subWithoutSign_of_le _ _ _ le_rfl, Nat.sub_self]
  rfl

/-- ADD commutes on every operand: at equal magnitudes under signs that differ the zero is normalised. -/
theorem addValue_comm (a b : I256) : addValue a b = addValue b a := by
  by_cases hsign : a.neg = b.neg
  · rw [addValue_of_neg_eq a b hsign, addValue_of_neg_eq b a hsign.symm, withSign_addWithoutSign,
      withSign_addWithoutSign, hsign, Nat.add_comm]
  · obtain hlt | heq | hgt := lt_trichotomy a.mag.toNat b.mag.toNat
    · rw [addValue_of_neg_ne_of_lt a b hsign hlt, addValue_of_neg_ne_of_le b a (Ne.symm hsign) hlt.le]
    · rw [addValue_of_neg_ne_of_le a b hsign heq.ge, addValue_of_neg_ne_of_le b a (Ne.symm hsign) heq.le]
      exact withSign_sub_of_eq _ _ _ _ heq
    · rw [addValue_of_neg_ne_of_le a b hsign hgt.le, addValue_of_neg_ne_of_lt b a (Ne.symm hsign) hgt]

/-! ## MUL -/

theorem mulValue_exact (a b : I256) :
    mulValue a b = if (valOf a * valOf b).natAbs < 2 ^ 255 then .ok (canonical (valOf a * valOf b))
      else .error .multiplicationOverflow := by
  have habs : (valOf a * valOf b).natAbs = a.mag.toNat * b.mag.toNat := by
    rw [Int.natAbs_mul, natAbs_valOf, natAbs_valOf]
  rw [mulValue_eq_ite, habs]
  refine ite_congr rfl (fun hlt => congrArg _ (norm_eq_canonical_of_val (by omega) ?_)) fun _ => rfl
  rw [valOf, valOf]
  cases a.neg <;> cases b.neg <;> simp

theorem mulValue_comm (a b : I256) : mulValue a b = mulValue b a := by
  rw [mulValue_exact, mulValue_exact, Int.mul_comm]

/-! ## CMP -/

theorem intOrder_natCast (x y : Nat) : intOrder x y = natOrder x y := by
  simp [intOrder, natOrder]

theorem intOrder_neg (x y : Int) : intOrder (-x) (-y) = intOrder y x := by
  simp [intOrder]

/-- The sign of a valid value is the sign of its integer: zero is not negative (10_state.md R37). -/
theorem neg_eq_decide_valOf_neg (a : I256) (ha : Valid a) : a.neg = decide (valOf a < 0) := by
  conv_lhs => rw [← canonical_valOf a ha]
  rfl

/-- CMP of valid operands is the order of their integers: a negative value is below every other. -/
theorem signedOrder_eq_intOrder (a b : I256) (ha : Valid a) (hb : Valid b) :
    signedOrder a b = intOrder (valOf a) (valOf b) := by
  have hna := neg_eq_decide_valOf_neg a ha
  have hnb := neg_eq_decide_valOf_neg b hb
  cases hsa : a.neg <;> cases hsb : b.neg
  · rw [signedOrder_of_nonneg a b hsa hsb, ← intOrder_natCast, valOf, valOf, hsa, hsb]; rfl
  · have hlt : valOf b < valOf a := by
      rw [hsa, eq_comm, decide_eq_false_iff_not] at hna
      rw [hsb, eq_comm, decide_eq_true_iff] at hnb
      omega
    rw [signedOrder_of_nonneg_of_neg a b hsa hsb, intOrder, if_neg hlt.not_gt, if_pos hlt]
  · have hlt : valOf a < valOf b := by
      rw [hsa, eq_comm, decide_eq_true_iff] at hna
      rw [hsb, eq_comm, decide_eq_false_iff_not] at hnb
      omega
    rw [signedOrder_of_neg_of_nonneg a b hsa hsb, intOrder, if_pos hlt]
  · rw [signedOrder_of_neg a b hsa hsb, ← intOrder_natCast, ← intOrder_neg, valOf, valOf, hsa, hsb]; rfl

theorem intOrder_eq_equal_iff (x y : Int) : intOrder x y = .equal ↔ x = y := by
  rw [intOrder]
  split_ifs <;> simp <;> omega

theorem intOrder_eq_less_iff (x y : Int) : intOrder x y = .less ↔ x < y := by
  rw [intOrder]
  split_ifs <;> simp <;> omega

theorem valOf_inj_of_valid {a b : I256} (ha : Valid a) (hb : Valid b) : valOf a = valOf b ↔ a = b := by
  refine ⟨fun h => ?_, congrArg valOf⟩
  rw [← canonical_valOf a ha, h, canonical_valOf b hb]

/-- CMP with its operands exchanged is reversed, on every operand. -/
theorem signedOrder_eq_reverse (a b : I256) : signedOrder a b = reverseOrder (signedOrder b a) := by
  cases hsa : a.neg <;> cases hsb : b.neg
  · rw [signedOrder_of_nonneg a b hsa hsb, signedOrder_of_nonneg b a hsb hsa, reverseOrder_natOrder]
  · rw [signedOrder_of_nonneg_of_neg a b hsa hsb, signedOrder_of_neg_of_nonneg b a hsb hsa]; rfl
  · rw [signedOrder_of_neg_of_nonneg a b hsa hsb, signedOrder_of_nonneg_of_neg b a hsb hsa]; rfl
  · rw [signedOrder_of_neg a b hsa hsb, signedOrder_of_neg b a hsb hsa, reverseOrder_natOrder]

/-! ## The obligations -/

/-- Settles O19: CMP of valid operands is the order of their integers, and the integer names the operand. -/
theorem cmpOfValidOperandsIsTheIntegerOrder : Obligations.CmpOfValidOperandsIsTheIntegerOrder := by
  unfold Obligations.CmpOfValidOperandsIsTheIntegerOrder
  refine ⟨fun s a b ha hb => ?_, fun a b ha hb => ?_, signedOrder_eq_reverse, fun a b c ha hb hc => ?_⟩
  · rw [exec_cmp, signedOrder_eq_intOrder _ _ ha hb]
  · rw [signedOrder_eq_intOrder a b ha hb, intOrder_eq_equal_iff, valOf_inj_of_valid ha hb]
  · rw [signedOrder_eq_intOrder a b ha hb, signedOrder_eq_intOrder b c hb hc, signedOrder_eq_intOrder a c ha hc,
      intOrder_eq_less_iff, intOrder_eq_less_iff, intOrder_eq_less_iff]
    exact lt_trans

/-- Settles O21: ADD's value is exact below `2^255` in magnitude and its one error from there on. -/
theorem addOfValidOperandsIsExact : Obligations.AddOfValidOperandsIsExact := by
  unfold Obligations.AddOfValidOperandsIsExact
  intro s d a b ha hb
  rw [exec_add]
  exact finishS_of_eq_ite_lt (addValue_exact _ _ ha.1 hb.1) d s

/-- Settles O23: SUB's value is exact below `2^255` in magnitude and its one error from there on. -/
theorem subOfValidOperandsIsExact : Obligations.SubOfValidOperandsIsExact := by
  unfold Obligations.SubOfValidOperandsIsExact
  intro s d a b ha hb
  rw [exec_sub]
  exact finishS_of_eq_ite_lt (subValue_exact _ _ ha.1 hb.1) d s

/-- Settles O24: commutation by the cases of ADD; the other laws by the exact values of both sides. -/
theorem addAndSubLaws : Obligations.AddAndSubLaws := by
  unfold Obligations.AddAndSubLaws
  refine ⟨addValue_comm, fun a b ha hb => ?_, fun a ha => ⟨?_, ?_⟩⟩
  · have hneg : (negate b).mag.toNat < 2 ^ 255 := by rw [negate_mag]; exact hb.1
    rw [subValue_exact a b ha.1 hb.1, addValue_exact a (negate b) ha.1 hneg, valOf_negate, Int.sub_eq_add_neg]
  · rw [addValue_exact a (canonical 0) ha.1 (by decide), valOf_canonical 0 (by decide), Int.add_zero,
      if_pos (natAbs_valOf_lt ha), canonical_valOf a ha]
  · rw [subValue_exact a (canonical 0) ha.1 (by decide), valOf_canonical 0 (by decide), Int.sub_zero,
      if_pos (natAbs_valOf_lt ha), canonical_valOf a ha]

/-- Settles O26: MUL's value is the exact product on every operand, so each law is one of the integers'. -/
theorem mulLaws : Obligations.MulLaws := by
  unfold Obligations.MulLaws
  refine ⟨fun a b _ _ => ⟨fun h => ?_, fun h => ?_⟩, mulValue_comm, fun a ha => ⟨?_, ?_, ?_⟩⟩
  · rw [mulValue_exact, if_pos h]
  · rw [mulValue_exact, if_neg h.not_gt]
  · rw [mulValue_exact, valOf_canonical 1 (by decide), Int.mul_one, if_pos (natAbs_valOf_lt ha),
      canonical_valOf a ha]
  · rw [mulValue_exact, valOf_canonical 0 (by decide), Int.mul_zero]; rfl
  · rw [mulValue_exact, valOf_canonical (-1) (by decide), Int.mul_neg_one,
      if_pos (by rw [Int.natAbs_neg]; exact natAbs_valOf_lt ha)]; rfl

end Sys2Proof.Machine
end

section
/-! SHR, OR and COMPL over the patterns of integers (44_shift_or_complement.md): SHR is floor division, OR is the
OR of the patterns, and COMPL is its own inverse. -/

namespace Sys2Proof.Machine

open Sys2Proof.Safety

/-! ## Two's-complement patterns -/

theorem patternOf_nonneg (m : U256) : patternOf ⟨false, m⟩ = m := rfl

theorem patternOf_neg_toNat (m : U256) (hm : m.toNat ≠ 0) :
    (patternOf ⟨true, m⟩).toNat = 2 ^ 256 - m.toNat := by
  have hlt : 2 ^ 256 - m.toNat < 2 ^ 256 := by omega
  exact (BitVec.toNat_ofNat ..).trans (Nat.mod_eq_of_lt hlt)

/-- The pattern of any operand is that of its integer (00_scope.md R10). -/
theorem ofInt_valOf (a : I256) : BitVec.ofInt 256 (valOf a) = patternOf a := by
  obtain ⟨neg, m⟩ := a
  have hpattern : patternOf ⟨neg, m⟩ = (tc ⟨neg, m⟩).mag := by rw [tc_eq_patternOf]
  rw [hpattern, tc_eq]
  cases neg <;> simp [valOf, BitVec.ofInt_neg]

/-- `tc` turns a pattern into the pair that has it. -/
theorem patternOf_tc (a : I256) : patternOf (tc a) = a.mag := by
  have hpair : tc (tc a) = ⟨(tc a).neg, patternOf (tc a)⟩ := tc_eq_patternOf (tc a)
  rw [tc_tc] at hpair
  exact (congrArg I256.mag hpair).symm

/-! ## SHR -/

/-- A negative value divided and rounded down, from its pattern (44_shift_or_complement.md R163). -/
theorem neg_ediv_two_pow_eq (m n : Nat) (hm : m ≤ 2 ^ 256) (hn : n ≤ 256) :
    -(m : Int) / 2 ^ n = ((2 ^ 256 - m) / 2 ^ n : Nat) - 2 ^ (256 - n) := by
  have hpow : (2 : Int) ^ 256 = 2 ^ n * 2 ^ (256 - n) := by rw [← pow_add, Nat.add_sub_cancel' hn]
  have hcast : (((2 ^ 256 - m) / 2 ^ n : Nat) : Int) = (-(m : Int) + 2 ^ n * 2 ^ (256 - n)) / 2 ^ n := by
    rw [← hpow, Int.natCast_ediv, Nat.cast_sub hm]
    push_cast
    rw [Int.sub_eq_add_neg, Int.add_comm]
  rw [hcast, Int.add_mul_ediv_left _ _ (by positivity), Int.add_sub_cancel]

/-- SHR of a valid value divides and rounds down: the fill keeps a negative pattern negative
(44_shift_or_complement.md R163). -/
theorem shrValue_eq_floor (a : I256) (n : Nat) (hn : n < 256) (ha : Valid a) :
    shrValue a n = canonical (valOf a / 2 ^ n) := by
  obtain ⟨neg, m⟩ := a
  obtain ⟨hm, hzero⟩ := ha
  cases neg with
  | false =>
    rw [shrValue_of_nonneg _ n hn rfl, patternOf_nonneg]
    exact norm_eq_canonical_of_val ((Nat.div_le_self _ _).trans_lt m.isLt) (by simp [valOf])
  | true =>
    have hm0 : m.toNat ≠ 0 := fun h => by simpa using hzero ((mag_eq_zero_iff m).mpr h)
    have hlow : (2 ^ 256 - m.toNat) / 2 ^ n < 2 ^ (256 - n) := by
      rw [Nat.div_lt_iff_lt_mul (by positivity), ← pow_add, Nat.sub_add_cancel hn.le]
      omega
    have hfill : (2 ^ n - 1) * 2 ^ (256 - n) = 2 ^ 256 - 2 ^ (256 - n) := by
      rw [Nat.sub_one_mul, ← pow_add, Nat.add_sub_cancel' hn.le]
    have hle : 2 ^ (256 - n) ≤ 2 ^ 256 := Nat.pow_le_pow_right two_pos (Nat.sub_le 256 n)
    have hval : valOf ⟨true, m⟩ / 2 ^ n = -((2 ^ (256 - n) - (2 ^ 256 - m.toNat) / 2 ^ n : Nat) : Int) := by
      rw [Nat.cast_sub hlow.le, Nat.cast_pow, Nat.cast_two, neg_sub]
      exact neg_ediv_two_pow_eq m.toNat n m.isLt.le hn.le
    have hmag : 2 ^ 256 - ((2 ^ 256 - m.toNat) / 2 ^ n + (2 ^ 256 - 2 ^ (256 - n))) =
        2 ^ (256 - n) - (2 ^ 256 - m.toNat) / 2 ^ n := by omega
    rw [shrValue_of_neg _ n hn rfl, patternOf_neg_toNat m hm0, hfill, hmag, hval]
    have hle := Int.natAbs_ediv_le_natAbs (valOf ⟨true, m⟩) (2 ^ n)
    rw [hval, Int.natAbs_neg, Int.natAbs_natCast, natAbs_valOf] at hle
    exact norm_eq_canonical_of_val (hle.trans_lt m.isLt) rfl

theorem valOf_shrValue (a : I256) (n : Nat) (hn : n < 256) (ha : Valid a) :
    valOf (shrValue a n) = valOf a / 2 ^ n := by
  have hle := Int.natAbs_ediv_le_natAbs (valOf a) (2 ^ n)
  have hlt := natAbs_valOf_lt ha
  rw [shrValue_eq_floor a n hn ha, valOf_canonical _ (by omega)]

theorem shrValue_valid (a : I256) (n : Nat) (hn : n < 256) (ha : Valid a) : Valid (shrValue a n) := by
  have hle := Int.natAbs_ediv_le_natAbs (valOf a) (2 ^ n)
  have hlt := natAbs_valOf_lt ha
  rw [shrValue_eq_floor a n hn ha]
  exact canonical_valid _ (by omega)

/-! ## OR and COMPL -/

/-- The pattern of OR's result is the OR of the operands' patterns, on every operand. -/
theorem patternOf_valOf_orValue (a b : I256) :
    BitVec.ofInt 256 (valOf (orValue a b)) = patternOf a ||| patternOf b := by
  rw [orValue_eq_norm_tc, valOf_norm, ofInt_valOf, patternOf_tc]

/-- A negative valid value has a pattern above `2^255`. -/
theorem two_pow_255_lt_patternOf {a : I256} (ha : Valid a) (hneg : a.neg = true) :
    2 ^ 255 < (patternOf a).toNat := by
  obtain ⟨neg, m⟩ := a
  obtain rfl : neg = true := hneg
  obtain ⟨hm, hzero⟩ := ha
  have hm0 : m.toNat ≠ 0 := fun h => by simpa using hzero ((mag_eq_zero_iff m).mpr h)
  rw [patternOf_neg_toNat m hm0]
  have hm' : m.toNat < 2 ^ 255 := hm
  omega

/-- OR keeps the invariant: the OR of two patterns below `2^255` stays there, and with one above it, it is
above. -/
theorem orValue_valid (a b : I256) (ha : Valid a) (hb : Valid b) : Valid (orValue a b) := by
  rw [orValue_eq_norm_tc]
  refine norm_valid _ ?_
  cases hneg : (a.neg || b.neg) with
  | false =>
    obtain ⟨hna, hnb⟩ := Bool.or_eq_false_iff.mp hneg
    rw [tc_nonneg, patternOf, patternOf, hna, hnb]
    exact (BitVec.toNat_or ..).trans_lt (Nat.or_lt_two_pow ha.1 hb.1)
  | true =>
    have hor : 2 ^ 255 < (patternOf a ||| patternOf b).toNat := by
      rw [BitVec.toNat_or]
      obtain hna | hnb := Bool.or_eq_true_iff.mp hneg
      · exact (two_pow_255_lt_patternOf ha hna).trans_le Nat.left_le_or
      · exact (two_pow_255_lt_patternOf hb hnb).trans_le Nat.right_le_or
    rw [tc_neg, BitVec.toNat_ofNat]
    omega

/-- OR of an operand with itself is the operand, normalised. -/
theorem orValue_self (a : I256) : orValue a a = norm a := by
  rw [orValue_eq_norm_tc, Bool.or_self, BitVec.or_self, ← tc_eq_patternOf, tc_tc]

theorem norm_of_ne_negativeZero (a : I256) (h : a ≠ ⟨true, 0⟩) : norm a = a := by
  obtain ⟨neg, m⟩ := a
  cases neg with
  | false => exact norm_nonneg m
  | true => exact norm_of_mag_ne_zero _ fun hm => h (congrArg (I256.mk true) hm)

theorem tc_negativeZero : tc ⟨true, 0⟩ = ⟨true, 0⟩ := tc_neg 0

/-- COMPL is the pattern conversion on every operand but negative zero, and the conversion is its own
inverse. -/
theorem complValue_eq_tc (a : I256) (h : a ≠ ⟨true, 0⟩) : complValue a = tc a := by
  refine norm_of_ne_negativeZero (tc a) fun htc => h ?_
  rw [← tc_tc a, htc, tc_negativeZero]

theorem complValue_complValue (a : I256) (h : a ≠ ⟨true, 0⟩) : complValue (complValue a) = a := by
  rw [complValue_eq_tc a h, complValue, tc_tc, norm_of_ne_negativeZero a h]

/-! ## The obligations -/

/-- Settles O28: floor division by `2^n`, which composes as the shifts add up. -/
theorem shrOfValidOperandIsFloorDivision : Obligations.ShrOfValidOperandIsFloorDivision := by
  unfold Obligations.ShrOfValidOperandIsFloorDivision
  refine ⟨fun s d a n ha => ?_, shrValue_valid, fun a ha => ?_, fun a m n hmn ha => ?_⟩
  · rw [exec_shr, finishS_ok, shrValue_eq_floor _ _ n.isLt ha]
  · rw [shrValue_eq_floor a 0 (by decide) ha, pow_zero, Int.ediv_one, canonical_valOf a ha]
  · have hm := shrValue_valid a m (by omega) ha
    rw [shrValue_eq_floor _ n (by omega) hm, valOf_shrValue a m (by omega) ha,
      shrValue_eq_floor a (m + n) hmn ha, Int.ediv_ediv_of_nonneg (by positivity), ← pow_add]

/-- Settles O30: the patterns of the operands and of the result, and the invariant by the signs. -/
theorem orOfValidOperandsIsTwosComplementOr : Obligations.OrOfValidOperandsIsTwosComplementOr := by
  unfold Obligations.OrOfValidOperandsIsTwosComplementOr
  intro a b ha hb
  refine ⟨orValue_valid a b ha hb, ?_⟩
  rw [patternOf_valOf_orValue, ofInt_valOf, ofInt_valOf]

/-- Settles O32: the pattern conversion is its own inverse, and normalisation leaves all but negative zero. -/
theorem complTwiceIsTheIdentity : Obligations.ComplTwiceIsTheIdentity := complValue_complValue

end Sys2Proof.Machine
end

section
/-! What the commands keep of the I256 invariant (10_state.md R37), the conversions between the register files, and
the pseudo-instructions (45_convert.md, 30_encoding.md R90). -/

namespace Sys2Proof.Machine

open Sys2Proof.Safety

/-! ## Valid results -/

/-- A value is valid where it is no error (10_state.md R37). -/
def ValidResult (r : Except AuError I256) : Prop := ∀ v, r = .ok v → Valid v

theorem validResult_ok {v : I256} (h : Valid v) : ValidResult (.ok v) := by
  rintro _ ⟨⟩
  exact h

/-- A value that is the canonical pair of an integer below a bound in magnitude. -/
theorem validResult_ite {z : Int} {e : AuError} :
    ValidResult (if z.natAbs < 2 ^ 255 then .ok (canonical z) else .error e) := by
  split_ifs with h
  · exact validResult_ok (canonical_valid z h)
  · exact nofun

theorem validResult_fromUValue (u : U256) : ValidResult (fromUValue u) := by
  rw [fromUValue_eq_ite]
  split_ifs with h
  · exact validResult_ok ⟨h, fun _ => rfl⟩
  · exact nofun

theorem validResult_fromU128Value (u : U256) (neg : Bool) : ValidResult (fromU128Value u neg) := by
  rw [fromU128Value_eq_ite]
  split_ifs with h
  · exact validResult_ok (norm_valid _ (h.trans (by norm_num)))
  · exact nofun

/-- Every command with an S destination but FROMUN and COMPL ends over a value that is valid where the
operands are. -/
theorem exec_eq_finishS_valid (i : Instr) (d : SIdx) (s : State) (hd : destS i = some d) (hs : AllValid s)
    (hfromun : ∀ d a, i ≠ .fromun d a) (hcompl : ∀ d a, i ≠ .compl d a) :
    ∃ r, exec i s = finishS d r s ∧ ValidResult r := by
  cases i <;> cases hd
  case add a b =>
    refine ⟨_, exec_add d a b s, ?_⟩
    rw [addValue_exact _ _ (hs a).1 (hs b).1]
    exact validResult_ite
  case sub a b =>
    refine ⟨_, exec_sub d a b s, ?_⟩
    rw [subValue_exact _ _ (hs a).1 (hs b).1]
    exact validResult_ite
  case mul a b =>
    refine ⟨_, exec_mul d a b s, ?_⟩
    rw [mulValue_exact]
    exact validResult_ite
  case shr a n => exact ⟨_, exec_shr d a n s, validResult_ok (shrValue_valid _ _ n.isLt (hs a))⟩
  case or a b => exact ⟨_, exec_or d a b s, validResult_ok (orValue_valid _ _ (hs a) (hs b))⟩
  case compl a => exact absurd rfl (hcompl d a)
  case zero => exact ⟨_, exec_zero d s, validResult_ok (by decide)⟩
  case fromu a => exact ⟨_, exec_fromu d a s, validResult_fromUValue _⟩
  case fromun a => exact absurd rfl (hfromun d a)
  case fromu128 a n => exact ⟨_, exec_fromu128 d a n s, validResult_fromU128Value _ _⟩

/-- A valid value written to one register, or an error, keeps every register valid. -/
theorem finishS_keeps_allValid (d : SIdx) (r : Except AuError I256) (s t : State) (hs : AllValid s)
    (hr : ValidResult r) (h : finishS d r s = .next t) : AllValid t := by
  cases r with
  | error e => cases h; exact hs
  | ok v =>
    cases h
    intro k
    rw [State.readS_writeS]
    split_ifs
    · exact hr v rfl
    · exact hs k

theorem exec_keeps_allValid (i : Instr) (s t : State) (h : exec i s = .next t) (hs : AllValid s)
    (hfromun : ∀ d a, i ≠ .fromun d a) (hcompl : ∀ d a, i ≠ .compl d a) : AllValid t := by
  cases hd : destS i with
  | none =>
    intro k
    rw [exec_readS_of_destS_none i s t hd h k]
    exact hs k
  | some d =>
    obtain ⟨r, hr, hvalid⟩ := exec_eq_finishS_valid i d s hd hs hfromun hcompl
    exact finishS_keeps_allValid d r s t hs hvalid (hr ▸ h)

theorem writeS_writeS (s : State) (d : SIdx) (v w : I256) : (s.writeS d v).writeS d w = s.writeS d w := by
  simp [State.writeS]

/-! ## The obligations -/

/-- Settles O12: each value but FROMUN's and COMPL's is valid where the operands are, and a command without an
S destination leaves the S file. -/
theorem commandsKeepTheInvariant : Obligations.CommandsKeepTheInvariant := exec_keeps_allValid

/-- Settles O37: ASI64 is the range check of the value, and FROMU and FROMU128 are checks of the magnitude. -/
theorem conversionLaws : Obligations.ConversionLaws := by
  unfold Obligations.ConversionLaws
  refine ⟨fun u hu => ?_, fun a _ hlo hhi => ?_, fun u neg hu => ?_⟩
  · have hval : valOf ⟨false, u⟩ = u.toNat := rfl
    refine ⟨⟨false, u⟩, BitVec.ofInt 64 (u.toNat : Int), ?_, ?_, ?_⟩
    · rw [fromUValue_eq_ite, if_pos (by omega)]
    · rw [asI64Value_eq_toI64, hval, toI64_ok _ _ (by omega) (by omega)]
    · rw [BitVec.ofInt_natCast, BitVec.toNat_ofNat, Nat.mod_eq_of_lt (by omega)]
  · refine ⟨BitVec.ofInt 64 (valOf a), ?_, ival_ofInt _ hlo hhi⟩
    rw [asI64Value_eq_toI64, toI64_ok _ _ hlo hhi]
  · rw [fromU128Value_eq_ite, if_pos hu, norm_eq_canonical]; rfl

/-- Settles O60: OR with itself normalises, and SUB from zero negates. -/
theorem pseudoInstructionsDoWhatTheyName : Obligations.PseudoInstructionsDoWhatTheyName := by
  unfold Obligations.PseudoInstructionsDoWhatTheyName
  refine ⟨fun s d a => ⟨rfl, ?_⟩, fun s d a hne ha => ⟨if_neg hne, _, exec_zero d s, ?_⟩,
    fun d => if_pos rfl, fun s d => ⟨rfl, exec_zero d s⟩⟩
  · rw [exec_or, finishS_ok, orValue_self]
  · have hlt := natAbs_valOf_lt ha
    have hsub : subValue ⟨false, 0#256⟩ (s.readS a) = .ok (negate (s.readS a)) := by
      rw [← canonical_zero, subValue_exact _ _ (by decide) ha.1, valOf_canonical 0 (by decide), Int.zero_sub,
        if_pos (by rwa [Int.natAbs_neg])]; rfl
    rw [exec_sub, State.readS_writeS, State.readS_writeS, if_pos rfl, if_neg hne, hsub, finishS_ok, writeS_writeS]

end Sys2Proof.Machine
end

section
/-! SQRTP under the reference constants: the accumulator is never 0, so no tick that passes the checks raises
(46_sqrt_price.md R203). -/

namespace Sys2Proof.Machine

open Sys2Proof.Safety

/-! ## Tick 0 -/

theorem sqrtRounds_zero (cs : List U256) (k : Nat) (acc : U256) : sqrtRounds 0 cs k acc = .ok acc := by
  induction cs generalizing k with
  | nil => rfl
  | cons c cs ih => rw [sqrtRounds, Nat.zero_testBit, if_neg Bool.false_ne_true, ih]

/-- Tick 0 reads no constant: its ratio is the largest value over 1.0 in Q128. -/
theorem sqrtPrice_zero (p : Params) : sqrtPrice p 0 = .ok (BitVec.ofNat 256 (2 ^ 96)) := by
  have hzero : ival 0 = 0 := by decide
  have hstart : sqrtStart p 0 = sqrtBaseEven := rfl
  rw [sqrtPrice_of_accepted p 0 (by decide) (.inr (by decide)), sqrtPriceOfMagnitude, hzero, Int.natAbs_zero,
    sqrtRounds_zero, hstart]
  decide +kernel

/-! ## The accumulator from below -/

/-- One multiply round with its bit set. -/
def setRound (acc : Nat) (ck : U256 × Nat) : Nat := acc * ck.1.toNat / 2 ^ 128

/-- With constants below `2 ^ 128` every round shrinks the accumulator and keeps its order, so a magnitude with
all bits set has the least one. -/
theorem foldl_setRound_le_foldl_multiplyRound (n : Nat) (cks : List (U256 × Nat)) (acc acc' : Nat)
    (hcks : ∀ ck ∈ cks, ck.1.toNat < 2 ^ 128) (hacc : acc ≤ acc') :
    cks.foldl setRound acc ≤ cks.foldl (multiplyRound n) acc' := by
  induction cks generalizing acc acc' with
  | nil => exact hacc
  | cons ck cks ih =>
    obtain ⟨hck, hcks⟩ := List.forall_mem_cons.mp hcks
    refine ih _ _ hcks ?_
    have hset : setRound acc ck ≤ acc' * ck.1.toNat / 2 ^ 128 :=
      Nat.div_le_div_right (Nat.mul_le_mul_right _ hacc)
    have hshrink : acc' * ck.1.toNat / 2 ^ 128 ≤ acc' :=
      Nat.div_le_of_le_mul (by rw [Nat.mul_comm]; exact Nat.mul_le_mul_right _ hck.le)
    rw [multiplyRound]
    split_ifs
    · exact hset
    · exact hset.trans hshrink

/-! ## The reference constants -/

theorem sqrtAccumulator_lt (p : Params) (hp : ConstantsInRange p) (n : Nat) : sqrtAccumulator p n < 2 ^ 256 := by
  obtain ⟨acc, -, hacc⟩ := sqrtRounds_magic p hp n
  exact hacc ▸ acc.isLt

theorem ceil32_bounds {x : Nat} (hpos : 0 < x) (hx : x < 2 ^ 256) : 0 < ceil32 x ∧ ceil32 x ≤ 2 ^ 224 := by
  rw [ceil32]
  omega

section
variable (p : Params) (hp : ReferenceConstants p)
include hp

theorem constantsInRange_of_reference : ConstantsInRange p := by
  obtain ⟨hodd, hmagic, hlo, hhi⟩ := hp
  rw [ConstantsInRange, hodd, hmagic, hlo, hhi]
  decide +kernel

/-- The least accumulator, that of a magnitude with all 20 bits set, is not 0. -/
theorem sqrtAccumulator_pos (n : Nat) : 0 < sqrtAccumulator p n := by
  obtain ⟨hodd, hmagic, -, -⟩ := hp
  have hcks : ∀ ck ∈ referenceParams.magic.toList.zipIdx 1, ck.1.toNat < 2 ^ 128 := by decide +kernel
  have hleast : 0 < (referenceParams.magic.toList.zipIdx 1).foldl setRound referenceParams.sqrtBaseOdd.toNat := by
    decide +kernel
  have hstart : referenceParams.sqrtBaseOdd.toNat ≤ (sqrtStart p n).toNat := by
    rw [sqrtStart_toNat, hodd]
    split_ifs
    · exact le_rfl
    · decide
  rw [sqrtAccumulator_eq_foldl, hmagic]
  exact hleast.trans_le (foldl_setRound_le_foldl_multiplyRound n _ _ _ hcks hstart)

/-- Under the reference constants the checks of the tick are SQRTP's only errors (46_sqrt_price.md R203). -/
theorem sqrtPrice_reference (t : I64) (ht : ival t ≠ -2 ^ 63)
    (hwide : p.wideTick = .ignore ∨ (ival t).natAbs < 2 ^ 20) :
    ∃ r, sqrtPrice p t = .ok r ∧ 0 < r.toNat ∧ r.toNat ≤ 2 ^ 224 := by
  have hrange := constantsInRange_of_reference p hp
  have hpos := sqrtAccumulator_pos p hp (ival t).natAbs
  have hlt := sqrtAccumulator_lt p hrange (ival t).natAbs
  have hprice {x : Nat} (hx0 : 0 < x) (hx : x < 2 ^ 256)
      (h : sqrtPriceOfMagnitude p t (ival t).natAbs = .ok (BitVec.ofNat 256 (ceil32 x))) :
      ∃ r, sqrtPrice p t = .ok r ∧ 0 < r.toNat ∧ r.toNat ≤ 2 ^ 224 := by
    obtain ⟨hlow, hhigh⟩ := ceil32_bounds hx0 hx
    refine ⟨_, (sqrtPrice_of_accepted p t ht hwide).trans h, ?_⟩
    rw [BitVec.toNat_ofNat, Nat.mod_eq_of_lt (by omega)]
    exact ⟨hlow, hhigh⟩
  obtain hneg | hnonneg := lt_or_ge (ival t) 0
  · exact hprice hpos hlt (sqrtPriceOfMagnitude_of_neg p hrange t _ hneg)
  · refine hprice (Nat.div_pos (by omega) hpos) ?_
      (sqrtPriceOfMagnitude_of_nonneg_of_pos p hrange t _ hnonneg hpos)
    exact (Nat.div_le_self _ _).trans_lt (by norm_num)

end

/-! ## The obligations -/

/-- Settles O39: tick 0 sets no bit, so its rounds read no constant. -/
theorem sqrtpOfTickZeroIsOne : Obligations.SqrtpOfTickZeroIsOne := by
  unfold Obligations.SqrtpOfTickZeroIsOne
  intro s d a h
  rw [exec_sqrtp, h, sqrtPrice_zero, finishU_ok]

/-- Settles O41: the least accumulator of the reference constants is positive, so the inversion is defined. -/
theorem sqrtpCompletesUnderReferenceConstants : Obligations.SqrtpCompletesUnderReferenceConstants := by
  unfold Obligations.SqrtpCompletesUnderReferenceConstants
  intro s d a hp ht hwide
  obtain ⟨r, hr, hlow, hhigh⟩ := sqrtPrice_reference s.params hp (s.readT a) ht hwide
  refine ⟨r, ?_, hlow, hhigh⟩
  rw [exec_sqrtp, hr, finishU_ok]

end Sys2Proof.Machine
end

section
/-! LOGSP's exponent, its seed and its refinement rounds (47_log_price.md R223 to R225). -/

namespace Sys2Proof.Machine

open Sys2Proof.Safety

/-- The `n` numbers from `lo + n - 1` down to `lo`: the exponents of LOGSP's thresholds, and the offsets of its
rounds. -/
def countdown (lo : Nat) : Nat → List Nat
  | 0 => []
  | n + 1 => (lo + n) :: countdown lo n

/-! ## The exponent -/

/-- A bit set below the set bits of a byte adds its value. -/
theorem or_two_pow_toNat (m : BitVec 8) (k : Nat) (hk : k < 8) (hm : 2 ^ (k + 1) ∣ m.toNat) :
    (m ||| BitVec.ofNat 8 (2 ^ k)).toNat = m.toNat + 2 ^ k := by
  obtain ⟨c, hc⟩ := hm
  have hpow : 2 ^ k < 2 ^ 8 := Nat.pow_lt_pow_right (by decide) hk
  rw [BitVec.toNat_or, BitVec.toNat_ofNat, Nat.mod_eq_of_lt hpow, hc,
    or_below c _ (k + 1) (Nat.pow_lt_pow_right (by decide) k.lt_succ_self)]

theorem log2_div_two_pow_add {x k : Nat} (h : 2 ^ k ≤ x) : Nat.log2 (x / 2 ^ k) + k = Nat.log2 x := by
  have hx : x ≠ 0 := (Nat.two_pow_pos k).trans_le h |>.ne'
  have hk : k ≤ Nat.log 2 x := by rwa [← Nat.log2_eq_log_two, Nat.le_log2 hx]
  rw [Nat.log2_eq_log_two, Nat.log2_eq_log_two, Nat.log_div_base_pow, Nat.sub_add_cancel hk]

/-- The threshold rounds from `2^n` down to `2` move all of the exponent but its last bit out of the value: what
is left of it is below 4 (47_log_price.md R223). -/
theorem msbRounds_countdown (n : Nat) (x : U256) (m : BitVec 8) (hn : n < 8) (hx : x.toNat < 2 ^ 2 ^ (n + 1))
    (hm : 2 ^ (n + 1) ∣ m.toNat) :
    ∃ x' m', msbRounds (countdown 1 n) x m = (x', m') ∧ x'.toNat < 4 ∧ 2 ∣ m'.toNat ∧
      m'.toNat + Nat.log2 x'.toNat = m.toNat + Nat.log2 x.toNat := by
  induction n generalizing x m with
  | zero => exact ⟨x, m, rfl, hx, hm, rfl⟩
  | succ n ih =>
    have hm' : 2 ^ (n + 1) ∣ m.toNat := (Nat.pow_dvd_pow 2 (by omega)).trans hm
    rw [countdown, msbRounds, Nat.add_comm 1 n]
    split_ifs with hthreshold
    · have hge : 2 ^ 2 ^ (n + 1) ≤ x.toNat := Nat.le_of_pred_lt hthreshold
      have hlow : (ushr x (2 ^ (n + 1))).toNat < 2 ^ 2 ^ (n + 1) := by
        rw [ushr_toNat, Nat.div_lt_iff_lt_mul (by positivity), ← pow_add, ← Nat.two_mul, ← pow_succ']
        exact hx
      have hbit := or_two_pow_toNat m (n + 1) hn hm
      obtain ⟨x', m', hr, hx', hm2, hlog⟩ := ih _ _ (by omega) hlow (hbit ▸ Nat.dvd_add hm' dvd_rfl)
      refine ⟨x', m', hr, hx', hm2, ?_⟩
      rw [hlog, hbit, ushr_toNat, ← log2_div_two_pow_add hge]
      omega
    · exact ih x m (by omega) (Nat.lt_of_le_pred (Nat.two_pow_pos _) (not_lt.mp hthreshold)) hm'

theorem stepMsb_toNat (x : U256) : (stepMsb x).toNat = Nat.log2 x.toNat := by
  obtain ⟨x', m', hr, hx', hm', hlog⟩ := msbRounds_countdown 7 x 0#8 (by decide) x.isLt ⟨0, rfl⟩
  have hrounds : msbRounds [7, 6, 5, 4, 3, 2, 1] x 0#8 = (x', m') := hr
  rw [stepMsb, hrounds]
  dsimp only
  rw [BitVec.toNat_zero, Nat.zero_add] at hlog
  split_ifs with h
  · have hlog' : Nat.log2 x'.toNat = 1 := (Nat.log2_eq_iff (by omega)).mpr ⟨h, hx'⟩
    rw [← hlog, hlog']
    exact or_two_pow_toNat m' 0 (by decide) hm'
  · have hlog' : Nat.log2 x'.toNat = 0 := by
      obtain h0 | h1 : x'.toNat = 0 ∨ x'.toNat = 1 := by omega
      · rw [h0]; rfl
      · rw [h1]; rfl
    rw [← hlog, hlog', Nat.add_zero]

/-! ## The seed -/

theorem log2_toNat_lt (x : U256) : Nat.log2 x.toNat < 256 := by
  by_cases h : x.toNat = 0
  · rw [h]; decide
  · exact (Nat.log2_lt h).mpr x.isLt

/-- The logarithm's seed is the exponent less 128, in Q64 (47_log_price.md R224). -/
theorem stepSeed_log (x : U256) (m : BitVec 8) : (stepSeed x m).2 = canonical (((m.toNat : Int) - 128) * 2 ^ 64) := by
  rw [stepSeed]
  split_ifs with h
  · rw [Nat.shiftLeft_eq]
    push_cast [h]
    rfl
  · rw [Nat.shiftLeft_eq]
    push_cast [(not_le.mp h).le]
    congr 1
    ring

theorem stepSeed_value (x : U256) (m : BitVec 8) :
    (stepSeed x m).1.toNat = if 128 ≤ m.toNat then x.toNat / 2 ^ (m.toNat - 127)
      else x.toNat * 2 ^ (127 - m.toNat) % 2 ^ 256 := by
  rw [stepSeed]
  split_ifs
  · exact ushr_toNat ..
  · exact ushl_toNat ..

/-- Between two powers of two, moved to the powers 127 and 128 (47_log_price.md R224). -/
theorem normalised_bounds {x m : Nat} (hlow : 2 ^ m ≤ x) (hhigh : x < 2 ^ (m + 1)) (hm : m < 256) :
    (128 ≤ m → 2 ^ 127 ≤ x / 2 ^ (m - 127) ∧ x / 2 ^ (m - 127) < 2 ^ 128) ∧
      (m < 128 → 2 ^ 127 ≤ x * 2 ^ (127 - m) ∧ x * 2 ^ (127 - m) < 2 ^ 128) := by
  refine ⟨fun h => ⟨?_, ?_⟩, fun h => ⟨?_, ?_⟩⟩
  · rw [Nat.le_div_iff_mul_le (by positivity), ← pow_add, Nat.add_sub_cancel' (by omega)]
    exact hlow
  · rw [Nat.div_lt_iff_lt_mul (by positivity), ← pow_add, show 128 + (m - 127) = m + 1 by omega]
    exact hhigh
  · calc 2 ^ 127 = 2 ^ m * 2 ^ (127 - m) := by rw [← pow_add, Nat.add_sub_cancel' (by omega)]
      _ ≤ x * 2 ^ (127 - m) := Nat.mul_le_mul_right _ hlow
  · calc x * 2 ^ (127 - m) < 2 ^ (m + 1) * 2 ^ (127 - m) := Nat.mul_lt_mul_of_pos_right hhigh (by positivity)
      _ = 2 ^ 128 := by rw [← pow_add]; congr 1; omega

/-- The normalised working value in whole numbers (47_log_price.md R224). -/
def seedValue (x : Nat) : Nat :=
  if 128 ≤ Nat.log2 x then x / 2 ^ (Nat.log2 x - 127) else x * 2 ^ (127 - Nat.log2 x)

theorem seedValue_zero : seedValue 0 = 0 := by decide

theorem seedValue_bounds {x : Nat} (h0 : x ≠ 0) (hx : x < 2 ^ 256) :
    2 ^ 127 ≤ seedValue x ∧ seedValue x < 2 ^ 128 := by
  obtain ⟨hdown, hup⟩ := normalised_bounds (Nat.log2_self_le h0) Nat.lt_log2_self ((Nat.log2_lt h0).mpr hx)
  rw [seedValue]
  split_ifs with h
  · exact hdown h
  · exact hup (not_le.mp h)

theorem seedValue_lt {x : Nat} (hx : x < 2 ^ 256) : seedValue x < 2 ^ 128 := by
  by_cases h0 : x = 0
  · rw [h0, seedValue_zero]; decide
  · exact (seedValue_bounds h0 hx).2

theorem stepSeed_stepMsb_toNat (x : U256) : (stepSeed x (stepMsb x)).1.toNat = seedValue x.toNat := by
  have hlt := seedValue_lt x.isLt
  rw [stepSeed_value, stepMsb_toNat]
  rw [seedValue] at hlt ⊢
  split_ifs at hlt ⊢ with h
  · rfl
  · exact Nat.mod_eq_of_lt (hlt.trans (by norm_num))

theorem stepSeed_stepMsb_log (x : U256) :
    (stepSeed x (stepMsb x)).2 = canonical (((Nat.log2 x.toNat : Int) - 128) * 2 ^ 64) := by
  rw [stepSeed_log, stepMsb_toNat]

/-! ## The rounds -/

/-- A round's square in whole numbers fits, and its bit 128 is the whole of it above bit 127
(47_log_price.md R225). -/
theorem square_bounds {x : Nat} (hx : x < 2 ^ 128) :
    x * x < 2 ^ 256 ∧ x * x / 2 ^ 127 / 2 ^ 128 ≤ 1 ∧
      x * x / 2 ^ 127 / 2 ^ (x * x / 2 ^ 127 / 2 ^ 128) < 2 ^ 128 := by
  have hsq : x * x < 2 ^ 256 := by
    calc x * x < 2 ^ 128 * 2 ^ 128 := Nat.mul_lt_mul'' hx hx
      _ = 2 ^ 256 := by norm_num
  have hy : x * x / 2 ^ 127 / 2 ^ 128 ≤ 1 := by omega
  refine ⟨hsq, hy, ?_⟩
  obtain h0 | h1 := Nat.le_one_iff_eq_zero_or_eq_one.mp hy
  · rw [h0]; omega
  · rw [h1]; omega

/-- A round below `2^128` raises nothing; its outcome in whole numbers (47_log_price.md R225). -/
theorem squareStep_ok (x : U256) (l2 : I256) (off : Nat) (hx : x.toNat < 2 ^ 128) :
    ∃ x' y : U256, squareStep x l2 off = .ok (x', y, orValue l2 (canonical ((y.toNat <<< off : Nat) : Int))) ∧
      x'.toNat = x.toNat * x.toNat / 2 ^ 127 ∧ y.toNat = x'.toNat / 2 ^ 128 ∧
      (wrappedShift (y.toNat / 255) x' y.toNat).toNat = x'.toNat / 2 ^ y.toNat := by
  obtain ⟨hsq, -, -⟩ := square_bounds hx
  have hmul : umul x x = .ok (BitVec.ofNat 256 (x.toNat * x.toNat)) := by rw [umul_eq, if_pos hsq]
  refine ⟨ushr (BitVec.ofNat 256 (x.toNat * x.toNat)) 127,
    ushr (ushr (BitVec.ofNat 256 (x.toNat * x.toNat)) 127) 128, ?_, ?_, ushr_toNat _ _, ?_⟩
  · rw [squareStep, hmul]; rfl
  · rw [ushr_toNat, BitVec.toNat_ofNat, Nat.mod_eq_of_lt hsq]
  · rw [wrappedShift_eq, ushr_toNat]

/-- The logarithm before the round at offset `k - 1`: valid, with its bits below `k` still 0, and room for them
in `[-2^71, 2^71)` (47_log_price.md R224 to R226). -/
def LogAt (k : Nat) (l2 : I256) : Prop :=
  Valid l2 ∧ (2 ^ k : Int) ∣ valOf l2 ∧ -2 ^ 71 ≤ valOf l2 ∧ valOf l2 + 2 ^ k ≤ 2 ^ 71

theorem logAt_canonical {k : Nat} {z : Int} (hdvd : (2 ^ k : Int) ∣ z) (hlo : -2 ^ 71 ≤ z)
    (hhi : z + 2 ^ k ≤ 2 ^ 71) : LogAt k (canonical z) ∧ valOf (canonical z) = z := by
  have hpos : (0 : Int) < 2 ^ k := by positivity
  have hval : valOf (canonical z) = z := valOf_canonical z (by omega)
  refine ⟨⟨canonical_valid z (by omega), ?_, ?_, ?_⟩, hval⟩ <;> rwa [hval]

/-- A round's bit is added to the logarithm: its place is still 0 (47_log_price.md R225). -/
theorem orValue_bit_logAt {l2 : I256} {off y : Nat} (hl : LogAt (off + 1) l2) (hoff : off < 64) (hy : y ≤ 1) :
    LogAt off (orValue l2 (canonical ((y <<< off : Nat) : Int))) ∧
      valOf (orValue l2 (canonical ((y <<< off : Nat) : Int))) = valOf l2 + (y * 2 ^ off : Nat) := by
  obtain ⟨hvalid, hdvd, hlo, hhi⟩ := hl
  have hpow : (2 : Int) ^ (off + 1) = 2 ^ off + 2 ^ off := by rw [pow_succ]; ring
  have hbit : ((y * 2 ^ off : Nat) : Int) ≤ 2 ^ off := by
    exact_mod_cast (Nat.mul_le_mul_right (2 ^ off) hy).trans_eq (Nat.one_mul _)
  have hlt : y * 2 ^ off < 2 ^ (off + 1) := by
    rw [pow_succ']
    exact Nat.mul_lt_mul_of_pos_right (by omega) (by positivity)
  have hdvd' : (2 ^ off : Int) ∣ valOf l2 + (y * 2 ^ off : Nat) := by
    refine dvd_add ((pow_dvd_pow 2 (Nat.le_succ off)).trans hdvd) ?_
    exact ⟨y, by push_cast; ring⟩
  rw [Nat.shiftLeft_eq, orValue_aligned l2 (off + 1) _ hvalid hdvd hlt (by omega)]
  exact logAt_canonical hdvd' (by omega) (by omega)

/-- The rounds at the offsets from `lo + n - 1` down to `lo` add `logBits` of them to the logarithm. -/
theorem stepRounds_countdown (lo n : Nat) (x : U256) (l2 : I256) (hn : lo + n ≤ 64) (hx : x.toNat < 2 ^ 128)
    (hl : LogAt (lo + n) l2) :
    ∃ x' l2', stepRounds (countdown lo n) x l2 = .ok (x', l2') ∧ x'.toNat < 2 ^ 128 ∧ LogAt lo l2' ∧
      ∀ rest, valOf l2' + logBits rest x'.toNat = valOf l2 + logBits (countdown lo n ++ rest) x.toNat := by
  induction n generalizing x l2 with
  | zero => exact ⟨x, l2, rfl, hx, hl, fun _ => rfl⟩
  | succ n ih =>
    obtain ⟨x', y, hstep, hx', hy, hshift⟩ := squareStep_ok x l2 (lo + n) hx
    obtain ⟨-, hy1, hnext⟩ := square_bounds hx
    rw [← hx', ← hy] at hy1 hnext
    obtain ⟨hl', hval⟩ := orValue_bit_logAt (off := lo + n) hl (by omega) hy1
    obtain ⟨x'', l2'', hrest, hx'', hl'', hbits⟩ := ih _ _ (by omega) (hshift ▸ hnext) hl'
    refine ⟨x'', l2'', ?_, hx'', hl'', fun rest => ?_⟩
    · rw [countdown, stepRounds, hstep]
      exact hrest
    · rw [hbits rest, hval, hshift, countdown, List.cons_append, logBits, ← hx', ← hy]
      push_cast
      ring

theorem logAt_seed (x : U256) : LogAt 64 (stepSeed x (stepMsb x)).2 ∧
    valOf (stepSeed x (stepMsb x)).2 = ((Nat.log2 x.toNat : Int) - 128) * 2 ^ 64 := by
  have hlog := log2_toNat_lt x
  rw [stepSeed_stepMsb_log]
  exact logAt_canonical ⟨(Nat.log2 x.toNat : Int) - 128, by ring⟩ (by omega) (by omega)

/-! ## The obligations -/

/-- Settles O42: the threshold rounds leave less than 4 of the value, whose exponent the last test adds. -/
theorem logspExponentIsTheTopBit : Obligations.LogspExponentIsTheTopBit := stepMsb_toNat

/-- Settles O43: the exponent bounds the value between two powers of two, which the shift moves. -/
theorem logspSeedIsNormalised : Obligations.LogspSeedIsNormalised := by
  unfold Obligations.LogspSeedIsNormalised
  intro x
  rw [← BitVec.toNat_inj (x := (stepSeed x (stepMsb x)).1), stepSeed_stepMsb_toNat]
  refine ⟨fun h0 => ?_, fun h0 => ?_, (logAt_seed x).2⟩
  · exact seedValue_bounds (mt (mag_eq_zero_iff x).mpr h0) x.isLt
  · subst h0; exact seedValue_zero

/-- Settles O44: the square of a value below `2^128` fits, and its bit 128 decides on the halving. -/
theorem logspRoundExtractsOneBit : Obligations.LogspRoundExtractsOneBit := by
  unfold Obligations.LogspRoundExtractsOneBit
  intro x l2 off hx
  obtain ⟨x', y, hstep, hx', hy, hshift⟩ := squareStep_ok x l2 off hx
  obtain ⟨-, hy1, hnext⟩ := square_bounds hx
  rw [← hx', ← hy] at hy1 hnext
  exact ⟨x', y, hstep, by rw [hx', pow_two], hy, hy1, hshift ▸ hnext⟩

end Sys2Proof.Machine
end

section
/-! LOGSP's logarithm and bounds in whole numbers, and its tick under the reference constants
(47_log_price.md R222 to R228). -/

namespace Sys2Proof.Machine

open Sys2Proof.Safety

/-! ## The logarithm -/

theorem roundOffsets_eq_countdown : roundOffsets = countdown 51 13 := rfl

theorem stepShift_toNat (price : U256) : (stepShift price).toNat = price.toNat * 2 ^ 32 % 2 ^ 256 := ushl_toNat ..

theorem logFixed_eq (price : Nat) :
    logFixed price = ((Nat.log2 (price * 2 ^ 32 % 2 ^ 256) : Int) - 128) * 2 ^ 64 +
      logBits (countdown 51 13 ++ [50]) (seedValue (price * 2 ^ 32 % 2 ^ 256)) := by
  rfl

/-- LOGSP's logarithm raises nothing, and is that of R222 to R226 in whole numbers. -/
theorem logTwo_ok (price : U256) :
    ∃ l2, logTwo price = .ok l2 ∧ LogAt 50 l2 ∧ valOf l2 = logFixed price.toNat := by
  obtain ⟨hseed, hseedval⟩ := logAt_seed (stepShift price)
  have hnorm := stepSeed_stepMsb_toNat (stepShift price)
  have hx : (stepSeed (stepShift price) (stepMsb (stepShift price))).1.toNat < 2 ^ 128 := by
    rw [hnorm]; exact seedValue_lt (stepShift price).isLt
  obtain ⟨x', l2', hrounds, hx', hl', hbits⟩ := stepRounds_countdown 51 13 _ _ (by decide) hx hseed
  obtain ⟨x'', y, hlast, hx'', hy, -⟩ := squareStep_ok x' l2' 50 hx'
  obtain ⟨-, hy1, -⟩ := square_bounds hx'
  rw [← hx'', ← hy] at hy1
  obtain ⟨hl, hval⟩ := orValue_bit_logAt hl' (by decide) hy1
  refine ⟨_, ?_, hl, ?_⟩
  · rw [← roundOffsets_eq_countdown] at hrounds
    exact (bind_eq_ok_iff _ _ _).mpr ⟨_, hrounds, (bind_eq_ok_iff _ _ _).mpr ⟨_, hlast, rfl⟩⟩
  · have hfinal := hbits [50]
    rw [hseedval, hnorm, stepShift_toNat, ← logFixed_eq] at hfinal
    rw [hval, ← hfinal, logBits, logBits, ← hx'', ← hy, Nat.add_zero]

/-! ## The bounds -/

/-- The product with LOG_SCALE of a logarithm in range stays far below `2^255` (47_log_price.md R227). -/
theorem scaleLog_ok (l2 : I256) (h : (valOf l2).natAbs ≤ 2 ^ 71) :
    ∃ ls, scaleLog l2 = .ok ls ∧ valOf ls = valOf l2 * logScale ∧ (valOf ls).natAbs < 2 ^ 150 := by
  have hscale : valOf (canonical (logScale : Int)) = logScale := valOf_canonical _ (by decide)
  have hprod : (valOf l2 * logScale).natAbs < 2 ^ 150 := by rw [logScale]; omega
  have hval : valOf (canonical (valOf l2 * logScale)) = valOf l2 * logScale := valOf_canonical _ (by omega)
  refine ⟨_, ?_, hval, by rwa [hval]⟩
  rw [scaleLog, mulValue_exact, hscale, if_pos (by omega)]

/-- The last steps of a bound: division by `2^128` rounded down, and a value that fits a tick. -/
theorem asI64Value_shrValue_128 {z : Int} (hz : z.natAbs < 2 ^ 190) :
    asI64Value (shrValue (canonical z) 128) = .ok (BitVec.ofInt 64 (z / 2 ^ 128)) := by
  have hval : valOf (canonical z) = z := valOf_canonical z (by omega)
  have hvalid : Valid (canonical z) := canonical_valid z (by omega)
  rw [asI64Value_eq_toI64, valOf_shrValue _ 128 (by decide) hvalid, hval]
  exact toI64_ok _ _ (by omega) (by omega)

section
variable (p : Params) (ls : I256) (hls : (valOf ls).natAbs < 2 ^ 150)
include hls

theorem lowerBound_ok (hp : p.logErrLo.toNat < 2 ^ 128) :
    lowerBound p ls = .ok (BitVec.ofInt 64 ((valOf ls - p.logErrLo.toNat) / 2 ^ 128)) := by
  have hmag : ls.mag.toNat < 2 ^ 255 := by rw [← natAbs_valOf]; omega
  have herr : valOf (canonical (p.logErrLo.toNat : Int)) = p.logErrLo.toNat := valOf_canonical _ (by omega)
  have herrmag : (canonical (p.logErrLo.toNat : Int)).mag.toNat < 2 ^ 255 := by rw [← natAbs_valOf, herr]; omega
  have hsub : subValue ls (canonical (p.logErrLo.toNat : Int)) = .ok (canonical (valOf ls - p.logErrLo.toNat)) := by
    rw [subValue_exact _ _ hmag herrmag, herr, if_pos (by omega)]
  exact (bind_eq_ok_iff _ _ _).mpr ⟨_, hsub, asI64Value_shrValue_128 (by omega)⟩

theorem upperBound_ok (hp : p.logErrHi.toNat < 2 ^ 128) :
    upperBound p ls = .ok (BitVec.ofInt 64 ((valOf ls + p.logErrHi.toNat) / 2 ^ 128)) := by
  have hmag : ls.mag.toNat < 2 ^ 255 := by rw [← natAbs_valOf]; omega
  have herr : valOf (canonical (p.logErrHi.toNat : Int)) = p.logErrHi.toNat := valOf_canonical _ (by omega)
  have herrmag : (canonical (p.logErrHi.toNat : Int)).mag.toNat < 2 ^ 255 := by rw [← natAbs_valOf, herr]; omega
  have hadd : addValue ls (canonical (p.logErrHi.toNat : Int)) = .ok (canonical (valOf ls + p.logErrHi.toNat)) := by
    rw [addValue_exact _ _ hmag herrmag, herr, if_pos (by omega)]
  exact (bind_eq_ok_iff _ _ _).mpr ⟨_, hadd, asI64Value_shrValue_128 (by omega)⟩

end

/-- The range of the logarithm: an exponent of 0 to 255, less 128, with 14 bits below it. -/
theorem logFixed_range (price : U256) :
    -2 ^ 71 ≤ logFixed price.toNat ∧ logFixed price.toNat ≤ 2 ^ 71 - 2 ^ 50 := by
  obtain ⟨l2, -, ⟨-, -, hlo, hhi⟩, hval⟩ := logTwo_ok price
  omega

theorem logBounds_ok (p : Params) (hp : ConstantsInRange p) (price : U256) :
    logBounds p price = .ok
      (BitVec.ofInt 64 ((logFixed price.toNat * logScale - p.logErrLo.toNat) / 2 ^ 128),
       BitVec.ofInt 64 ((logFixed price.toNat * logScale + p.logErrHi.toNat) / 2 ^ 128)) := by
  obtain ⟨-, -, herrlo, herrhi⟩ := hp
  have hrange := logFixed_range price
  obtain ⟨l2, hlog, -, hval⟩ := logTwo_ok price
  obtain ⟨ls, hscale, hls, hlt⟩ := scaleLog_ok l2 (by omega)
  have hlow := lowerBound_ok p ls hlt herrlo
  have hupp := upperBound_ok p ls hlt herrhi
  rw [hls, hval] at hlow hupp
  exact (bind_eq_ok_iff _ _ _).mpr ⟨l2, hlog, (bind_eq_ok_iff _ _ _).mpr ⟨ls, hscale,
    (bind_eq_ok_iff _ _ _).mpr ⟨_, hlow, (bind_eq_ok_iff _ _ _).mpr ⟨_, hupp, rfl⟩⟩⟩⟩

/-! ## The tick under the reference constants -/

/-- The pick answers one of the two bounds where the price of the upper one can be recomputed. -/
theorem stepPick_mem (p : Params) (lo hi : I64) (price r : U256) (hr : sqrtPrice p hi = .ok r) :
    ∃ t, stepPick p lo hi price = .ok t ∧ (t = lo ∨ t = hi) := by
  by_cases hne : lo = hi
  · subst hne
    exact ⟨lo, stepPick_self p lo price, .inl rfl⟩
  · obtain hle | hlt := le_or_gt r.toNat price.toNat
    · exact ⟨hi, stepPick_of_price_le p lo hi price hne r hr hle, .inr rfl⟩
    · exact ⟨lo, stepPick_of_lt_price p lo hi price hne r hr hlt, .inl rfl⟩

/-- Under the reference constants both bounds are ticks in `[-1774546, 1774545]`, the lower one first
(47_log_price.md, range facts). -/
theorem reference_bounds_range (p : Params) (hp : ReferenceConstants p) (price : U256) :
    -1774546 ≤ (logFixed price.toNat * logScale - p.logErrLo.toNat) / 2 ^ 128 ∧
      (logFixed price.toNat * logScale - p.logErrLo.toNat) / 2 ^ 128 ≤
        (logFixed price.toNat * logScale + p.logErrHi.toNat) / 2 ^ 128 ∧
      (logFixed price.toNat * logScale + p.logErrHi.toNat) / 2 ^ 128 ≤ 1774545 := by
  obtain ⟨-, -, hlo, hhi⟩ := hp
  have hlo' : p.logErrLo.toNat = 3402992956809132418596140100660247210 := by rw [hlo]; decide
  have hhi' : p.logErrHi.toNat = 291339464771989622907027621153398088495 := by rw [hhi]; decide
  have hrange := logFixed_range price
  rw [hlo', hhi', logScale]
  omega

theorem logPrice_reference (p : Params) (hp : ReferenceConstants p) (hw : p.wideTick = .ignore) (price : U256) :
    ∃ t, logPrice p price = .ok t ∧ -1774546 ≤ ival t ∧ ival t ≤ 1774545 := by
  obtain ⟨hlow, hle, hhigh⟩ := reference_bounds_range p hp price
  have hb := logBounds_ok p (constantsInRange_of_reference p hp) price
  have hlo := ival_ofInt ((logFixed price.toNat * logScale - p.logErrLo.toNat) / 2 ^ 128) (by omega) (by omega)
  have hhi := ival_ofInt ((logFixed price.toNat * logScale + p.logErrHi.toNat) / 2 ^ 128) (by omega) (by omega)
  obtain ⟨r, hr, -⟩ := sqrtPrice_reference p hp _ (by rw [hhi]; omega) (.inl hw)
  obtain ⟨t, ht, hmem⟩ := stepPick_mem p _ _ price r hr
  refine ⟨t, (logPrice_of_bounds p price _ _ hb).trans ht, ?_⟩
  obtain rfl | rfl := hmem
  · rw [hlo]
    exact ⟨hlow, hle.trans hhigh⟩
  · rw [hhi]
    exact ⟨hlow.trans hle, hhigh⟩

/-! ## The obligations -/

/-- Settles O45: the rounds add their bits below the seed, and the scaled logarithm is far from the edges of
the range. -/
theorem logspBoundsAreRoundedDown : Obligations.LogspBoundsAreRoundedDown := by
  unfold Obligations.LogspBoundsAreRoundedDown
  refine ⟨fun price => ?_, fun p price hp => logBounds_ok p hp price, fun p l2 hp _ hl2 => ?_⟩
  · obtain ⟨l2, hlog, ⟨hvalid, -⟩, hval⟩ := logTwo_ok price
    exact ⟨l2, hlog, hvalid, hval⟩
  · obtain ⟨-, -, herrlo, herrhi⟩ := hp
    obtain ⟨ls, hscale, hls, hlt⟩ := scaleLog_ok l2 hl2
    exact ⟨ls, hscale, hls, lowerBound_ok p ls hlt herrlo, upperBound_ok p ls hlt herrhi⟩

/-- Settles O47: the bounds are ticks in range, so SQRTP answers for the upper one and the pick is one of them. -/
theorem logspCompletesUnderReferenceConstants : Obligations.LogspCompletesUnderReferenceConstants := by
  unfold Obligations.LogspCompletesUnderReferenceConstants
  intro s d a hp hw
  obtain ⟨t, ht, hlow, hhigh⟩ := logPrice_reference s.params hp hw (s.readU a)
  refine ⟨t, ?_, hlow, hhigh⟩
  rw [exec_logsp, ht, finishT_ok]

end Sys2Proof.Machine
end

section
/-! The window's accesses: what each does to its word, what it leaves alone, and the same accesses through a
byte-addressed bridge (20_memory.md R61 to R66). -/

namespace Sys2Proof.Machine

open Sys2Proof.Safety

/-! ## Single words -/

theorem readWord_withScript (s : State) (acts : List HostAction) (x : WindowWord) :
    (s.withScript acts).readWord x = s.readWord x := by
  cases x <;> rfl

theorem wordWritten_withScript (s : State) (acts : List HostAction) (x : WindowWord) :
    (s.withScript acts).wordWritten x = s.wordWritten x := by
  cases x <;> rfl

/-- STATUS, ORD and reserved words ignore a host write (20_memory.md R65). -/
theorem storeWord_of_ignored (s : State) (x : WindowWord) (w : Word64)
    (hx : x = .status ∨ x = .ord ∨ x = .reserved) : s.storeWord x w = s := by
  obtain rfl | rfl | rfl := hx <;> rfl

/-- The word at an address after a host write elsewhere: two addresses share a word only where it is reserved,
and reserved words store nothing. -/
theorem storeWord_other_address (s : State) (a b : WordAddr) (w : Word64) (hba : b ≠ a) :
    (s.storeWord (windowWord a) w).readWindow b = s.readWindow b ∧
      (s.storeWord (windowWord a) w).wordWritten (windowWord b) = s.wordWritten (windowWord b) := by
  by_cases hr : windowWord a = .reserved
  · rw [storeWord_of_ignored s _ w (.inr (.inr hr))]
    exact ⟨rfl, rfl⟩
  · have hne : windowWord b ≠ windowWord a := fun h => hba (windowWord_injective a b h.symm hr).symm
    exact ⟨readWord_storeWord_ne s _ _ w hne, wordWritten_storeWord_ne s _ _ w hne⟩

/-- A NEG word shows its register's sign in bit 0 (20_memory.md R61). -/
theorem readWindow_sNegAddr_toNat (s : State) (i : SIdx) :
    (s.readWindow (sNegAddr i)).toNat = (s.readS i).neg.toNat := by
  rw [State.readWindow, windowWord_sNegAddr, State.readWord, BitVec.toNat_setWidth_of_le (by decide),
    BitVec.toNat_ofBool]

/-- A limb of a register is its value at its place (20_memory.md R61). -/
theorem setLimb_toNat_at (m : U256) (j : Fin 4) (w : Word64) :
    (setLimb m j w).toNat / 2 ^ (64 * j.val) % 2 ^ 64 = w.toNat := by
  rw [← limb_toNat, limb_setLimb, if_pos rfl]

/-! ## The steps of host writes to registers -/

theorem step_write_sMag (s : State) (i : SIdx) (j : Fin 4) (w : Word64) (rest : List HostAction)
    (h : s.script = .write (sMagAddr i j) w :: rest) :
    step s = .next ((s.withScript rest).storeWord (.sMag i j) w) := by
  have hword := windowWord_sMagAddr i j
  rw [step_write_of_ne_cmd s _ w rest h (by rw [hword]; nofun), hword]

theorem step_write_sNeg (s : State) (i : SIdx) (w : Word64) (rest : List HostAction)
    (h : s.script = .write (sNegAddr i) w :: rest) :
    step s = .next ((s.withScript rest).storeWord (.sNeg i) w) := by
  have hword := windowWord_sNegAddr i
  rw [step_write_of_ne_cmd s _ w rest h (by rw [hword]; nofun), hword]

theorem step_write_uLimb (s : State) (i : UIdx) (j : Fin 4) (w : Word64) (rest : List HostAction)
    (h : s.script = .write (uLimbAddr i j) w :: rest) :
    step s = .next ((s.withScript rest).storeWord (.uLimb i j) w) := by
  have hword := windowWord_uLimbAddr i j
  rw [step_write_of_ne_cmd s _ w rest h (by rw [hword]; nofun), hword]

theorem step_write_tWord (s : State) (i : TIdx) (w : Word64) (rest : List HostAction)
    (h : s.script = .write (tWordAddr i) w :: rest) :
    step s = .next ((s.withScript rest).storeWord (.tWord i) w) := by
  have hword := windowWord_tWordAddr i
  rw [step_write_of_ne_cmd s _ w rest h (by rw [hword]; nofun), hword]

/-- The register after a host write of its NEG word: bit 0 is the sign, the magnitude stays. -/
theorem readS_storeWord_sNeg_self (s : State) (i : SIdx) (w : Word64) :
    ((s.storeWord (.sNeg i) w).readS i).neg = w.getLsbD 0 ∧
      ((s.storeWord (.sNeg i) w).readS i).mag = (s.readS i).mag := by
  rw [readS_storeWord_sNeg, if_pos rfl]
  exact ⟨rfl, rfl⟩

/-! ## The bridge -/

/-- The bytes of a word make up its value. -/
theorem bytesValue_wordBytes (w : Word64) : bytesValue (wordBytes w) = w.toNat := by
  have hw := w.isLt
  simp only [wordBytes, List.map_cons, List.map_nil, bytesValue, BitVec.extractLsb'_toNat,
    Nat.shiftRight_eq_div_pow]
  omega

theorem wordToBus_length (o : ByteOrder) (w : Word64) : (wordToBus o w).length = 8 := by
  cases o <;> rfl

/-- The bridge's two directions are inverse, in either byte order (20_memory.md R64). -/
theorem busToWord_wordToBus (o : ByteOrder) (w : Word64) : busToWord o (wordToBus o w) = w := by
  have hbytes : busOrder o (wordToBus o w) = wordBytes w := by
    cases o with
    | little => rfl
    | big => exact List.reverse_reverse _
  rw [busToWord, hbytes, bytesValue_wordBytes, BitVec.ofNat_toNat, BitVec.setWidth_eq]

theorem bridgeAddr_of_whole_word (p : Params) (a : WordAddr) :
    bridgeAddr p (p.windowBase + 8 * a.toNat) 8 = .ok a := by
  have ha := a.isLt
  rw [bridgeAddr, if_neg (by omega), if_neg (by omega)]
  refine congrArg Except.ok (BitVec.eq_of_toNat_eq ?_)
  rw [BitVec.toNat_ofNat]
  omega

theorem bridgeAddr_of_partial (p : Params) (off len : Nat) (hoff : off < 8 * 256) (h : off % 8 ≠ 0 ∨ len ≠ 8) :
    bridgeAddr p (p.windowBase + off) len = .error .partialWordAccess := by
  rw [bridgeAddr, if_neg (by omega), if_pos (by omega)]

theorem step_busWrite (s : State) (byteAddr : Nat) (bytes : List Byte) (rest : List HostAction)
    (h : s.script = .busWrite byteAddr bytes :: rest) :
    step s = performAction (.busWrite byteAddr bytes) (s.withScript rest) := by
  rw [step, nextAction, h]

theorem step_busRead (s : State) (byteAddr len : Nat) (rest : List HostAction)
    (h : s.script = .busRead byteAddr len :: rest) :
    step s = performAction (.busRead byteAddr len) (s.withScript rest) := by
  rw [step, nextAction, h]

/-! ## The obligations -/

/-- Settles O50: the access of each kind of word, by the window's map and its store. -/
theorem windowSideEffects : Obligations.WindowSideEffects := by
  unfold Obligations.WindowSideEffects
  refine ⟨step_write_cmd, fun s a w rest h ha => ?_, fun s a ha => ?_, step_read, fun s k w rest h => ?_⟩
  · have hcmd : windowWord a ≠ .cmd := by obtain h | h | h := ha <;> rw [h] <;> nofun
    rw [step_write_of_ne_cmd s a w rest h hcmd, storeWord_of_ignored _ _ _ ha]
  · rw [State.readWindow]
    obtain h | h := ha <;> rw [h] <;> rfl
  · exact ⟨_, step_write_sNeg s k w rest h, readS_storeWord_sNeg_self _ k w⟩

/-- Settles O51: a write of a limb, a T word or a NEG word stores at the word's place, and a read of the same
address shows that place. -/
theorem hostWriteIsReadBackInPlace : Obligations.HostWriteIsReadBackInPlace := by
  unfold Obligations.HostWriteIsReadBackInPlace
  refine ⟨fun s i j w rest h => ⟨_, step_write_sMag s i j w rest h, ?_, ?_, ?_⟩,
    fun s i j w rest h => ⟨_, step_write_uLimb s i j w rest h, ?_, ?_⟩,
    fun s i w rest h => ⟨_, step_write_tWord s i w rest h, ?_, ?_⟩, readWindow_sNegAddr_toNat,
    fun s i w rest h => ⟨_, step_write_sNeg s i w rest h, ?_, readS_storeWord_sNeg_self _ i w⟩⟩
  · rw [State.readWindow, windowWord_sMagAddr, readWord_storeWord_sMag]
  · rw [readS_storeWord_sMag, if_pos rfl]
    exact setLimb_toNat_at _ j w
  · rw [readS_storeWord_sMag, if_pos rfl]; rfl
  · rw [State.readWindow, windowWord_uLimbAddr, readWord_storeWord_uLimb]
  · rw [readU_storeWord_uLimb, if_pos rfl]
    exact setLimb_toNat_at _ j w
  · rw [State.readWindow, windowWord_tWordAddr, readWord_storeWord_tWord]
  · rw [readT_storeWord_tWord, if_pos rfl]
  · obtain ⟨hneg, -⟩ := readS_storeWord_sNeg_self (s.withScript rest) i w
    rw [readWindow_sNegAddr_toNat, hneg, BitVec.getLsbD, Nat.testBit_zero]
    obtain h0 | h1 := Nat.mod_two_eq_zero_or_one w.toNat
    · rw [h0]; rfl
    · rw [h1]; rfl

/-- Settles O52: no other address names the word, and a reserved word stores nothing. -/
theorem hostWriteTouchesOneWord : Obligations.HostWriteTouchesOneWord := by
  unfold Obligations.HostWriteTouchesOneWord
  intro s a w rest h ha
  refine ⟨_, step_write_of_ne_cmd s a w rest h ha, storeWord_script .., fun b hba => ?_,
    wordWritten_storeWord_self _ _ w, storeWord_status .., storeWord_replies .., storeWord_params ..⟩
  obtain ⟨hread, hwritten⟩ := storeWord_other_address (s.withScript rest) a b w hba
  exact ⟨hread.trans (readWord_withScript s rest _), hwritten.trans (wordWritten_withScript s rest _)⟩

/-- Settles O58: the bridge names the word's address, and its two byte conversions are inverse. -/
theorem wholeWordBusAccessIsTheWindowAccess : Obligations.WholeWordBusAccessIsTheWindowAccess := by
  unfold Obligations.WholeWordBusAccessIsTheWindowAccess
  refine ⟨fun s a w rest h => ?_, fun s a rest h => ?_⟩
  · have hwrite : step (s.withScript (.write a w :: rest)) = writeAccess a w (s.withScript rest) :=
      step_write _ a w rest rfl
    rw [hwrite, step_busWrite s _ _ rest h, performAction, wordToBus_length, State.withScript_params,
      bridgeAddr_of_whole_word]
    dsimp only
    rw [busToWord_wordToBus]
  · refine ⟨wordToBus s.params.byteOrder (s.readWindow a), ?_, wordToBus_length _ _, busToWord_wordToBus _ _⟩
    have hread : (s.withScript rest).readWindow a = s.readWindow a := readWord_withScript s rest _
    rw [step_busRead s _ _ rest h, performAction, State.withScript_params, bridgeAddr_of_whole_word]
    dsimp only
    rw [hread]

/-- Settles O59: an access that starts in the window and is not one whole aligned word has no window address. -/
theorem partialWordAccessIsRefused : Obligations.PartialWordAccessIsRefused := by
  unfold Obligations.PartialWordAccessIsRefused
  refine ⟨fun s off bytes rest hoff h hpart => ?_, fun s off len rest hoff h hpart => ?_⟩
  · rw [step_busWrite s _ _ rest h, performAction, State.withScript_params, bridgeAddr_of_partial _ _ _ hoff hpart]
  · rw [step_busRead s _ _ rest h, performAction, State.withScript_params, bridgeAddr_of_partial _ _ _ hoff hpart]

end Sys2Proof.Machine
end
